-- ==== Sys2Proof/Word.lean ====
section
/-!
DEFINITION. The word types of the board block (`00_scope.md` R9). Numbers are unsigned; no value is signed.
-/
namespace Sys2Proof

/-- A `u8` (R9). -/
abbrev Byte := BitVec 8

/-- A `u16` (R9): a bus address, a port value. -/
abbrev Word := BitVec 16

/-- A `u24` (R9): a slot's cursor and mask (R41, R265). -/
abbrev Word24 := BitVec 24

/-- A `u32`: a header field of the snapshot (R350). -/
abbrev Word32 := BitVec 32

end Sys2Proof
end

