-- ==== Sys2Proof/Syntax.lean ====
section
/-!
DEFINITION. The operations the block answers, one constructor for each mnemonic of `opcode_table.json`
(`30_encoding.md` R120). Where several rows share a mnemonic, an operand ranges over those rows (log 27).
-/
namespace Sys2Proof

/-- Which of the two storage slots (R41). -/
inductive SlotIx where
  | s0
  | s1
  deriving DecidableEq, Repr

/-- Which of the two addresses of an LCD register that has two (R8: A_LCD_ADDR0 or 1, A_LCD_CONF0 or 1). -/
inductive AliasIx where
  | a0
  | a1
  deriving DecidableEq, Repr

/-- A normal-path transaction the CPU puts on the bus inside an EXEC (R142, R282). -/
inductive BusOp where
  | readWord (a : Word)
  | readByte (a : Word)
  | writeWord (a v : Word)
  | writeByte (a : Word) (v : Byte)
  | fetchWord (a : Word)
  deriving DecidableEq, Repr

/-- An access to an unassigned I/O address: "any read or write, of either width" (R185). -/
inductive PortAccess where
  | readWord
  | readByte
  | writeWord (v : Word)
  | writeByte (v : Byte)
  deriving DecidableEq, Repr

/-- The data access that follows a storage command byte: "Command byte top nibble selects the operation on the *next*
data access" (R106). `none`: the command byte alone, its data access comes as a stimulus of its own. -/
inductive NextAccess where
  | none
  | read
  | write (b : Byte)
  deriving DecidableEq, Repr

/-- A breakpoint reference as the host hands it to SETBP (R46, R326): null, the registry's array, or an array of the
caller's own (P5 of `95_test_vectors.md`). That `registry` may be handed over while the array is empty is log 17's. -/
inductive BpRef where
  | null
  | registry
  | listed (xs : List Word)
  deriving DecidableEq, Repr

/-- Which of the two identically shaped arrays a registry operation is on (R340, R346). -/
inductive BpArray where
  | breaks
  | watches
  deriving DecidableEq, Repr

/-- The operations of the block. The boolean operands `halt` and `exe` are `haltMode` and `forExecution` (R100, R141). -/
inductive Instr where
  -- regions (R140, R101): an address offered to the translator
  | ramLow (a : Word) (halt exe : Bool)
  | denied (a : Word) (halt exe : Bool)
  | ioA (a : Word) (halt exe : Bool)
  | ioB (a : Word) (halt exe : Bool)
  | ioC (a : Word) (halt exe : Bool)
  | ioD (a : Word) (halt exe : Bool)
  | winRam (a : Word) (halt exe : Bool)
  | rom (a : Word) (halt exe : Bool)
  | ramTop (a : Word) (halt exe : Bool)
  -- bus transactions (R142 to R149)
  | rdw (a : Word) (halt : Bool)
  | rdb (a : Word) (halt : Bool)
  | wrw (a v : Word) (halt : Bool)
  | wrb (a : Word) (v : Byte) (halt : Bool)
  | fetch (a : Word) (halt : Bool)
  | viewW (a : Word)
  | viewB (a : Word)
  -- port operations (R175 to R188, R211 to R216)
  | lcdAddrR (p : AliasIx)
  | lcdAddrW (p : AliasIx) (v : Word)
  | lcdConfR (p : AliasIx)
  | lcdConfW (p : AliasIx) (v : Word)
  | extDataR
  | extDataW (v : Word)
  | extCsR
  | extCsW (v : Word)
  | extCmdR
  | extCmdW (v : Word)
  | sndCtlR
  | sndCtlW (v : Word)
  | sndReloadR
  | sndReloadW (v : Word)
  | envReloadR
  | envReloadW (v : Word)
  | lcdIndexR
  | lcdIndexW (v : Word)
  | portUnassigned (a : Word) (acc : PortAccess)
  -- device selects (R103, R104): `hi` is bits 15:4 of the control word
  | devSmp0Rd (hi : BitVec 12)
  | devSmp1Rd (hi : BitVec 12)
  | devKbdRd (hi : BitVec 12)
  | devSmp0Wr (hi : BitVec 12)
  | devSmp1Wr (hi : BitVec 12)
  | devNone (hi : BitVec 12) (dev : BitVec 4)
  -- storage commands (R106, R257 to R263): `low` is bits 3:0 of the command byte
  | smpRdDec (low : BitVec 4) (sl : SlotIx) (nx : NextAccess)
  | smpRdInc (low : BitVec 4) (sl : SlotIx) (nx : NextAccess)
  | smpWrAddr (low : BitVec 4) (sl : SlotIx) (nx : NextAccess)
  | smpWr20 (low : BitVec 4) (sl : SlotIx) (nx : NextAccess)
  | smpWrC0 (low : BitVec 4) (sl : SlotIx) (nx : NextAccess)
  | smpWrE0 (low : BitVec 4) (sl : SlotIx) (nx : NextAccess)
  | smpUndef (op low : BitVec 4) (sl : SlotIx) (nx : NextAccess)
  -- slot operations (R254 to R256)
  | slotWrCmd (sl : SlotIx) (c : Byte)
  | slotRdData (sl : SlotIx)
  | slotWrData (sl : SlotIx) (b : Byte)
  -- scheduler events (R282 to R287)
  | cpuExec
  | bpChk
  | tTick
  | tick50
  | doSound
  -- host actions (R281, R410, R321 to R327, R217, R251 to R253, R351, R352)
  | frame
  | reset
  | loadRom (img : List Byte)
  /-- The spec gives `bank` no type: a u16 is the model's DESIGN CHOICE (log 37). -/
  | loadRam (bank : Word) (buf : List Byte)
  | setConfig (id : Word)
  | key (sc : Byte) (pressed : Bool)
  | attach (sl : SlotIx) (img : Option (List Byte))
  | detach (sl : SlotIx)
  | isAtt (sl : SlotIx)
  | setSoundCb (cb : Option Word)
  | setSound (on : Bool)
  | setBp (set : BpRef)
  | save
  | load (img : List Byte)
  | video
  -- breakpoint registry (R341 to R346)
  | bpAdd (arr : BpArray) (a : Word)
  | bpRemove (arr : BpArray) (a : Word)
  | bpSetTemp (a : Word)
  | bpClearAll (arr : BpArray)
  deriving DecidableEq, Repr

end Sys2Proof
end

