-- ==== Sys2Proof/Config.lean ====
section
/-!
DEFINITION. What an implementation fixes: the constants of `00_scope.md` R7, the open parameters of R8 as one record
`Config` with its reference value `Config.refcfg`, and the free values, which are constants without a body.
-/
namespace Sys2Proof

/-- One clause of CTRL_WRITE_ENDS (R8, D15), as data: it holds of a control write from `old` to `new` when the masked
words match. A list of clauses is the predicate "some clause holds"; every predicate on two words is such a list. -/
structure EndsClause where
  oldMask : Word
  oldMatch : Word
  newMask : Word
  newMatch : Word
  deriving DecidableEq, Repr

/-- The open parameters (R8). The constraints of R8's last column are `Machine.configValid`. -/
structure Config where
  aLcdAddr0 : Word
  aLcdAddr1 : Word
  aLcdConf0 : Word
  aLcdConf1 : Word
  aLcdIndex : Word
  aExtData : Word
  aExtCs : Word
  aExtCmd : Word
  aSndCtl : Word
  aSndReload : Word
  aEnvReload : Word
  statusFixed : Word
  statusCtrlMask : Word
  statusDesel : Word
  /-- CTRL_WRITE_ENDS(old, new) as a list of clauses. -/
  ctrlWriteEnds : List EndsClause
  octaveLsb : Nat
  volumeLsb : Nat
  gen50Bit : Nat
  kbdLevel : Nat
  kbdVector : Nat
  extLevel : Nat
  extVector : Nat
  evntLevel : Nat
  evntVector : Nat
  sampleRate : Nat
  bpN : Nat
  lcdBytes : Nat
  /-- RAM_BANK_BASE(bank), `bank` a u16 (log 37): the listed banks first, every other bank at `bank * ramBankStride`. -/
  ramBankTable : List (Word × Nat)
  ramBankStride : Nat
  /-- The id named BASIC10, which CONFIG_IDS contains. -/
  basic10 : Word
  configIds : List Word
  /-- SNAP_MAGIC1, SNAP_MAGIC2, SNAP_VERSION: `none` is "OPEN, no reference value", read as a free value (log 21). -/
  snapMagic1 : Option Word32
  snapMagic2 : Option Word32
  snapVersion : Option Word32
  deriving DecidableEq, Repr

/-- REFCFG, the reference value of every parameter (R8, R102, R103, R105, R107). The encoding 1 of BASIC10 is the
model's: DESIGN CHOICE, log 6. -/
def Config.refcfg : Config where
  aLcdAddr0 := 0xE800#16
  aLcdAddr1 := 0xE804#16
  aLcdConf0 := 0xE802#16
  aLcdConf1 := 0xE806#16
  aLcdIndex := 0xEA02#16
  aExtData := 0xE810#16
  aExtCs := 0xE814#16
  aExtCmd := 0xE816#16
  aSndCtl := 0xE81A#16
  aSndReload := 0xE81C#16
  aEnvReload := 0xEA00#16
  statusFixed := 0x0040#16
  statusCtrlMask := 0x000F#16
  statusDesel := 0x0080#16
  ctrlWriteEnds := [⟨0x0000#16, 0x0000#16, 0x000F#16, 0x0002#16⟩]
  octaveLsb := 0
  volumeLsb := 3
  gen50Bit := 5
  kbdLevel := 2
  kbdVector := 0o310
  extLevel := 2
  extVector := 0o304
  evntLevel := 6
  evntVector := 0o100
  sampleRate := 22050
  bpN := 17
  lcdBytes := 960
  ramBankTable := []
  ramBankStride := 16384
  basic10 := 0x0001#16
  configIds := [0x0001#16]
  snapMagic1 := none
  snapMagic2 := none
  snapVersion := none

/-! ### Constants the source fixes (R7) -/

/-- RAM_SIZE. -/
def ramSize : Nat := 65536
/-- ROM_SIZE. -/
def romSize : Nat := 32768
/-- SMP_MAX. -/
def smpMax : Nat := 10240
/-- FRAME_TICKS. -/
def frameTicks : Nat := 20000
/-- SUBTICKS. -/
def subTicks : Nat := 16
/-- The second of the two values of TICK50_AT; the first is 0. -/
def tick50Second : Nat := 10000
/-- AUDIO_NUM. -/
def audioNum : Nat := 20286
/-- FRAMES_PER_SEC. -/
def framesPerSec : Nat := 25
/-- LEVEL_BASE. -/
def levelBase : Word := 0x1FFF#16
/-- KBD_IDLE. -/
def kbdIdle : Byte := 0xFF#8
/-- SMP_EMPTY. -/
def smpEmpty : Byte := 0xFF#8
/-- BP_SENTINEL. -/
def bpSentinel : Word := 0xFFFF#16
/-- SNAP_SIZE. -/
def snapSize : Nat := 147456

/-! ### The CPU collaborator's behaviour and the free values -/

/-- What one `CPU.Execute()` does, as the block sees it (R282, R45, R395): the bus transactions it issues, in order, and
the program counter, halt-mode bit and opaque 32 bytes it leaves. That every Execute terminates, so that its transactions
are a finite list, is the model's choice where R440 has it as a condition (DESIGN CHOICE, log 10). -/
structure CpuExec where
  txns : List BusOp
  pc : Word
  halt : Bool
  image : Vector Byte 32
  deriving DecidableEq, Repr, Inhabited

/-- FREE VALUE (log 10): the `n`-th thing the CPU does that no script fixes. -/
opaque Config.cpuExecute : Nat → CpuExec
/-- FREE VALUE (log 7): the power-on contents of RAM cell `i` (R23, U11). -/
opaque Config.ramPowerOn : Nat → Byte
/-- FREE VALUE (log 7): the power-on contents of ROM cell `i` (R24, U11). -/
opaque Config.romPowerOn : Nat → Byte
/-- FREE VALUE (log 13): the value handed back for a faulting word read (R81, U10). -/
opaque Config.faultWord : Nat → Word
/-- FREE VALUE (log 13): the value handed back for a faulting byte read (R81, U10). -/
opaque Config.faultByte : Nat → Byte
/-- FREE VALUE (log 11): the CPU's program counter after its own reset (R410, R412). -/
opaque Config.cpuResetPc : Nat → Word
/-- FREE VALUE (log 11): the CPU's halt-mode bit after its own reset. -/
opaque Config.cpuResetHalt : Nat → Bool
/-- FREE VALUE (log 11): the CPU's 32 opaque bytes after its own reset. -/
opaque Config.cpuResetImage : Nat → Vector Byte 32
/-- FREE VALUE (log 12): the program counter the CPU has after `LoadFromImage` of these bytes (R352). -/
opaque Config.cpuPcOfImage : Vector Byte 32 → Word
/-- FREE VALUE (log 36): the CPU's 32 opaque bytes after `CPU.SetPC(v)`, from those before it. -/
opaque Config.cpuImageAfterSetPc : Vector Byte 32 → Word → Vector Byte 32
/-- FREE VALUE (log 12): the halt-mode bit the CPU has after `LoadFromImage` of these bytes. -/
opaque Config.cpuHaltOfImage : Vector Byte 32 → Bool
/-- FREE VALUE (log 39): the configuration word that SETCONFIG leaves for an id outside CONFIG_IDS (R323). -/
opaque Config.otherConfig : Nat → Word
/-- FREE VALUE (log 19): what `LOAD` makes of a sound-on word that is neither 0 nor 1 (R350, R352). -/
opaque Config.soundFlag : Word → Bool
/-- FREE VALUE (log 21): SNAP_MAGIC1 where the configuration gives none (R8, D31). -/
opaque Config.openSnapMagic1 : Word32
/-- FREE VALUE (log 21): SNAP_MAGIC2 where the configuration gives none (R8, D31). -/
opaque Config.openSnapMagic2 : Word32
/-- FREE VALUE (log 21): SNAP_VERSION where the configuration gives none (R8, D31). -/
opaque Config.openSnapVersion : Word32

end Sys2Proof
end

