-- ==== Sys2Proof/Machine/State.lean ====
section
/-!
DEFINITION. The state of the board block, every element of `10_state.md` R50, as plain data; the model's own fields
(`inbox`, `out`, `cpu.script`) beside it; why a step can stop; the state at power-on.
-/
namespace Sys2Proof.Machine

/-- A memory array: the bytes known so far, as (index, byte) pairs with indices strictly rising (`Memory.wf`). An index
that is not listed has no listed value; the array's power-on value, which is free, stands for it (log 7). -/
abbrev Memory := List Host.Cell

/-- The region kinds (R15, R140). -/
inductive RegionKind where
  | ram
  | rom
  | io
  | denied
  deriving DecidableEq, Repr

/-- The formats of `30_encoding.md` section 1, as the channels a stimulus comes in on, and the host's call on the CPU's own
interface, which has no row in the opcode table (R5, R11; log 36). -/
inductive Format where
  | addr16
  | bus
  | port
  | ctrl16
  | smpcmd8
  | evt
  | cpu
  deriving DecidableEq, Repr

/-- One encoded stimulus: its format and its bytes, the table's bits first (logs 1 and 2). -/
structure Stimulus where
  fmt : Format
  bytes : List Byte
  deriving DecidableEq, Repr

/-- The causes of a bus fault (R371). -/
inductive FaultCause where
  | fDenied
  | fRomWrite
  | fPort
  deriving DecidableEq, Repr

/-- The width of a transaction (R78). -/
inductive Width where
  | byte
  | word
  deriving DecidableEq, Repr

/-- The direction of a transaction (R100). -/
inductive Dir where
  | read
  | write
  deriving DecidableEq, Repr

/-- A transaction as a fault log names it (R372). -/
structure Access where
  addr : Word
  width : Width
  dir : Dir
  deriving DecidableEq, Repr

/-- An entry of the fault log R372 allows a model: it is no hardware state. -/
structure FaultRecord where
  cause : FaultCause
  access : Access
  deriving DecidableEq, Repr

/-- What the block answers to a stimulus (R142; log 15). -/
inductive Answer where
  /-- No stimulus has been answered yet. -/
  | idle
  /-- The operation is done and returns no value. -/
  | done
  | word (v : Word)
  | byte (b : Byte)
  | bool (b : Bool)
  | bytes (bs : List Byte)
  /-- BusFault on a word read; the value is a free one (R81). -/
  | faultWord (draw : Word)
  /-- BusFault on a byte read; the value is a free one (R81). -/
  | faultByte (draw : Byte)
  /-- BusFault on a write: nothing stored (R81). -/
  | faultWrite
  /-- The translator's answer (R140, R141). -/
  | region (kind : RegionKind) (offset : Option Word)
  deriving DecidableEq, Repr

/-- A call the block makes on a collaborator (R5, R47), or its answer to a transaction of the CPU's inside an EXEC. -/
inductive Signal where
  /-- `CPU.MemoryError()` (R370). -/
  | memoryError
  /-- `CPU.InterruptVIRQ(level, vector)` (R380). -/
  | interruptVirq (level vector : Nat)
  /-- `sound_cb(left, right)` of the callback with this handle (R287). -/
  | soundCb (handle left right : Word)
  /-- `CPU.Execute()` (R282). -/
  | cpuExecute
  /-- The CPU's own reset (R410). -/
  | cpuReset
  /-- `CPU.SaveToImage` (R350). -/
  | cpuSave
  /-- `CPU.LoadFromImage` (R352). -/
  | cpuLoad (image : Vector Byte 32)
  /-- The block's answer to a transaction the CPU issued inside an EXEC (R142, R282). -/
  | busAnswer (a : Answer)
  deriving DecidableEq, Repr

/-- The LCD registers (R26 to R28). -/
structure Lcd where
  addr : Word
  conf : Word
  index : Word
  deriving DecidableEq, Repr

/-- The sound and timer registers and counters (R30 to R35). -/
structure Sound where
  ctl : Word
  reload : Word
  envReload : Word
  tonePre : Byte
  toneCnt : Word
  envCnt : Word
  deriving DecidableEq, Repr

/-- The external-device controller (R36 to R39). -/
structure ExtDev where
  control : Word
  command : Byte
  shift : Byte
  selected : Bool
  deriving DecidableEq, Repr

/-- A storage slot (R41). Its `size` is the length of `buf`. -/
structure Slot where
  attached : Bool
  buf : List Byte
  mask : Word24
  cursor : Word24
  command : Byte
  deriving DecidableEq, Repr

/-- The breakpoint registry and the watchpoint array (R340, R346), each as the list of its entries, newest last. -/
structure Registry where
  breaks : List Word
  temp : Option Word
  watches : List Word
  deriving DecidableEq, Repr

/-- The loop counters of FRAME (R44). -/
structure FramePos where
  tick : Nat
  sub : Nat
  deriving DecidableEq, Repr

/-- The CPU collaborator as the block sees it (R5, R45, R395), and the script of what it does next (log 10). -/
structure Cpu where
  pc : Word
  halt : Bool
  image : Vector Byte 32
  script : List CpuExec
  deriving DecidableEq, Repr

/-- The model's own record of what the block put out (log 15) and how many free values were drawn (log 14). -/
structure Outbox where
  answer : Answer
  /-- Newest first. -/
  signals : List Signal
  /-- Newest first. -/
  faultLog : List FaultRecord
  draws : Nat
  deriving DecidableEq, Repr

/-- The machine's state. -/
structure State where
  /-- The parameters of R8. -/
  cfg : Config
  ram : Memory
  rom : Memory
  config : Word
  lcd : Lcd
  snd : Sound
  soundOn : Bool
  soundCb : Option Word
  ext : ExtDev
  slot0 : Slot
  slot1 : Slot
  bpSet : BpRef
  registry : Registry
  uptime : Nat
  frame : Option FramePos
  cpu : Cpu
  /-- The stimuli still to come, oldest first (log 1). -/
  inbox : List Stimulus
  out : Outbox
  deriving DecidableEq, Repr

/-- Why the machine stops with a fault: never. The block's one synchronous exception, BusFault, is a call on the CPU
after which "the block is ready for the next transaction" (R373), so it is a next state; the spec names no event that
stops the block (log 33). Safe: nothing is stopped that the spec lets go on. -/
inductive Fault where
  deriving DecidableEq, Repr

/-- Why the decoder rejects a stimulus. -/
inductive Reject where
  /-- The stimulus has not the number of bytes its format has. -/
  | length
  /-- An operand byte holds a value that stands for nothing. -/
  | operand
  /-- The operation byte names no operation. -/
  | operation
  /-- A PORT stimulus whose address is no I/O address. -/
  | notIo
  deriving DecidableEq, Repr

/-- Why the model gives a stimulus no step. -/
inductive Refusal where
  /-- Raised by a dispatch arm of an instruction without a meaning. No arm of this model raises it. Safe. -/
  | notModelled (mnemonic : String)
  /-- Raised by `step` when the outside has offered no stimulus (log 1). Safe. -/
  | noStimulus
  /-- Raised by `step` on bytes that encode no stimulus (log 2). Safe. -/
  | undecodable (why : Reject)
  /-- Raised by `step` on a decoded term that breaks an operand constraint. Safe. -/
  | illFormed
  /-- Raised by `step`: "a configuration that breaks one is refused" (R8, R284). Safe. -/
  | badConfiguration
  /-- Raised by every host action while a FRAME runs: "a model gives these overlaps no step" (R87, R433, U6). Safe. -/
  | hostOverlap
  /-- Raised by LOADROM on an image that is not 32768 bytes (R321, U17). Safe. -/
  | badRomLength
  /-- Raised by LOADRAM past the end of RAM (R322, U17). Safe. -/
  | ramPastEnd
  /-- Raised by VIDEO when the bitmap passes the end of RAM (R327, U13). Safe. -/
  | videoPastEnd
  /-- Raised by LOAD on an image that is not 147456 bytes (R352, U9). Safe. -/
  | badSnapshotLength
  deriving DecidableEq, Repr

/-- An empty slot, as it is created (R42). -/
def Slot.empty : Slot where
  attached := false
  buf := []
  mask := 0xFFFF#24
  cursor := 0#24
  command := 0#8

/-- The block at power-on (R411, R50): registers at their RESET values, slots empty, no breakpoint set, no callback,
sound off, no byte of memory known, REFCFG. `config` (log 8), the CPU's fields (log 9), the registry (log 22) and
`uptime` (log 20) are named values the spec does not give. -/
def State.reset : State where
  cfg := Config.refcfg
  ram := []
  rom := []
  config := 0#16
  lcd := ⟨0#16, 0#16, 0#16⟩
  snd := ⟨0#16, 0#16, 0#16, 0#8, 0#16, 0#16⟩
  soundOn := false
  soundCb := none
  ext := ⟨0#16, 0#8, 0xFF#8, false⟩
  slot0 := Slot.empty
  slot1 := Slot.empty
  bpSet := .null
  registry := ⟨[], none, []⟩
  uptime := 0
  frame := none
  cpu := ⟨0#16, false, Vector.replicate 32 0#8, []⟩
  inbox := []
  out := ⟨.idle, [], [], 0⟩

end Sys2Proof.Machine
end

