-- ==== Sys2Proof/Machine/Operands.lean ====
section
/-!
DEFINITION. The operand forms and formats of the block, as pure functions: byte order and lanes, address
classification, the port map, the device and storage fields, the configuration's constraints.
-/
namespace Sys2Proof.Machine

/-! ### Bytes and words (R9, R73, R74, R111) -/

/-- `lo8(w) = w[7:0]` (R9). -/
def lo8 (w : Word) : Byte := w.extractLsb' 0 8

/-- `hi8(w) = w[15:8]` (R9). -/
def hi8 (w : Word) : Byte := w.extractLsb' 8 8

/-- The word `{h, l}` (R9). -/
def word16 (h l : Byte) : Word := h ++ l

/-- `zext_16(b)` (R9). -/
def zext16 (b : Byte) : Word := b.setWidth 16

/-- The even address of a word transaction or of the containing word (R76, R77). -/
def evenAddr (a : Word) : Word := a &&& 0xFFFE#16

/-- The byte lane of a word that a byte address selects: odd is the high byte (R73, R111). -/
def laneOf (a w : Word) : Byte := if a.getLsbD 0 then hi8 w else lo8 w

/-- The word a byte write merges into (R111). -/
def laneMerge (a w : Word) (b : Byte) : Word :=
  if a.getLsbD 0 then (w &&& 0x00FF#16) ||| (zext16 b <<< 8) else (w &&& 0xFF00#16) ||| zext16 b

/-- `field(w, lsb, n)` (R11). -/
def field (w : Word) (lsb n : Nat) : Nat := (w.toNat >>> lsb) % 2 ^ n

/-! ### Address classification (R140, R141) -/

/-- The I/O sub-ranges IO_A to IO_D (R7). -/
def isIo (a : Word) : Bool :=
  (decide (0o164000 ≤ a.toNat) && decide (a.toNat ≤ 0o164007)) ||
  (decide (0o164020 ≤ a.toNat) && decide (a.toNat ≤ 0o164027)) ||
  (decide (0o164032 ≤ a.toNat) && decide (a.toNat ≤ 0o164035)) ||
  (decide (0o165000 ≤ a.toNat) && decide (a.toNat ≤ 0o165177))

/-- The port window (R15). -/
def inWindow (a : Word) : Bool := decide (0o164000 ≤ a.toNat) && decide (a.toNat < 0o166000)

/-- Where an address leads: a store and the index into it (R71, R140). -/
inductive Place where
  | ram (o : Word)
  | rom (o : Word)
  | io (o : Word)
  | denied
  deriving DecidableEq, Repr

/-- The region kind of a place. -/
def placeKind : Place → RegionKind
  | .ram _ => .ram
  | .rom _ => .rom
  | .io _ => .io
  | .denied => .denied

/-- The offset of a place; Denied has none. -/
def placeOffset : Place → Option Word
  | .ram o => some o
  | .rom o => some o
  | .io o => some o
  | .denied => none

/-- `Classify(a)` (R140): the comparisons in the rule's order, the first that holds decides. -/
def classify (a : Word) : Place :=
  if a.toNat < 0o40000 then .ram a
  else if a.toNat < 0o100000 then .denied
  else if inWindow a then (if isIo a then .io a else .ram a)
  else if a.toNat < 0o174666 then .rom (a - 0x8000#16)
  else .ram a

/-- `translate(address, haltMode, forExecution)` (R141, R84): the two discriminators stay in the interface and are
ignored. -/
def translateAddr (a : Word) (_halt _exe : Bool) : Place := classify a

/-- The region rows of `opcode_table.json` (R101). -/
inductive RegionRow where
  | ramLow
  | denied
  | ioA
  | ioB
  | ioC
  | ioD
  | winRam
  | rom
  | ramTop
  deriving DecidableEq, Repr

/-- Does the address match a row's mask and match value (R101)? -/
def maskMatch (a mask value : Word) : Bool := (a &&& mask) == value

/-- The region row of an address: R101's rows in order, by mask and match where the row has them, else by bounds. -/
def regionRow (a : Word) : RegionRow :=
  if maskMatch a 0xC000#16 0x0000#16 then .ramLow
  else if maskMatch a 0xC000#16 0x4000#16 then .denied
  else if maskMatch a 0xFFF8#16 0xE800#16 then .ioA
  else if maskMatch a 0xFFF8#16 0xE810#16 then .ioB
  else if maskMatch a 0xFFFE#16 0xE81A#16 || maskMatch a 0xFFFE#16 0xE81C#16 then .ioC
  else if maskMatch a 0xFF80#16 0xEA00#16 then .ioD
  else if maskMatch a 0xFC00#16 0xE800#16 then .winRam
  else if a.toNat < 0xF9B6 then .rom
  else .ramTop

/-! ### The port map (R8, R102, R170) -/

/-- The registers behind the ports (R102). -/
inductive PortReg where
  | lcdAddr
  | lcdConf
  | lcdIndex
  | sndCtl
  | sndReload
  | envReload
  | extData
  | extCs
  | extCmd
  deriving DecidableEq, Repr

/-- PORTMAP (R8): the register at an even I/O address; `none` is unassigned. -/
def portMap (c : Config) (e : Word) : Option PortReg :=
  if e = c.aLcdAddr0 then some .lcdAddr
  else if e = c.aLcdAddr1 then some .lcdAddr
  else if e = c.aLcdConf0 then some .lcdConf
  else if e = c.aLcdConf1 then some .lcdConf
  else if e = c.aLcdIndex then some .lcdIndex
  else if e = c.aExtData then some .extData
  else if e = c.aExtCs then some .extCs
  else if e = c.aExtCmd then some .extCmd
  else if e = c.aSndCtl then some .sndCtl
  else if e = c.aSndReload then some .sndReload
  else if e = c.aEnvReload then some .envReload
  else none

/-- The address of an LCD address register's alias (R175, R176). -/
def lcdAddrPort (c : Config) : AliasIx → Word
  | .a0 => c.aLcdAddr0
  | .a1 => c.aLcdAddr1

/-- The address of an LCD config register's alias (R177, R178). -/
def lcdConfPort (c : Config) : AliasIx → Word
  | .a0 => c.aLcdConf0
  | .a1 => c.aLcdConf1

/-! ### The control word and the storage command byte (R103, R104, R106, R218) -/

/-- `dev`, bits 3:0 of a control word (R103). -/
def ctrlDev (v : Word) : BitVec 4 := v.extractLsb' 0 4

/-- `imask`, bit 5 of a control word (R103). -/
def ctrlImask (v : Word) : Bool := v.getLsbD 5

/-- The control word with the given bits 15:4 and device nibble (R103). -/
def ctrlWord (hi : BitVec 12) (dev : BitVec 4) : Word := hi ++ dev

/-- What a data read is routed to (R218). -/
inductive ReadTarget where
  | slot (sl : SlotIx)
  | keyboard
  | nothing
  deriving DecidableEq, Repr

/-- `ReadTarget(dev)` (R218). -/
def readTarget (dev : BitVec 4) : ReadTarget :=
  if dev = 0#4 then .slot .s0
  else if dev = 1#4 then .slot .s1
  else if dev = 2#4 then .keyboard
  else .nothing

/-- `WriteTarget(dev)` (R218). -/
def writeTarget (dev : BitVec 4) : Option SlotIx :=
  if dev = 8#4 then some .s0
  else if dev = 9#4 then some .s1
  else none

/-- A device nibble outside {0, 1, 2, 8, 9} (R118). -/
def devMalformed (dev : BitVec 4) : Bool :=
  !(dev == 0#4 || dev == 1#4 || dev == 2#4 || dev == 8#4 || dev == 9#4)

/-- The storage operations a command byte's top nibble selects (R106). -/
inductive SmpOp where
  | rdDec
  | rdInc
  | wrAddr
  | wr20
  | wrC0
  | wrE0
  | undef
  deriving DecidableEq, Repr

/-- `op`, bits 7:4 of a command byte (R106). -/
def cmdNibble (c : Byte) : BitVec 4 := c.extractLsb' 4 4

/-- The command byte with the given nibbles (R106). -/
def cmdByte (op low : BitVec 4) : Byte := op ++ low

/-- The operation of a top nibble (R106, R119; the polarity of 0x1 and 0xD is D19's). -/
def smpOp (op : BitVec 4) : SmpOp :=
  if op = 0x1#4 then .rdDec
  else if op = 0xD#4 then .rdInc
  else if op = 0xA#4 then .wrAddr
  else if op = 0x2#4 then .wr20
  else if op = 0xC#4 then .wrC0
  else if op = 0xE#4 then .wrE0
  else .undef

/-- Cursor assembly (R113, R259): one data byte shifts in from below. -/
def cursorShift (cursor mask : Word24) (b : Byte) : Word24 := ((cursor <<< 8) ||| b.setWidth 24) &&& mask

/-- The mask chosen at attach time (R251, R265). -/
def maskForSize (n : Nat) : Word24 := if n > 65536 then 0xFFFFFF#24 else 0xFFFF#24

/-! ### Sound and scheduler arithmetic (R107, R114 to R116) -/

/-- `octave` (R30, R107). -/
def octave (c : Config) (ctl : Word) : Nat := field ctl c.octaveLsb 3

/-- `volume` (R30, R107). -/
def volume (c : Config) (ctl : Word) : Nat := field ctl c.volumeLsb 2

/-- `gen50` (R30, R107). -/
def gen50 (c : Config) (ctl : Word) : Bool := ctl.getLsbD c.gen50Bit

/-- `audio_period` (R114, R284): both divisions floor. -/
def audioPeriod (c : Config) : Nat := audioNum / (c.sampleRate / framesPerSec)

/-- The sound level for a volume of 1 to 3 (R115). -/
def soundLevel (vol : Nat) : Word := levelBase >>> (3 - vol)

/-- The prescaler's reload value `1 << octave` (R116, R285). -/
def prescalerReload (oct : Nat) : Byte := 1#8 <<< oct

/-! ### Parameters that are functions (R8; log 5) -/

/-- CTRL_WRITE_ENDS(old, new) (R8, R211). -/
def ctrlWriteEnds (c : Config) (old new : Word) : Bool :=
  c.ctrlWriteEnds.any fun k => maskMatch old k.oldMask k.oldMatch && maskMatch new k.newMask k.newMatch

/-- RAM_BANK_BASE(bank) (R8, R322). The spec gives `bank` no type: that it is a u16 is the model's DESIGN CHOICE (log 37). -/
def ramBankBase (c : Config) (bank : Word) : Nat :=
  match c.ramBankTable.find? (fun p => p.1 == bank) with
  | some p => p.2
  | none => bank.toNat * c.ramBankStride

/-! ### Snapshot constants (R8, D31; log 21) -/

/-- SNAP_MAGIC1: the configuration's value, or, where it gives none, a free value. -/
def snapMagic1 (c : Config) : Word32 := c.snapMagic1.getD Config.openSnapMagic1
/-- SNAP_MAGIC2, in the same way. -/
def snapMagic2 (c : Config) : Word32 := c.snapMagic2.getD Config.openSnapMagic2
/-- SNAP_VERSION, in the same way. -/
def snapVersion (c : Config) : Word32 := c.snapVersion.getD Config.openSnapVersion

/-! ### The constraints on a configuration (R8) -/

/-- The eleven port addresses (R8). -/
def portAddrs (c : Config) : List Word :=
  [c.aLcdAddr0, c.aLcdAddr1, c.aLcdConf0, c.aLcdConf1, c.aLcdIndex, c.aExtData, c.aExtCs, c.aExtCmd, c.aSndCtl,
   c.aSndReload, c.aEnvReload]

/-- No two entries of a list of addresses are equal. -/
def allDistinct : List Word → Bool
  | [] => true
  | a :: as => !as.contains a && allDistinct as

/-- Constraint P (R8): even, inside the I/O sub-ranges, pairwise distinct. -/
def portsValid (c : Config) : Bool :=
  (portAddrs c).all (fun a => !a.getLsbD 0 && isIo a) && allDistinct (portAddrs c)

/-- Exactly one bit of the word is set. -/
def oneBit (w : Word) : Bool := (List.range 16).any fun i => w == 1#16 <<< i

/-- The three status parameters: STATUS_DESEL is one bit, the other two are disjoint from it (R8). -/
def statusValid (c : Config) : Bool :=
  oneBit c.statusDesel && (c.statusFixed &&& c.statusDesel) == 0#16 && (c.statusCtrlMask &&& c.statusDesel) == 0#16

/-- The three fields of the sound control word lie inside it and do not overlap (R8). -/
def soundFieldsValid (c : Config) : Bool :=
  decide (c.octaveLsb ≤ 13) && decide (c.volumeLsb ≤ 14) && decide (c.gen50Bit ≤ 15) &&
  (decide (c.octaveLsb + 3 ≤ c.volumeLsb) || decide (c.volumeLsb + 2 ≤ c.octaveLsb)) &&
  (decide (c.octaveLsb + 3 ≤ c.gen50Bit) || decide (c.gen50Bit < c.octaveLsb)) &&
  (decide (c.volumeLsb + 2 ≤ c.gen50Bit) || decide (c.gen50Bit < c.volumeLsb))

/-- The bounds on SAMPLE_RATE (R284, U12). -/
def sampleRateValid (c : Config) : Bool :=
  decide (framesPerSec ≤ c.sampleRate) && decide (c.sampleRate / framesPerSec ≤ audioNum)

/-- Every constraint of R8 that is on the configuration alone. -/
def configValid (c : Config) : Bool :=
  portsValid c && statusValid c && soundFieldsValid c && sampleRateValid c && decide (2 ≤ c.bpN) &&
  c.configIds.contains c.basic10

end Sys2Proof.Machine
end

