-- ==== Sys2Proof/Decode.lean ====
section
/-!
DEFINITION. The decoder and the encoder of stimuli, one layout for each format of `30_encoding.md`. The bits the table
gives a row come first, least significant byte first; the operands the table gives no bits follow (log 2). Formats BUS
and EVT have no bits in the spec (R108): their layouts are the model's (DESIGN CHOICE, log 2).
-/
namespace Sys2Proof
open Machine

/-- What decoding a stimulus gives. -/
inductive Decoded where
  | instr (i : Instr)
  /-- `CPU.SetPC(v)`, the host's call on the CPU; no operation of the opcode table (R5, R11; log 36). -/
  | setPc (v : Word)
  | reject (why : Reject)
  deriving DecidableEq, Repr

/-! ### Operand bytes -/

/-- A boolean operand as a byte. -/
def boolByte (b : Bool) : Byte := if b then 1#8 else 0#8

/-- The boolean an operand byte stands for. -/
def boolOfByte (b : Byte) : Option Bool := if b = 0#8 then some false else if b = 1#8 then some true else none

/-- A slot operand as a byte. -/
def slotByte : SlotIx → Byte
  | .s0 => 0#8
  | .s1 => 1#8

/-- The slot an operand byte stands for; the slots are 0 and 1 (R251, U17). -/
def slotOfByte (b : Byte) : Option SlotIx := if b = 0#8 then some .s0 else if b = 1#8 then some .s1 else none

/-- A registry array as a byte. -/
def arrayByte : BpArray → Byte
  | .breaks => 0#8
  | .watches => 1#8

/-- The registry array an operand byte stands for. -/
def arrayOfByte (b : Byte) : Option BpArray :=
  if b = 0#8 then some .breaks else if b = 1#8 then some .watches else none

/-- A list of words as bytes, each low byte first (R74). -/
def bytesOfWords : List Word → List Byte
  | [] => []
  | w :: ws => lo8 w :: hi8 w :: bytesOfWords ws

/-- The words a list of bytes holds; an odd byte left over is no word. -/
def wordsOfBytes : List Byte → Option (List Word)
  | [] => some []
  | [_] => none
  | l :: h :: bs =>
    match wordsOfBytes bs with
    | some ws => some (word16 h l :: ws)
    | none => none

/-- An instruction, or a rejected operand. -/
def ofOption : Option Instr → Decoded
  | some i => .instr i
  | none => .reject .operand

/-! ### ADDR16 (R100, R101): address low, address high, flags (bit 0 haltMode, bit 1 forExecution) -/

/-- The region operation of an address. -/
def regionInstr (a : Word) (halt exe : Bool) : Instr :=
  match regionRow a with
  | .ramLow => .ramLow a halt exe
  | .denied => .denied a halt exe
  | .ioA => .ioA a halt exe
  | .ioB => .ioB a halt exe
  | .ioC => .ioC a halt exe
  | .ioD => .ioD a halt exe
  | .winRam => .winRam a halt exe
  | .rom => .rom a halt exe
  | .ramTop => .ramTop a halt exe

/-- The two discriminators as a byte. -/
def flagByte (halt exe : Bool) : Byte := boolByte halt ||| (boolByte exe <<< 1)

def decodeAddr16 : List Byte → Decoded
  | [l, h, f] =>
    if f.toNat < 4 then .instr (regionInstr (word16 h l) (f.getLsbD 0) (f.getLsbD 1)) else .reject .operand
  | _ => .reject .length

/-! ### BUS (R142): operation, address low, address high, data low, data high, haltMode -/

def decodeBusOp (op : Nat) (a : Word) (vl vh : Byte) (halt : Bool) : Decoded :=
  match op with
  | 0 => if vl = 0#8 ∧ vh = 0#8 then .instr (.rdw a halt) else .reject .operand
  | 1 => if vl = 0#8 ∧ vh = 0#8 then .instr (.rdb a halt) else .reject .operand
  | 2 => .instr (.wrw a (word16 vh vl) halt)
  | 3 => if vh = 0#8 then .instr (.wrb a vl halt) else .reject .operand
  | 4 => if vl = 0#8 ∧ vh = 0#8 then .instr (.fetch a halt) else .reject .operand
  | 5 => if vl = 0#8 ∧ vh = 0#8 ∧ halt = false then .instr (.viewW a) else .reject .operand
  | 6 => if vl = 0#8 ∧ vh = 0#8 ∧ halt = false then .instr (.viewB a) else .reject .operand
  | _ => .reject .operation

def decodeBus : List Byte → Decoded
  | [op, al, ah, vl, vh, f] =>
    match boolOfByte f with
    | some halt => decodeBusOp op.toNat (word16 ah al) vl vh halt
    | none => .reject .operand
  | _ => .reject .length

/-! ### PORT (R102): address low, address high, access (0 read, 1 write, 2 byte read, 3 byte write), data low, data
high. Bit 0 of an assigned port's address is ignored (the rows' mask is 0xFFFE). -/

/-- Which alias of the LCD address register an address is. -/
def lcdAddrAlias (c : Config) (e : Word) : AliasIx := if e = c.aLcdAddr0 then .a0 else .a1

/-- Which alias of the LCD config register an address is. -/
def lcdConfAlias (c : Config) (e : Word) : AliasIx := if e = c.aLcdConf0 then .a0 else .a1

/-- The read of a port register. -/
def portReadInstr (c : Config) (e : Word) : PortReg → Instr
  | .lcdAddr => .lcdAddrR (lcdAddrAlias c e)
  | .lcdConf => .lcdConfR (lcdConfAlias c e)
  | .lcdIndex => .lcdIndexR
  | .sndCtl => .sndCtlR
  | .sndReload => .sndReloadR
  | .envReload => .envReloadR
  | .extData => .extDataR
  | .extCs => .extCsR
  | .extCmd => .extCmdR

/-- The write of a port register. -/
def portWriteInstr (c : Config) (e v : Word) : PortReg → Instr
  | .lcdAddr => .lcdAddrW (lcdAddrAlias c e) v
  | .lcdConf => .lcdConfW (lcdConfAlias c e) v
  | .lcdIndex => .lcdIndexW v
  | .sndCtl => .sndCtlW v
  | .sndReload => .sndReloadW v
  | .envReload => .envReloadW v
  | .extData => .extDataW v
  | .extCs => .extCsW v
  | .extCmd => .extCmdW v

def decodePortAccess (acc : Nat) (vl vh : Byte) : Option PortAccess :=
  match acc with
  | 0 => if vl = 0#8 ∧ vh = 0#8 then some .readWord else none
  | 1 => some (.writeWord (word16 vh vl))
  | 2 => if vl = 0#8 ∧ vh = 0#8 then some .readByte else none
  | 3 => if vh = 0#8 then some (.writeByte vl) else none
  | _ => none

/-- A port operation on an assigned register: word accesses only, byte accesses are bus transactions (R173, R174). -/
def assignedPortInstr (c : Config) (e : Word) (r : PortReg) : PortAccess → Option Instr
  | .readWord => some (portReadInstr c e r)
  | .writeWord v => some (portWriteInstr c e v r)
  | .readByte => none
  | .writeByte _ => none

def decodePort (c : Config) : List Byte → Decoded
  | [al, ah, acc, vl, vh] =>
    if isIo (word16 ah al) then
      match decodePortAccess acc.toNat vl vh with
      | none => .reject .operand
      | some pa =>
        match portMap c (evenAddr (word16 ah al)) with
        | some r => ofOption (assignedPortInstr c (evenAddr (word16 ah al)) r pa)
        | none => .instr (.portUnassigned (word16 ah al) pa)
    else .reject .notIo
  | _ => .reject .length

/-! ### CTRL16 (R103, R104): the control word, low byte first -/

/-- The device select of a control word. -/
def devInstr (hi : BitVec 12) (dev : BitVec 4) : Instr :=
  if dev = 0#4 then .devSmp0Rd hi
  else if dev = 1#4 then .devSmp1Rd hi
  else if dev = 2#4 then .devKbdRd hi
  else if dev = 8#4 then .devSmp0Wr hi
  else if dev = 9#4 then .devSmp1Wr hi
  else .devNone hi dev

/-- Bits 15:4 of a control word. -/
def ctrlHigh (v : Word) : BitVec 12 := v.extractLsb' 4 12

def decodeCtrl16 : List Byte → Decoded
  | [l, h] => .instr (devInstr (ctrlHigh (word16 h l)) (ctrlDev (word16 h l)))
  | _ => .reject .length

/-! ### SMPCMD8 (R106): the command byte, then the slot (bit 0) and the next access (bits 2:1: 0 none, 1 read, 2 write)
in one byte, then the byte written -/

/-- The storage command of a command byte. -/
def smpInstr (c : Byte) (sl : SlotIx) (nx : NextAccess) : Instr :=
  match smpOp (cmdNibble c) with
  | .rdDec => .smpRdDec (c.extractLsb' 0 4) sl nx
  | .rdInc => .smpRdInc (c.extractLsb' 0 4) sl nx
  | .wrAddr => .smpWrAddr (c.extractLsb' 0 4) sl nx
  | .wr20 => .smpWr20 (c.extractLsb' 0 4) sl nx
  | .wrC0 => .smpWrC0 (c.extractLsb' 0 4) sl nx
  | .wrE0 => .smpWrE0 (c.extractLsb' 0 4) sl nx
  | .undef => .smpUndef (cmdNibble c) (c.extractLsb' 0 4) sl nx

/-- The slot and next access as a byte. -/
def nextByte : SlotIx → NextAccess → Byte
  | .s0, .none => 0#8
  | .s1, .none => 1#8
  | .s0, .read => 2#8
  | .s1, .read => 3#8
  | .s0, .write _ => 4#8
  | .s1, .write _ => 5#8

/-- The byte a next access writes, 0 where it writes none. -/
def nextData : NextAccess → Byte
  | .none => 0#8
  | .read => 0#8
  | .write b => b

def decodeSmp (c b : Byte) (sel : Nat) : Decoded :=
  match sel with
  | 0 => if b = 0#8 then .instr (smpInstr c .s0 .none) else .reject .operand
  | 1 => if b = 0#8 then .instr (smpInstr c .s1 .none) else .reject .operand
  | 2 => if b = 0#8 then .instr (smpInstr c .s0 .read) else .reject .operand
  | 3 => if b = 0#8 then .instr (smpInstr c .s1 .read) else .reject .operand
  | 4 => .instr (smpInstr c .s0 (.write b))
  | 5 => .instr (smpInstr c .s1 (.write b))
  | _ => .reject .operand

def decodeSmpcmd8 : List Byte → Decoded
  | [c, sel, b] => decodeSmp c b sel.toNat
  | _ => .reject .length

/-! ### EVT (R108, R120): a number for the name (its place among the table's EVT rows), then the operands -/

def decodeNoOperand (i : Instr) : List Byte → Decoded
  | [] => .instr i
  | _ => .reject .length

def decodeSlot (f : SlotIx → Instr) : List Byte → Decoded
  | [s] => ofOption ((slotOfByte s).map f)
  | _ => .reject .length

def decodeSlotByte (f : SlotIx → Byte → Instr) : List Byte → Decoded
  | [s, b] => ofOption ((slotOfByte s).map fun sl => f sl b)
  | _ => .reject .length

def decodeWord (f : Word → Instr) : List Byte → Decoded
  | [l, h] => .instr (f (word16 h l))
  | _ => .reject .length

def decodeLoadRam : List Byte → Decoded
  | l :: h :: buf => .instr (.loadRam (word16 h l) buf)
  | _ => .reject .length

def decodeKey : List Byte → Decoded
  | [sc, p] => ofOption ((boolOfByte p).map fun b => .key sc b)
  | _ => .reject .length

/-- ATTACH: the slot, then 0 for an unopenable file or 1 and the file's bytes (R251). -/
def decodeAttach : List Byte → Decoded
  | s :: k :: img =>
    match slotOfByte s with
    | none => .reject .operand
    | some sl =>
      if k = 1#8 then .instr (.attach sl (some img))
      else if k = 0#8 ∧ img = [] then .instr (.attach sl none)
      else .reject .operand
  | _ => .reject .length

/-- SETSOUNDCB: 0 for none, or 1 and the callback's handle (R324). -/
def decodeSoundCb : List Byte → Decoded
  | [k] => if k = 0#8 then .instr (.setSoundCb none) else .reject .operand
  | [k, l, h] => if k = 1#8 then .instr (.setSoundCb (some (word16 h l))) else .reject .operand
  | _ => .reject .length

def decodeSetSound : List Byte → Decoded
  | [b] => ofOption ((boolOfByte b).map Instr.setSound)
  | _ => .reject .length

/-- SETBP: 0 null, 1 the registry's array, 2 an array given by its words (R326). -/
def decodeSetBp : List Byte → Decoded
  | k :: bs =>
    if k = 0#8 ∧ bs = [] then .instr (.setBp .null)
    else if k = 1#8 ∧ bs = [] then .instr (.setBp .registry)
    else if k = 2#8 then ofOption ((wordsOfBytes bs).map fun ws => .setBp (.listed ws))
    else .reject .operand
  | _ => .reject .length

def decodeArrayWord (f : BpArray → Word → Instr) : List Byte → Decoded
  | [k, l, h] => ofOption ((arrayOfByte k).map fun arr => f arr (word16 h l))
  | _ => .reject .length

def decodeArray (f : BpArray → Instr) : List Byte → Decoded
  | [k] => ofOption ((arrayOfByte k).map f)
  | _ => .reject .length

def decodeEvtOp (op : Nat) (bs : List Byte) : Decoded :=
  match op with
  | 0 => decodeSlotByte .slotWrCmd bs
  | 1 => decodeSlot .slotRdData bs
  | 2 => decodeSlotByte .slotWrData bs
  | 3 => decodeNoOperand .cpuExec bs
  | 4 => decodeNoOperand .bpChk bs
  | 5 => decodeNoOperand .tTick bs
  | 6 => decodeNoOperand .tick50 bs
  | 7 => decodeNoOperand .doSound bs
  | 8 => decodeNoOperand .frame bs
  | 9 => decodeNoOperand .reset bs
  | 10 => .instr (.loadRom bs)
  | 11 => decodeLoadRam bs
  | 12 => decodeWord .setConfig bs
  | 13 => decodeKey bs
  | 14 => decodeAttach bs
  | 15 => decodeSlot .detach bs
  | 16 => decodeSlot .isAtt bs
  | 17 => decodeSoundCb bs
  | 18 => decodeSetSound bs
  | 19 => decodeSetBp bs
  | 20 => decodeNoOperand .save bs
  | 21 => .instr (.load bs)
  | 22 => decodeNoOperand .video bs
  | 23 => decodeArrayWord .bpAdd bs
  | 24 => decodeArrayWord .bpRemove bs
  | 25 => decodeWord .bpSetTemp bs
  | 26 => decodeArray .bpClearAll bs
  | _ => .reject .operation

def decodeEvt : List Byte → Decoded
  | op :: bs => decodeEvtOp op.toNat bs
  | [] => .reject .length

/-! ### CPU (R5, R11; log 36): the host's call `CPU.SetPC(v)`, the word low byte first -/

def decodeCpu : List Byte → Decoded
  | [l, h] => .setPc (word16 h l)
  | _ => .reject .length

/-- The stimulus of `CPU.SetPC(v)`. -/
def encodeSetPc (v : Word) : Stimulus := ⟨.cpu, [lo8 v, hi8 v]⟩

/-! ### The decoder -/

/-- The operation a stimulus encodes under a configuration (the port map is the configuration's). -/
def decode (c : Config) (st : Stimulus) : Decoded :=
  match st.fmt with
  | .addr16 => decodeAddr16 st.bytes
  | .bus => decodeBus st.bytes
  | .port => decodePort c st.bytes
  | .ctrl16 => decodeCtrl16 st.bytes
  | .smpcmd8 => decodeSmpcmd8 st.bytes
  | .evt => decodeEvt st.bytes
  | .cpu => decodeCpu st.bytes

/-! ### A word of the opcode table, without its format (log 3)

The table's 16-bit formats overlap, so a word alone does not say its format. The row with the most fixed bits is taken:
the port rows (mask 0xFFFE), then the port window (0xFC00), then the device selects (0x000F). Operand bytes are 0. -/

def tableFormat (w : Word) : Format :=
  if isIo w then .port else if inWindow w then .addr16 else .ctrl16

/-- The bytes of a 16-bit table word in a format: low byte first, operand bytes 0. -/
def tableBytes (w : Word) : Format → List Byte
  | .port => [lo8 w, hi8 w, 0#8, 0#8, 0#8]
  | .addr16 => [lo8 w, hi8 w, 0#8]
  | _ => [lo8 w, hi8 w]

/-- The stimulus of `nbits` table bits `w`: 8 bits are a storage command byte, 16 bits a word. -/
def tableStimulus (nbits w : Nat) : Stimulus :=
  if nbits = 8 then ⟨.smpcmd8, [BitVec.ofNat 8 w, 0#8, 0#8]⟩
  else if nbits = 16 then ⟨tableFormat (BitVec.ofNat 16 w), tableBytes (BitVec.ofNat 16 w) (tableFormat (BitVec.ofNat 16 w))⟩
  else ⟨.evt, []⟩

/-- The instruction the decoder reads from a word of the opcode table, under REFCFG. -/
def decodeTableWord (nbits w : Nat) : Option Instr :=
  match decode Config.refcfg (tableStimulus nbits w) with
  | .instr i => some i
  | .setPc _ => none
  | .reject _ => none

/-! ### The encoder -/

def encRegion (a : Word) (halt exe : Bool) : Stimulus := ⟨.addr16, [lo8 a, hi8 a, flagByte halt exe]⟩

def encBus (op : Byte) (a v : Word) (halt : Bool) : Stimulus :=
  ⟨.bus, [op, lo8 a, hi8 a, lo8 v, hi8 v, boolByte halt]⟩

def encPortR (e : Word) : Stimulus := ⟨.port, [lo8 e, hi8 e, 0#8, 0#8, 0#8]⟩

def encPortW (e v : Word) : Stimulus := ⟨.port, [lo8 e, hi8 e, 1#8, lo8 v, hi8 v]⟩

/-- The access byte and the data bytes of an access to an unassigned port. -/
def encPortAccess : PortAccess → List Byte
  | .readWord => [0#8, 0#8, 0#8]
  | .writeWord v => [1#8, lo8 v, hi8 v]
  | .readByte => [2#8, 0#8, 0#8]
  | .writeByte b => [3#8, b, 0#8]

def encCtrl (hi : BitVec 12) (dev : BitVec 4) : Stimulus :=
  ⟨.ctrl16, [lo8 (ctrlWord hi dev), hi8 (ctrlWord hi dev)]⟩

def encSmp (op low : BitVec 4) (sl : SlotIx) (nx : NextAccess) : Stimulus :=
  ⟨.smpcmd8, [cmdByte op low, nextByte sl nx, nextData nx]⟩

def encEvt (op : Byte) (bs : List Byte) : Stimulus := ⟨.evt, op :: bs⟩

/-- The operand bytes of ATTACH after the slot. -/
def encImage : Option (List Byte) → List Byte
  | none => [0#8]
  | some img => 1#8 :: img

/-- The operand bytes of SETSOUNDCB. -/
def encSoundCb : Option Word → List Byte
  | none => [0#8]
  | some h => [1#8, lo8 h, hi8 h]

/-- The operand bytes of SETBP. -/
def encBpRef : BpRef → List Byte
  | .null => [0#8]
  | .registry => [1#8]
  | .listed ws => 2#8 :: bytesOfWords ws

/-- The stimulus that encodes an operation under a configuration. -/
def encode (c : Config) : Instr → Stimulus
  | .ramLow a halt exe => encRegion a halt exe
  | .denied a halt exe => encRegion a halt exe
  | .ioA a halt exe => encRegion a halt exe
  | .ioB a halt exe => encRegion a halt exe
  | .ioC a halt exe => encRegion a halt exe
  | .ioD a halt exe => encRegion a halt exe
  | .winRam a halt exe => encRegion a halt exe
  | .rom a halt exe => encRegion a halt exe
  | .ramTop a halt exe => encRegion a halt exe
  | .rdw a halt => encBus 0#8 a 0#16 halt
  | .rdb a halt => encBus 1#8 a 0#16 halt
  | .wrw a v halt => encBus 2#8 a v halt
  | .wrb a v halt => encBus 3#8 a (zext16 v) halt
  | .fetch a halt => encBus 4#8 a 0#16 halt
  | .viewW a => encBus 5#8 a 0#16 false
  | .viewB a => encBus 6#8 a 0#16 false
  | .lcdAddrR p => encPortR (lcdAddrPort c p)
  | .lcdAddrW p v => encPortW (lcdAddrPort c p) v
  | .lcdConfR p => encPortR (lcdConfPort c p)
  | .lcdConfW p v => encPortW (lcdConfPort c p) v
  | .extDataR => encPortR c.aExtData
  | .extDataW v => encPortW c.aExtData v
  | .extCsR => encPortR c.aExtCs
  | .extCsW v => encPortW c.aExtCs v
  | .extCmdR => encPortR c.aExtCmd
  | .extCmdW v => encPortW c.aExtCmd v
  | .sndCtlR => encPortR c.aSndCtl
  | .sndCtlW v => encPortW c.aSndCtl v
  | .sndReloadR => encPortR c.aSndReload
  | .sndReloadW v => encPortW c.aSndReload v
  | .envReloadR => encPortR c.aEnvReload
  | .envReloadW v => encPortW c.aEnvReload v
  | .lcdIndexR => encPortR c.aLcdIndex
  | .lcdIndexW v => encPortW c.aLcdIndex v
  | .portUnassigned a acc => ⟨.port, lo8 a :: hi8 a :: encPortAccess acc⟩
  | .devSmp0Rd hi => encCtrl hi 0#4
  | .devSmp1Rd hi => encCtrl hi 1#4
  | .devKbdRd hi => encCtrl hi 2#4
  | .devSmp0Wr hi => encCtrl hi 8#4
  | .devSmp1Wr hi => encCtrl hi 9#4
  | .devNone hi dev => encCtrl hi dev
  | .smpRdDec low sl nx => encSmp 0x1#4 low sl nx
  | .smpRdInc low sl nx => encSmp 0xD#4 low sl nx
  | .smpWrAddr low sl nx => encSmp 0xA#4 low sl nx
  | .smpWr20 low sl nx => encSmp 0x2#4 low sl nx
  | .smpWrC0 low sl nx => encSmp 0xC#4 low sl nx
  | .smpWrE0 low sl nx => encSmp 0xE#4 low sl nx
  | .smpUndef op low sl nx => encSmp op low sl nx
  | .slotWrCmd sl b => encEvt 0#8 [slotByte sl, b]
  | .slotRdData sl => encEvt 1#8 [slotByte sl]
  | .slotWrData sl b => encEvt 2#8 [slotByte sl, b]
  | .cpuExec => encEvt 3#8 []
  | .bpChk => encEvt 4#8 []
  | .tTick => encEvt 5#8 []
  | .tick50 => encEvt 6#8 []
  | .doSound => encEvt 7#8 []
  | .frame => encEvt 8#8 []
  | .reset => encEvt 9#8 []
  | .loadRom img => encEvt 10#8 img
  | .loadRam bank buf => encEvt 11#8 (lo8 bank :: hi8 bank :: buf)
  | .setConfig id => encEvt 12#8 [lo8 id, hi8 id]
  | .key sc p => encEvt 13#8 [sc, boolByte p]
  | .attach sl img => encEvt 14#8 (slotByte sl :: encImage img)
  | .detach sl => encEvt 15#8 [slotByte sl]
  | .isAtt sl => encEvt 16#8 [slotByte sl]
  | .setSoundCb cb => encEvt 17#8 (encSoundCb cb)
  | .setSound on => encEvt 18#8 [boolByte on]
  | .setBp set => encEvt 19#8 (encBpRef set)
  | .save => encEvt 20#8 []
  | .load img => encEvt 21#8 img
  | .video => encEvt 22#8 []
  | .bpAdd arr a => encEvt 23#8 [arrayByte arr, lo8 a, hi8 a]
  | .bpRemove arr a => encEvt 24#8 [arrayByte arr, lo8 a, hi8 a]
  | .bpSetTemp a => encEvt 25#8 [lo8 a, hi8 a]
  | .bpClearAll arr => encEvt 26#8 [arrayByte arr]

end Sys2Proof
end

