-- ==== Sys2Proof/Machine/Flags.lean ====
section
/-!
DEFINITION. The block's one flag-like value: the status word synthesized on a read of A_EXT_CS (R40, R105, R216). The
block has no flags register and no condition codes (R20).
-/
namespace Sys2Proof.Machine

/-- The "deselected" flag bit (R105): STATUS_DESEL while Idle, 0 while Selected. -/
def deselFlag (c : Config) (selected : Bool) : Word := if selected then 0#16 else c.statusDesel

/-- STATUS16 (R105): the fixed pattern, the low control bits, the deselected flag. -/
def statusWord (c : Config) (x : ExtDev) : Word :=
  c.statusFixed ||| (x.control &&& c.statusCtrlMask) ||| deselFlag c x.selected

end Sys2Proof.Machine
end

