-- ==== Sys2Proof/Machine/Memory.lean ====
section
/-!
DEFINITION. Memory arrays as canonical lists of (index, byte) pairs (R71; log 7).
-/
namespace Sys2Proof.Machine

/-- The listed byte at an index. -/
def Memory.lookup : Memory → Nat → Option Byte
  | [], _ => none
  | (k, v) :: m, i => if k = i then some v else Memory.lookup m i

/-- Lists a byte at an index, in its place in the order. -/
def Memory.set : Memory → Nat → Byte → Memory
  | [], i, b => [(i, b)]
  | (k, v) :: m, i, b =>
    if i < k then (i, b) :: (k, v) :: m
    else if i = k then (i, b) :: m
    else (k, v) :: Memory.set m i b

/-- Lists a run of bytes from an index up. -/
def Memory.setBytes : Memory → Nat → List Byte → Memory
  | m, _, [] => m
  | m, i, b :: bs => Memory.setBytes (m.set i b) (i + 1) bs

/-- The memory that holds exactly a run of bytes from an index up. -/
def Memory.ofBytes : Nat → List Byte → Memory
  | _, [] => []
  | i, b :: bs => (i, b) :: Memory.ofBytes (i + 1) bs

/-- Indices at least `lo` and below `hi`, strictly rising. -/
def Memory.rising (lo hi : Nat) : Memory → Bool
  | [] => true
  | (k, _) :: m => decide (lo ≤ k) && decide (k < hi) && Memory.rising (k + 1) hi m

/-- The canonical form of an array of `size` cells: indices strictly rising and inside the array. -/
def Memory.wf (size : Nat) (m : Memory) : Bool := Memory.rising 0 size m

/-- A byte of an array, where `init` gives the power-on contents of the cells nothing has written. -/
def Memory.byteAt (init : Nat → Byte) (m : Memory) (i : Nat) : Byte := (m.lookup i).getD (init i)

end Sys2Proof.Machine
end

