-- ==== Sys2Proof/Machine/Ops.lean ====
section
/-!
DEFINITION. The named operations over the state: the calls on the collaborators, the bus fault and the interrupt
requests (the block's whole side of taking an exception, R388), the memories, the slots, the free values.
-/
namespace Sys2Proof.Machine

/-! ### Output -/

/-- The block answers the stimulus. -/
def answered (a : Answer) (s : State) : State := { s with out := { s.out with answer := a } }

/-- The block makes a call on a collaborator. -/
def emit (g : Signal) (s : State) : State := { s with out := { s.out with signals := g :: s.out.signals } }

/-- One more free value has been drawn. -/
def drawn (s : State) : State := { s with out := { s.out with draws := s.out.draws + 1 } }

/-! ### Exceptions, the block's side (R370, R380, R388)

The block saves no state, switches no mode and changes no mask: an exception is one call on the CPU. There is no return
operation beside it: "there is no return-from-interrupt signal to the block" (R389). -/

/-- `raise BusFault` (R370): `CPU.MemoryError()` once, nothing else of the access performed. The log entry is R372's.
That the call itself leaves the CPU's program counter, mode bit and 32 bytes is the model's choice (log 38). -/
def raiseBusFault (cause : FaultCause) (acc : Access) (s : State) : State :=
  { s with out := { s.out with signals := .memoryError :: s.out.signals, faultLog := ⟨cause, acc⟩ :: s.out.faultLog } }

/-- `raise VIRQ(L, V)` (R11, R380): `CPU.InterruptVIRQ(L, V)` once. That the call itself leaves the CPU's
program counter, mode bit and 32 bytes is the model's choice (log 38). -/
def raiseVirq (level vector : Nat) (s : State) : State := emit (.interruptVirq level vector) s

/-- The keyboard interrupt KBD (R381). -/
def raiseKbd (s : State) : State := raiseVirq s.cfg.kbdLevel s.cfg.kbdVector s

/-- The device-complete interrupt EXT (R381). -/
def raiseExt (s : State) : State := raiseVirq s.cfg.extLevel s.cfg.extVector s

/-- The 50 Hz event EVNT (R381). -/
def raiseEvnt (s : State) : State := raiseVirq s.cfg.evntLevel s.cfg.evntVector s

/-! ### Memories -/

/-- `RAM[i]` (R23). -/
def ramByte (s : State) (i : Nat) : Byte := s.ram.byteAt Config.ramPowerOn i

/-- `ROM[i]` (R24). -/
def romByte (s : State) (i : Nat) : Byte := s.rom.byteAt Config.romPowerOn i

/-- The word `{RAM[o + 1], RAM[o]}` (R74). -/
def ramWord (s : State) (o : Nat) : Word := word16 (ramByte s (o + 1)) (ramByte s o)

/-- The word `{ROM[o + 1], ROM[o]}` (R74). -/
def romWord (s : State) (o : Nat) : Word := word16 (romByte s (o + 1)) (romByte s o)

/-- `RAM[i] <- b`. -/
def setRamByte (i : Nat) (b : Byte) (s : State) : State := { s with ram := s.ram.set i b }

/-- `RAM[o] <- lo8(v); RAM[o + 1] <- hi8(v)` (R145). -/
def setRamWord (o : Nat) (v : Word) (s : State) : State := setRamByte (o + 1) (hi8 v) (setRamByte o (lo8 v) s)

/-- The bytes `RAM[i .. i + n)`. -/
def ramBytes (s : State) (i n : Nat) : List Byte := (List.range n).map fun k => ramByte s (i + k)

/-- The bytes `ROM[i .. i + n)`. -/
def romBytes (s : State) (i n : Nat) : List Byte := (List.range n).map fun k => romByte s (i + k)

/-! ### Registers -/

/-- `lcd_addr <- v` and its siblings (R26 to R28, R30 to R32). -/
def setLcdAddr (v : Word) (s : State) : State := { s with lcd := { s.lcd with addr := v } }
def setLcdConf (v : Word) (s : State) : State := { s with lcd := { s.lcd with conf := v } }
def setLcdIndex (v : Word) (s : State) : State := { s with lcd := { s.lcd with index := v } }
def setSndCtl (v : Word) (s : State) : State := { s with snd := { s.snd with ctl := v } }
def setSndReload (v : Word) (s : State) : State := { s with snd := { s.snd with reload := v } }
def setEnvReload (v : Word) (s : State) : State := { s with snd := { s.snd with envReload := v } }

/-- `ext_shift <- b` (R38). -/
def setShift (b : Byte) (s : State) : State := { s with ext := { s.ext with shift := b } }

/-- `ext_selected <- b` (R39). -/
def setSelected (b : Bool) (s : State) : State := { s with ext := { s.ext with selected := b } }

/-! ### Slots -/

/-- `slot[s]` (R41). -/
def getSlot (s : State) : SlotIx → Slot
  | .s0 => s.slot0
  | .s1 => s.slot1

/-- Replaces `slot[s]`. -/
def setSlot (sl : SlotIx) (x : Slot) (s : State) : State :=
  match sl with
  | .s0 => { s with slot0 := x }
  | .s1 => { s with slot1 := x }

/-! ### Host actions are taken between frames -/

/-- A host action: refused while a FRAME runs (R87, R320, R433, U6). -/
def hostAction (s : State) (t : State) : Host.Outcome State Fault Refusal :=
  if s.frame.isSome then .refused .hostOverlap else .next t

end Sys2Proof.Machine
end

