-- ==== Sys2Proof/Machine/Breakpoints.lean ====
section
/-!
DEFINITION. The breakpoint registry and the watchpoint array (`45_host_operations.md` R340 to R346), and the meanings of
the BP operations, which are host actions, taken between frames only (R6, R14). An array is the list of its entries, newest last; the sentinels that pad it are left out (R340).
-/
namespace Sys2Proof.Machine

/-- No entry can be added: the set holds BP_N - 1 entries, so that a sentinel ends the array (R340). -/
def arrayFull (c : Config) (xs : List Word) : Bool := decide (c.bpN ≤ xs.length + 1)

/-- May `a` be added (R341)? -/
def mayAdd (c : Config) (xs : List Word) (a : Word) : Bool :=
  !(arrayFull c xs) && a != bpSentinel && !(xs.contains a)

/-- The array after `Add(a)` (R341). -/
def addEntry (c : Config) (xs : List Word) (a : Word) : List Word := if mayAdd c xs a then xs ++ [a] else xs

/-- Puts `z` in the place of the first `a`. -/
def replaceFirst (a z : Word) : List Word → List Word
  | [] => []
  | x :: xs => if x = a then z :: xs else x :: replaceFirst a z xs

/-- The array after `Remove(a)` (R342): the last entry takes the removed entry's place. -/
def removeEntry (xs : List Word) (a : Word) : List Word :=
  if xs.contains a then
    match xs.getLast? with
    | some z => if z = a then xs.dropLast else replaceFirst a z xs.dropLast
    | none => xs
  else xs

/-- The entries of one of the two arrays. -/
def getArray (r : Registry) : BpArray → List Word
  | .breaks => r.breaks
  | .watches => r.watches

/-- Replaces the entries of one of the two arrays. -/
def setArray (arr : BpArray) (xs : List Word) (s : State) : State :=
  match arr with
  | .breaks => { s with registry := { s.registry with breaks := xs } }
  | .watches => { s with registry := { s.registry with watches := xs } }

/-- The entries after the previous temporary breakpoint is removed (R343). -/
def withoutTemp (r : Registry) : List Word :=
  match r.temp with
  | some t => removeEntry r.breaks t
  | none => r.breaks

/-- `SetTemporary(a)` (R343). -/
def setTemporary (c : Config) (r : Registry) (a : Word) : Registry :=
  if mayAdd c (withoutTemp r) a then { r with breaks := withoutTemp r ++ [a], temp := some a }
  else { r with breaks := withoutTemp r, temp := none }

/-- `Clear-all` on one of the arrays (R345, R346). -/
def clearArray (arr : BpArray) (s : State) : State :=
  match arr with
  | .breaks => { s with registry := { s.registry with breaks := [], temp := none } }
  | .watches => { s with registry := { s.registry with watches := [] } }

/-! ### Meanings -/

/-- BP.ADD (R341, R346). -/
def execBpAdd (arr : BpArray) (a : Word) (s : State) : Host.Outcome State Fault Refusal :=
  hostAction s (answered (.bool (mayAdd s.cfg (getArray s.registry arr) a))
    (setArray arr (addEntry s.cfg (getArray s.registry arr) a) s))

/-- BP.REMOVE (R342, R346). -/
def execBpRemove (arr : BpArray) (a : Word) (s : State) : Host.Outcome State Fault Refusal :=
  hostAction s (answered (.bool ((getArray s.registry arr).contains a))
    (setArray arr (removeEntry (getArray s.registry arr) a) s))

/-- BP.SETTEMP (R343). -/
def execBpSetTemp (a : Word) (s : State) : Host.Outcome State Fault Refusal :=
  hostAction s (answered .done { s with registry := setTemporary s.cfg s.registry a })

/-- BP.CLEARALL (R345, R346). -/
def execBpClearAll (arr : BpArray) (s : State) : Host.Outcome State Fault Refusal :=
  hostAction s (answered .done (clearArray arr s))

end Sys2Proof.Machine
end

