-- ==== Sys2Proof/Machine/HostOps.lean ====
section
/-!
DEFINITION. RESET (`70_reset_and_hazards.md` R410) and the host's loading and configuration actions
(`45_host_operations.md` R321 to R327), with their meanings.
-/
namespace Sys2Proof.Machine

/-! ### RESET (R410) -/

/-- The CPU's own reset, delegated (R410, R412): what it leaves is free (log 11). -/
def cpuOwnReset (s : State) : State :=
  drawn (emit .cpuReset { s with cpu := { s.cpu with
      pc := Config.cpuResetPc s.out.draws
      halt := Config.cpuResetHalt s.out.draws
      image := Config.cpuResetImage s.out.draws } })

/-- The registers RESET writes in the block and in the host layer (R410). -/
def blockReset (s : State) : State :=
  { s with
    lcd := ⟨0#16, 0#16, 0#16⟩
    snd := ⟨0#16, 0#16, 0#16, 0#8, 0#16, 0#16⟩
    ext := ⟨0#16, 0#8, kbdIdle, false⟩
    uptime := 0 }

/-- `Reset()` (R410). -/
def boardReset (s : State) : State := cpuOwnReset (blockReset s)

/-- RESET (R410). -/
def execReset (s : State) : Host.Outcome State Fault Refusal := hostAction s (answered .done (boardReset s))

/-! ### CPU.SetPC (R5, R11) -/

/-- The CPU's program counter set by the host. What that makes of the CPU's 32 opaque bytes the spec does not say: they are
a free value; that the mode bit is kept is the model's choice (log 36). -/
def setCpuPc (v : Word) (s : State) : State :=
  { s with cpu := { s.cpu with pc := v, image := Config.cpuImageAfterSetPc s.cpu.image v } }

/-- `pc <- target`, "only as the host action `CPU.SetPC(target)`" (R11; log 36). -/
def hostSetPc (v : Word) (s : State) : Host.Outcome State Fault Refusal := hostAction s (answered .done (setCpuPc v s))

/-! ### Loading and configuration -/

/-- `ROM[i] <- img[i]` for every i (R321). -/
def loadRomImage (img : List Byte) (s : State) : State := { s with rom := Memory.ofBytes 0 img }

/-- LOADROM (R321): exactly 32768 bytes, else refused. -/
def execLoadRom (img : List Byte) (s : State) : Host.Outcome State Fault Refusal :=
  if img.length = romSize then hostAction s (answered .done (loadRomImage img s)) else .refused .badRomLength

/-- `RAM[base + i] <- buf[i]` (R322). -/
def loadRamBytes (base : Nat) (buf : List Byte) (s : State) : State := { s with ram := s.ram.setBytes base buf }

/-- LOADRAM (R322): past the end of RAM, refused. -/
def execLoadRam (bank : Word) (buf : List Byte) (s : State) : Host.Outcome State Fault Refusal :=
  if ramBankBase s.cfg bank + buf.length ≤ ramSize then
    hostAction s (answered .done (loadRamBytes (ramBankBase s.cfg bank) buf s))
  else .refused .ramPastEnd

/-- `config <- id` (R323), for an id of CONFIG_IDS. What an id outside it makes of `config` the spec does not say: it is a
free value (DESIGN CHOICE, log 39). -/
def setConfigId (id : Word) (s : State) : State :=
  if s.cfg.configIds.contains id then { s with config := id }
  else drawn { s with config := Config.otherConfig s.out.draws }

/-- SETCONFIG (R323). -/
def execSetConfig (id : Word) (s : State) : Host.Outcome State Fault Refusal :=
  hostAction s (answered .done (setConfigId id s))

/-- SETSOUNDCB (R324). -/
def execSetSoundCb (cb : Option Word) (s : State) : Host.Outcome State Fault Refusal :=
  hostAction s (answered .done { s with soundCb := cb })

/-- SETSOUND (R325). -/
def execSetSound (on : Bool) (s : State) : Host.Outcome State Fault Refusal :=
  hostAction s (answered .done { s with soundOn := on })

/-- SETBP (R326). The rule's "or null when it is empty" is left to the host: a reference to the registry's array is kept
as it is handed over, also while the array is empty (DESIGN CHOICE, log 17). -/
def execSetBp (set : BpRef) (s : State) : Host.Outcome State Fault Refusal :=
  hostAction s (answered .done { s with bpSet := set })

/-- VIDEO (R327): LCD_BYTES bytes of the RAM array from `lcd_addr`, without Classify; past the array's end, refused. -/
def execVideo (s : State) : Host.Outcome State Fault Refusal :=
  if s.lcd.addr.toNat + s.cfg.lcdBytes ≤ ramSize then
    hostAction s (answered (.bytes (ramBytes s s.lcd.addr.toNat s.cfg.lcdBytes)) s)
  else .refused .videoPastEnd

end Sys2Proof.Machine
end

