-- ==== Sys2Proof/Machine/Regions.lean ====
section
/-!
DEFINITION. The meanings of the region rows (R101, R140): an address is offered to the translator and the block answers
the row's kind and offset (log 26). "Purely combinational, deterministic, no side effects" (R140).
-/
namespace Sys2Proof.Machine

/-- The translator's answer for a region: its kind, and the offset of R82 where it has one. -/
def regionAnswer (kind : RegionKind) (offset : Option Word) (s : State) : Host.Outcome State Fault Refusal :=
  .next (answered (.region kind offset) s)

/-- RAM_LOW: RAM, offset the address. -/
def execRamLow (a : Word) (_halt _exe : Bool) (s : State) : Host.Outcome State Fault Refusal := regionAnswer .ram (some a) s

/-- DENIED: no offset. -/
def execDenied (_a : Word) (_halt _exe : Bool) (s : State) : Host.Outcome State Fault Refusal := regionAnswer .denied none s

/-- IO_A: I/O, offset the address. -/
def execIoA (a : Word) (_halt _exe : Bool) (s : State) : Host.Outcome State Fault Refusal := regionAnswer .io (some a) s

/-- IO_B: I/O, offset the address. -/
def execIoB (a : Word) (_halt _exe : Bool) (s : State) : Host.Outcome State Fault Refusal := regionAnswer .io (some a) s

/-- IO_C: I/O, offset the address. -/
def execIoC (a : Word) (_halt _exe : Bool) (s : State) : Host.Outcome State Fault Refusal := regionAnswer .io (some a) s

/-- IO_D: I/O, offset the address. -/
def execIoD (a : Word) (_halt _exe : Bool) (s : State) : Host.Outcome State Fault Refusal := regionAnswer .io (some a) s

/-- WIN_RAM: RAM, offset the address. -/
def execWinRam (a : Word) (_halt _exe : Bool) (s : State) : Host.Outcome State Fault Refusal := regionAnswer .ram (some a) s

/-- ROM: offset `a & 0x7FFF` (R110). -/
def execRom (a : Word) (_halt _exe : Bool) (s : State) : Host.Outcome State Fault Refusal :=
  regionAnswer .rom (some (a &&& 0x7FFF#16)) s

/-- RAM_TOP: RAM, offset the address. -/
def execRamTop (a : Word) (_halt _exe : Bool) (s : State) : Host.Outcome State Fault Refusal := regionAnswer .ram (some a) s

end Sys2Proof.Machine
end

