-- ==== Sys2Proof/Machine/Slots.lean ====
section
/-!
DEFINITION. The storage slots (`43_smp_storage.md`): the three slot operations, and the meanings of the SMP, SLOT, ATTACH,
DETACH and ISATT operations.
-/
namespace Sys2Proof.Machine

/-! ### One slot -/

/-- `slot[s].size` (R41). -/
def Slot.size (x : Slot) : Nat := x.buf.length

/-- The byte at the cursor, 0xFF past the image (R255). -/
def Slot.byteAtCursor (x : Slot) : Byte := x.buf.getD x.cursor.toNat smpEmpty

/-- The cursor after a read step up (R258). -/
def Slot.cursorUp (x : Slot) : Word24 := (x.cursor + 1#24) &&& x.mask

/-- The cursor after a read step down (R257). -/
def Slot.cursorDown (x : Slot) : Word24 := (x.cursor - 1#24) &&& x.mask

/-- `SlotWriteCommand` (R254): with no cartridge the command is dropped. -/
def Slot.writeCommand (x : Slot) (c : Byte) : Slot := if x.attached then { x with command := c } else x

/-- The byte `SlotReadData` returns (R255, R257 to R263). -/
def Slot.readByte (x : Slot) : Byte :=
  if x.attached then
    match smpOp (cmdNibble x.command) with
    | .rdDec => x.byteAtCursor
    | .rdInc => x.byteAtCursor
    | .wrAddr => smpEmpty
    | .wr20 => smpEmpty
    | .wrC0 => smpEmpty
    | .wrE0 => smpEmpty
    | .undef => smpEmpty
  else smpEmpty

/-- The slot after `SlotReadData` (R255, R257 to R263). -/
def Slot.afterRead (x : Slot) : Slot :=
  if x.attached then
    match smpOp (cmdNibble x.command) with
    | .rdDec => { x with cursor := x.cursorDown }
    | .rdInc => { x with cursor := x.cursorUp }
    | .wrAddr => x
    | .wr20 => x
    | .wrC0 => x
    | .wrE0 => x
    | .undef => x
  else x

/-- The slot after `SlotWriteData` (R256, R257 to R263). -/
def Slot.afterWrite (x : Slot) (b : Byte) : Slot :=
  if x.attached then
    match smpOp (cmdNibble x.command) with
    | .rdDec => x
    | .rdInc => x
    | .wrAddr => { x with cursor := cursorShift x.cursor x.mask b }
    | .wr20 => x
    | .wrC0 => x
    | .wrE0 => x
    | .undef => x
  else x

/-- A successful attach (R251). -/
def Slot.attachedTo (img : List Byte) : Slot where
  attached := true
  buf := img
  mask := maskForSize img.length
  cursor := 0#24
  command := 0#8

/-- A slot after detach (R252): cursor, command and mask keep their values. -/
def Slot.detached (x : Slot) : Slot := { x with attached := false, buf := [] }

/-! ### The slot operations on the state -/

/-- `SlotWriteCommand(s, c)` (R254). -/
def slotWriteCommand (sl : SlotIx) (c : Byte) (s : State) : State := setSlot sl ((getSlot s sl).writeCommand c) s

/-- The state after `SlotReadData(s)`; the byte it returns is `(getSlot s sl).readByte` (R255). -/
def slotReadData (sl : SlotIx) (s : State) : State := setSlot sl (getSlot s sl).afterRead s

/-- `SlotWriteData(s, b)` (R256). -/
def slotWriteData (sl : SlotIx) (b : Byte) (s : State) : State := setSlot sl ((getSlot s sl).afterWrite b) s

/-- A data access on a slot, answered: a read answers the byte (R255), a write is done (R256). -/
def slotAccess (sl : SlotIx) (nx : NextAccess) (s : State) : State :=
  match nx with
  | .none => answered .done s
  | .read => answered (.byte (getSlot s sl).readByte) (slotReadData sl s)
  | .write b => answered .done (slotWriteData sl b s)

/-- A command byte reaches a slot, and the next data access, if the stimulus brings it, follows (R106, R254; log 24). -/
def smpCommand (sl : SlotIx) (c : Byte) (nx : NextAccess) (s : State) : State :=
  slotAccess sl nx (slotWriteCommand sl c s)

/-! ### Meanings -/

/-- SLOT.WRCMD (R254). -/
def execSlotWrCmd (sl : SlotIx) (c : Byte) (s : State) : Host.Outcome State Fault Refusal :=
  .next (answered .done (slotWriteCommand sl c s))

/-- SLOT.RDDATA (R255). -/
def execSlotRdData (sl : SlotIx) (s : State) : Host.Outcome State Fault Refusal := .next (slotAccess sl .read s)

/-- SLOT.WRDATA (R256). -/
def execSlotWrData (sl : SlotIx) (b : Byte) (s : State) : Host.Outcome State Fault Refusal :=
  .next (slotAccess sl (.write b) s)

/-- SMP.RD_DEC, command bytes `0x1_` (R257). -/
def execSmpRdDec (low : BitVec 4) (sl : SlotIx) (nx : NextAccess) (s : State) : Host.Outcome State Fault Refusal :=
  .next (smpCommand sl (cmdByte 0x1#4 low) nx s)

/-- SMP.RD_INC, command bytes `0xD_` (R258). -/
def execSmpRdInc (low : BitVec 4) (sl : SlotIx) (nx : NextAccess) (s : State) : Host.Outcome State Fault Refusal :=
  .next (smpCommand sl (cmdByte 0xD#4 low) nx s)

/-- SMP.WR_ADDR, command bytes `0xA_` (R259). -/
def execSmpWrAddr (low : BitVec 4) (sl : SlotIx) (nx : NextAccess) (s : State) : Host.Outcome State Fault Refusal :=
  .next (smpCommand sl (cmdByte 0xA#4 low) nx s)

/-- SMP.WR_20, command bytes `0x2_` (R260). -/
def execSmpWr20 (low : BitVec 4) (sl : SlotIx) (nx : NextAccess) (s : State) : Host.Outcome State Fault Refusal :=
  .next (smpCommand sl (cmdByte 0x2#4 low) nx s)

/-- SMP.WR_C0, command bytes `0xC_` (R261). -/
def execSmpWrC0 (low : BitVec 4) (sl : SlotIx) (nx : NextAccess) (s : State) : Host.Outcome State Fault Refusal :=
  .next (smpCommand sl (cmdByte 0xC#4 low) nx s)

/-- SMP.WR_E0, command bytes `0xE_` (R262). -/
def execSmpWrE0 (low : BitVec 4) (sl : SlotIx) (nx : NextAccess) (s : State) : Host.Outcome State Fault Refusal :=
  .next (smpCommand sl (cmdByte 0xE#4 low) nx s)

/-- SMP.UNDEF, command bytes with an undefined top nibble (R263). -/
def execSmpUndef (op low : BitVec 4) (sl : SlotIx) (nx : NextAccess) (s : State) : Host.Outcome State Fault Refusal :=
  .next (smpCommand sl (cmdByte op low) nx s)

/-- ATTACH (R251): `none` is an unopenable file; an image over 10240 bytes is rejected; a failure changes nothing. -/
def attachSlot (sl : SlotIx) (img : Option (List Byte)) (s : State) : State :=
  match img with
  | none => answered (.bool false) s
  | some bs =>
    if bs.length > smpMax then answered (.bool false) s
    else answered (.bool true) (setSlot sl (Slot.attachedTo bs) s)

def execAttach (sl : SlotIx) (img : Option (List Byte)) (s : State) : Host.Outcome State Fault Refusal :=
  hostAction s (attachSlot sl img s)

/-- DETACH (R252). -/
def execDetach (sl : SlotIx) (s : State) : Host.Outcome State Fault Refusal :=
  hostAction s (answered .done (setSlot sl (getSlot s sl).detached s))

/-- ISATT (R253). -/
def execIsAtt (sl : SlotIx) (s : State) : Host.Outcome State Fault Refusal :=
  hostAction s (answered (.bool (getSlot s sl).attached) s)

end Sys2Proof.Machine
end

