-- ==== Sys2Proof/Machine/ExtDev.lean ====
section
/-!
DEFINITION. The external-device controller (`42_extdev_controller.md`): its operations, and the meanings of the EXT, DEV
and KEY operations.
-/
namespace Sys2Proof.Machine

/-- `ExtComplete()` (R219). -/
def extComplete (s : State) : State := if ctrlImask s.ext.control then s else raiseExt s

/-- `ExtControlWrite(v)` (R211). -/
def extControlWrite (v : Word) (s : State) : State :=
  { s with ext := { s.ext with
      control := v
      selected := s.ext.selected && !ctrlWriteEnds s.cfg s.ext.control v } }

/-- `ExtCommandWrite(c)` (R212). -/
def extCommandWrite (c : Byte) (s : State) : State :=
  let s1 := { s with ext := { s.ext with command := c, selected := true } }
  match writeTarget (ctrlDev s.ext.control) with
  | some sl => extComplete (slotWriteCommand sl c s1)
  | none => s1

/-- The byte `ExtDataRead()` returns (R213). -/
def extDataByte (s : State) : Byte :=
  match readTarget (ctrlDev s.ext.control) with
  | .slot sl => (getSlot s sl).readByte
  | .keyboard => s.ext.shift
  | .nothing => 0xFF#8

/-- The state after `ExtDataRead()` (R213). -/
def extDataRead (s : State) : State :=
  match readTarget (ctrlDev s.ext.control) with
  | .slot sl => extComplete (slotReadData sl s)
  | .keyboard => setShift kbdIdle s
  | .nothing => s

/-- `ExtDataWrite(b)` (R214). -/
def extDataWrite (b : Byte) (s : State) : State :=
  match writeTarget (ctrlDev s.ext.control) with
  | some sl => extComplete (slotWriteData sl b s)
  | none => s

/-- The state after `ExtCommandRead()`; it returns `zext_16(ext_command)` (R215). -/
def extCommandRead (s : State) : State := setSelected false s

/-- `KeyboardEvent(sc, pressed)` (R217). -/
def keyboardEvent (sc : Byte) (pressed : Bool) (s : State) : State :=
  if pressed then raiseKbd (setShift sc s) else setShift sc s

/-! ### Meanings -/

/-- EXT_CS.W (R211). -/
def execExtCsW (v : Word) (s : State) : Host.Outcome State Fault Refusal := .next (answered .done (extControlWrite v s))

/-- EXT_CS.R (R216). -/
def execExtCsR (s : State) : Host.Outcome State Fault Refusal := .next (answered (.word (statusWord s.cfg s.ext)) s)

/-- EXT_CMD.W (R212): the command is the low byte (R112). -/
def execExtCmdW (v : Word) (s : State) : Host.Outcome State Fault Refusal :=
  .next (answered .done (extCommandWrite (lo8 v) s))

/-- EXT_CMD.R (R215). -/
def execExtCmdR (s : State) : Host.Outcome State Fault Refusal :=
  .next (answered (.word (zext16 s.ext.command)) (extCommandRead s))

/-- EXT_DATA.R (R213). -/
def execExtDataR (s : State) : Host.Outcome State Fault Refusal :=
  .next (answered (.word (zext16 (extDataByte s))) (extDataRead s))

/-- EXT_DATA.W (R214): the data byte is the low byte (R112). -/
def execExtDataW (v : Word) (s : State) : Host.Outcome State Fault Refusal :=
  .next (answered .done (extDataWrite (lo8 v) s))

/-- DEV.SMP0_RD: the control write that selects slot 0 for reading (R103, R104; log 25). -/
def execDevSmp0Rd (hi : BitVec 12) (s : State) : Host.Outcome State Fault Refusal :=
  .next (answered .done (extControlWrite (ctrlWord hi 0#4) s))

/-- DEV.SMP1_RD: the control write that selects slot 1 for reading (R103, R104; log 25). -/
def execDevSmp1Rd (hi : BitVec 12) (s : State) : Host.Outcome State Fault Refusal :=
  .next (answered .done (extControlWrite (ctrlWord hi 1#4) s))

/-- DEV.KBD_RD: the control write that selects the keyboard latch (R103, R104; log 25). -/
def execDevKbdRd (hi : BitVec 12) (s : State) : Host.Outcome State Fault Refusal :=
  .next (answered .done (extControlWrite (ctrlWord hi 2#4) s))

/-- DEV.SMP0_WR: the control write that selects slot 0 for writing (R103, R104; log 25). -/
def execDevSmp0Wr (hi : BitVec 12) (s : State) : Host.Outcome State Fault Refusal :=
  .next (answered .done (extControlWrite (ctrlWord hi 8#4) s))

/-- DEV.SMP1_WR: the control write that selects slot 1 for writing (R103, R104; log 25). -/
def execDevSmp1Wr (hi : BitVec 12) (s : State) : Host.Outcome State Fault Refusal :=
  .next (answered .done (extControlWrite (ctrlWord hi 9#4) s))

/-- DEV.NONE: the control write of a malformed nibble, stored like any other (R118; log 25). -/
def execDevNone (hi : BitVec 12) (dev : BitVec 4) (s : State) : Host.Outcome State Fault Refusal :=
  .next (answered .done (extControlWrite (ctrlWord hi dev) s))

/-- KEY (R217). -/
def execKey (sc : Byte) (pressed : Bool) (s : State) : Host.Outcome State Fault Refusal :=
  hostAction s (answered .done (keyboardEvent sc pressed s))

end Sys2Proof.Machine
end

