-- ==== Sys2Proof/Machine/Ports.lean ====
section
/-!
DEFINITION. The port register multiplexer (`41_port_registers.md`): word and byte accesses to ports, and the meanings of
the plain port operations and of PORT.UNASSIGNED.
-/
namespace Sys2Proof.Machine

/-! ### One register -/

/-- The word a read of a port register returns (R171). -/
def portValue (r : PortReg) (s : State) : Word :=
  match r with
  | .lcdAddr => s.lcd.addr
  | .lcdConf => s.lcd.conf
  | .lcdIndex => s.lcd.index
  | .sndCtl => s.snd.ctl
  | .sndReload => s.snd.reload
  | .envReload => s.snd.envReload
  | .extData => zext16 (extDataByte s)
  | .extCs => statusWord s.cfg s.ext
  | .extCmd => zext16 s.ext.command

/-- The state after a read of a port register (R171, R79). -/
def portAfterRead (r : PortReg) (s : State) : State :=
  match r with
  | .lcdAddr => s
  | .lcdConf => s
  | .lcdIndex => s
  | .sndCtl => s
  | .sndReload => s
  | .envReload => s
  | .extData => extDataRead s
  | .extCs => s
  | .extCmd => extCommandRead s

/-- The state after a write of a port register (R172). -/
def portAfterWrite (r : PortReg) (v : Word) (s : State) : State :=
  match r with
  | .lcdAddr => setLcdAddr v s
  | .lcdConf => setLcdConf v s
  | .lcdIndex => setLcdIndex v s
  | .sndCtl => setSndCtl v s
  | .sndReload => setSndReload v s
  | .envReload => setEnvReload v s
  | .extData => extDataWrite (lo8 v) s
  | .extCs => extControlWrite v s
  | .extCmd => extCommandWrite (lo8 v) s

/-! ### Port accesses; a read gives no value, a write `false`, when it raised BusFault -/

/-- `PortReadWord(e)` (R171); `acc` is the transaction it serves. -/
def portReadWord (acc : Access) (e : Word) (s : State) : Option Word × State :=
  match portMap s.cfg e with
  | some r => (some (portValue r s), portAfterRead r s)
  | none => (none, raiseBusFault .fPort acc s)

/-- `PortWriteWord(e, v)` (R172). -/
def portWriteWord (acc : Access) (e v : Word) (s : State) : Bool × State :=
  match portMap s.cfg e with
  | some r => (true, portAfterWrite r v s)
  | none => (false, raiseBusFault .fPort acc s)

/-- `PortReadByte(a)` (R173). -/
def portReadByte (acc : Access) (a : Word) (s : State) : Option Byte × State :=
  match portReadWord acc (evenAddr a) s with
  | (some w, s1) => (some (laneOf a w), s1)
  | (none, s1) => (none, s1)

/-- `PortWriteByte(a, b)` (R174): the word read with its side effects, the merge, the word write. -/
def portWriteByte (acc : Access) (a : Word) (b : Byte) (s : State) : Bool × State :=
  match portReadWord acc (evenAddr a) s with
  | (some w, s1) => portWriteWord acc (evenAddr a) (laneMerge a w b) s1
  | (none, s1) => (false, s1)

/-! ### Answers -/

/-- A word read answered: the value, or BusFault with a free value (R81). -/
def answerWord : Option Word × State → State
  | (some v, s) => answered (.word v) s
  | (none, s) => drawn (answered (.faultWord (Config.faultWord s.out.draws)) s)

/-- A byte read answered: the value, or BusFault with a free value (R81). -/
def answerByte : Option Byte × State → State
  | (some b, s) => answered (.byte b) s
  | (none, s) => drawn (answered (.faultByte (Config.faultByte s.out.draws)) s)

/-- A write answered. -/
def answerWrite : Bool × State → State
  | (true, s) => answered .done s
  | (false, s) => answered .faultWrite s

/-! ### Meanings -/

/-- LCD_ADDR.R (R175). -/
def execLcdAddrR (_p : AliasIx) (s : State) : Host.Outcome State Fault Refusal := .next (answered (.word s.lcd.addr) s)

/-- LCD_ADDR.W (R176). -/
def execLcdAddrW (_p : AliasIx) (v : Word) (s : State) : Host.Outcome State Fault Refusal :=
  .next (answered .done (setLcdAddr v s))

/-- LCD_CONF.R (R177). -/
def execLcdConfR (_p : AliasIx) (s : State) : Host.Outcome State Fault Refusal := .next (answered (.word s.lcd.conf) s)

/-- LCD_CONF.W (R178). -/
def execLcdConfW (_p : AliasIx) (v : Word) (s : State) : Host.Outcome State Fault Refusal :=
  .next (answered .done (setLcdConf v s))

/-- LCD_INDEX.R (R179). -/
def execLcdIndexR (s : State) : Host.Outcome State Fault Refusal := .next (answered (.word s.lcd.index) s)

/-- LCD_INDEX.W (R180). -/
def execLcdIndexW (v : Word) (s : State) : Host.Outcome State Fault Refusal := .next (answered .done (setLcdIndex v s))

/-- SND_CTL.R (R181). -/
def execSndCtlR (s : State) : Host.Outcome State Fault Refusal := .next (answered (.word s.snd.ctl) s)

/-- SND_CTL.W (R182). -/
def execSndCtlW (v : Word) (s : State) : Host.Outcome State Fault Refusal := .next (answered .done (setSndCtl v s))

/-- SND_RELOAD.R (R183). -/
def execSndReloadR (s : State) : Host.Outcome State Fault Refusal := .next (answered (.word s.snd.reload) s)

/-- SND_RELOAD.W (R184). -/
def execSndReloadW (v : Word) (s : State) : Host.Outcome State Fault Refusal := .next (answered .done (setSndReload v s))

/-- ENV_RELOAD.R (R187). -/
def execEnvReloadR (s : State) : Host.Outcome State Fault Refusal := .next (answered (.word s.snd.envReload) s)

/-- ENV_RELOAD.W (R188). -/
def execEnvReloadW (v : Word) (s : State) : Host.Outcome State Fault Refusal := .next (answered .done (setEnvReload v s))

/-- PORT.UNASSIGNED (R185): BusFault, cause F_PORT, whatever the direction and width. -/
def unassignedAccess (a : Word) (acc : PortAccess) (s : State) : State :=
  match acc with
  | .readWord => answerWord (none, raiseBusFault .fPort ⟨a, .word, .read⟩ s)
  | .readByte => answerByte (none, raiseBusFault .fPort ⟨a, .byte, .read⟩ s)
  | .writeWord _ => answerWrite (false, raiseBusFault .fPort ⟨a, .word, .write⟩ s)
  | .writeByte _ => answerWrite (false, raiseBusFault .fPort ⟨a, .byte, .write⟩ s)

def execPortUnassigned (a : Word) (acc : PortAccess) (s : State) : Host.Outcome State Fault Refusal :=
  .next (unassignedAccess a acc s)

end Sys2Proof.Machine
end

