-- ==== Sys2Proof/Machine/Bus.lean ====
section
/-!
DEFINITION. The bus transactions (`40_bus_access.md`): the normal path, the fetch, the debug view, and their meanings.
-/
namespace Sys2Proof.Machine

/-! ### The normal path (R143 to R147) -/

/-- `RDW a`, and `FETCH a` with `exe` (R143, R147). -/
def busReadWord (a : Word) (halt exe : Bool) (s : State) : Option Word × State :=
  match translateAddr (evenAddr a) halt exe with
  | .ram o => (some (ramWord s o.toNat), s)
  | .rom o => (some (romWord s o.toNat), s)
  | .io _ => portReadWord ⟨a, .word, .read⟩ (evenAddr a) s
  | .denied => (none, raiseBusFault .fDenied ⟨a, .word, .read⟩ s)

/-- `RDB a` (R144). -/
def busReadByte (a : Word) (halt : Bool) (s : State) : Option Byte × State :=
  match translateAddr a halt false with
  | .ram o => (some (ramByte s o.toNat), s)
  | .rom o => (some (romByte s o.toNat), s)
  | .io _ => portReadByte ⟨a, .byte, .read⟩ a s
  | .denied => (none, raiseBusFault .fDenied ⟨a, .byte, .read⟩ s)

/-- `WRW a, v` (R145). -/
def busWriteWord (a v : Word) (halt : Bool) (s : State) : Bool × State :=
  match translateAddr (evenAddr a) halt false with
  | .ram o => (true, setRamWord o.toNat v s)
  | .rom _ => (false, raiseBusFault .fRomWrite ⟨a, .word, .write⟩ s)
  | .io _ => portWriteWord ⟨a, .word, .write⟩ (evenAddr a) v s
  | .denied => (false, raiseBusFault .fDenied ⟨a, .word, .write⟩ s)

/-- `WRB a, b` (R146). -/
def busWriteByte (a : Word) (b : Byte) (halt : Bool) (s : State) : Bool × State :=
  match translateAddr a halt false with
  | .ram o => (true, setRamByte o.toNat b s)
  | .rom _ => (false, raiseBusFault .fRomWrite ⟨a, .byte, .write⟩ s)
  | .io _ => portWriteByte ⟨a, .byte, .write⟩ a b s
  | .denied => (false, raiseBusFault .fDenied ⟨a, .byte, .write⟩ s)

/-! ### The debug view (R148, R149) -/

/-- The value of `VIEWW a` (R148): Denied and I/O read 0, nothing happens. -/
def viewWord (a : Word) (s : State) : Word :=
  match classify (evenAddr a) with
  | .ram o => ramWord s o.toNat
  | .rom o => romWord s o.toNat
  | .io _ => 0#16
  | .denied => 0#16

/-- The value of `VIEWB a` (R149). -/
def viewByte (a : Word) (s : State) : Byte := laneOf a (viewWord a s)

/-! ### A transaction of the CPU's (R142) -/

/-- A normal-path transaction answered, with the halt-mode bit the CPU presents. -/
def busTransaction (op : BusOp) (halt : Bool) (s : State) : State :=
  match op with
  | .readWord a => answerWord (busReadWord a halt false s)
  | .readByte a => answerByte (busReadByte a halt s)
  | .writeWord a v => answerWrite (busWriteWord a v halt s)
  | .writeByte a b => answerWrite (busWriteByte a b halt s)
  | .fetchWord a => answerWord (busReadWord a halt true s)

/-! ### Meanings -/

/-- RDW (R143). -/
def execRdw (a : Word) (halt : Bool) (s : State) : Host.Outcome State Fault Refusal :=
  .next (busTransaction (.readWord a) halt s)

/-- RDB (R144). -/
def execRdb (a : Word) (halt : Bool) (s : State) : Host.Outcome State Fault Refusal :=
  .next (busTransaction (.readByte a) halt s)

/-- WRW (R145). -/
def execWrw (a v : Word) (halt : Bool) (s : State) : Host.Outcome State Fault Refusal :=
  .next (busTransaction (.writeWord a v) halt s)

/-- WRB (R146). -/
def execWrb (a : Word) (b : Byte) (halt : Bool) (s : State) : Host.Outcome State Fault Refusal :=
  .next (busTransaction (.writeByte a b) halt s)

/-- FETCH (R147). -/
def execFetch (a : Word) (halt : Bool) (s : State) : Host.Outcome State Fault Refusal :=
  .next (busTransaction (.fetchWord a) halt s)

/-- VIEWW (R148). -/
def execViewW (a : Word) (s : State) : Host.Outcome State Fault Refusal := .next (answered (.word (viewWord a s)) s)

/-- VIEWB (R149). -/
def execViewB (a : Word) (s : State) : Host.Outcome State Fault Refusal := .next (answered (.byte (viewByte a s)) s)

end Sys2Proof.Machine
end

