-- ==== Sys2Proof/Machine/Scheduler.lean ====
section
/-!
DEFINITION. The frame scheduler (`44_frame_scheduler.md`): the five events, the frame's loop, and their meanings.
-/
namespace Sys2Proof.Machine

/-! ### EXEC (R282) -/

/-- What the CPU does in its next Execute: the script's head, or, past the script's end, a free value (log 10). -/
def nextExec (s : State) : CpuExec :=
  match s.cpu.script with
  | x :: _ => x
  | [] => Config.cpuExecute s.out.draws

/-- The state with the CPU's next Execute taken off the script, or drawn. -/
def takeExec (s : State) : State :=
  match s.cpu.script with
  | _ :: xs => { s with cpu := { s.cpu with script := xs } }
  | [] => drawn s

/-- A transaction the CPU issues inside an EXEC, with the halt-mode bit it reports, and its answer to the CPU (R142). -/
def cpuTransaction (s : State) (op : BusOp) : State :=
  emit (.busAnswer (busTransaction op s.cpu.halt s).out.answer) (busTransaction op s.cpu.halt s)

/-- What an Execute leaves in the CPU (R45). -/
def setCpuAfter (x : CpuExec) (s : State) : State :=
  { s with cpu := { s.cpu with pc := x.pc, halt := x.halt, image := x.image } }

/-- EXEC: `CPU.Execute()`, its transactions in order, each answered completely before the next (R282). -/
def cpuExecute (s : State) : State :=
  setCpuAfter (nextExec s) ((nextExec s).txns.foldl cpuTransaction (emit .cpuExecute (takeExec s)))

/-! ### BPCHK (R283) -/

/-- The breakpoint set's current contents (R326, D36): null is the empty set. -/
def breakpointSet (s : State) : List Word :=
  match s.bpSet with
  | .null => []
  | .registry => s.registry.breaks
  | .listed xs => xs

/-- BPCHK's compare (R283, R45): the sentinel 0xFFFF never matches. -/
def breakpointHit (s : State) : Bool := s.cpu.pc != bpSentinel && (breakpointSet s).contains s.cpu.pc

/-! ### TTICK, TICK50, DOSOUND (R285 to R287) -/

/-- The primary counter's step (R285). -/
def toneStep (x : Sound) : Word := if x.toneCnt = 0#16 then x.reload else x.toneCnt - 1#16

/-- The prescaler after its decrement (R285). -/
def preStep (x : Sound) : Byte := if x.tonePre = 0#8 then 0#8 else x.tonePre - 1#8

/-- `TimerTick()` (R285). -/
def timerTick (s : State) : State :=
  if preStep s.snd = 0#8 then
    { s with snd := { s.snd with tonePre := prescalerReload (octave s.cfg s.snd.ctl), toneCnt := toneStep s.snd } }
  else { s with snd := { s.snd with tonePre := preStep s.snd } }

/-- The secondary counter's step (R286). -/
def envStep (x : Sound) : Word := if x.envCnt = 0#16 then x.envReload else x.envCnt - 1#16

/-- The secondary counter's register updated. -/
def setEnvCnt (v : Word) (s : State) : State := { s with snd := { s.snd with envCnt := v } }

/-- `Tick50()` (R286). -/
def tick50Event (s : State) : State :=
  setEnvCnt (envStep s.snd) (if gen50 s.cfg s.snd.ctl then raiseEvnt s else s)

/-- The gate of DOSOUND (R287): is the output not silent? -/
def soundActive (s : State) : Bool :=
  s.soundOn && volume s.cfg s.snd.ctl != 0 && octave s.cfg s.snd.ctl != 0 &&
  decide (s.snd.toneCnt.toNat < s.snd.reload.toNat >>> 1)

/-- The level DOSOUND puts out (R287, R115). -/
def soundOut (s : State) : Word := if soundActive s then soundLevel (volume s.cfg s.snd.ctl) else 0#16

/-- `DoSound()` (R287). -/
def doSoundEvent (s : State) : State :=
  match s.soundCb with
  | none => s
  | some h => emit (.soundCb h (soundOut s) (soundOut s)) s

/-! ### FRAME (R281) -/

/-- The loop counters at the start of a subtick (R44). -/
def setFrame (p : Option FramePos) (s : State) : State := { s with frame := p }

/-- The inner loop of R281: `n` subticks from `k` of frametick `t`. The boolean is "a breakpoint was hit". -/
def runSubticks : Nat → Nat → Nat → State → Bool × State
  | 0, _, _, s => (false, s)
  | n + 1, t, k, s =>
    let s1 := cpuExecute (setFrame (some ⟨t, k⟩) s)
    if breakpointHit s1 then (true, s1) else runSubticks n t (k + 1) (timerTick s1)

/-- What follows the sixteen subticks of frametick `t` (R281): Tick50 at 0 and 10000, then DoSound at the cadence. -/
def afterSubticks (t : Nat) (s : State) : State :=
  let s1 := if t = 0 ∨ t = tick50Second then tick50Event s else s
  if t % audioPeriod s1.cfg = 0 then doSoundEvent s1 else s1

/-- The outer loop of R281: `n` frameticks from `t`. -/
def runTicks : Nat → Nat → State → Bool × State
  | 0, _, s => (false, s)
  | n + 1, t, s =>
    match runSubticks subTicks t 0 s with
    | (true, s1) => (true, s1)
    | (false, s1) => runTicks n (t + 1) (afterSubticks t s1)

/-- `SystemFrame()` (R281): the loop, and true unless a breakpoint stopped it. The counters go with the frame (R44). -/
def systemFrame (s : State) : State :=
  let r := runTicks frameTicks 0 s
  answered (.bool (!r.1)) (setFrame none r.2)

/-! ### Meanings -/

/-- EXEC (R282). -/
def execCpuExec (s : State) : Host.Outcome State Fault Refusal := .next (answered .done (cpuExecute s))

/-- BPCHK (R283): answers whether the frame stops here; no state written. -/
def execBpChk (s : State) : Host.Outcome State Fault Refusal := .next (answered (.bool (breakpointHit s)) s)

/-- TTICK (R285). -/
def execTTick (s : State) : Host.Outcome State Fault Refusal := .next (answered .done (timerTick s))

/-- TICK50 (R286). -/
def execTick50 (s : State) : Host.Outcome State Fault Refusal := .next (answered .done (tick50Event s))

/-- DOSOUND (R287). -/
def execDoSound (s : State) : Host.Outcome State Fault Refusal := .next (answered .done (doSoundEvent s))

/-- FRAME (R281). -/
def execFrame (s : State) : Host.Outcome State Fault Refusal := hostAction s (systemFrame s)

end Sys2Proof.Machine
end

