-- ==== Sys2Proof/Machine/Snapshot.lean ====
section
/-!
DEFINITION. The snapshot (`45_host_operations.md` R350 to R353): the image, SAVE and LOAD.
-/
namespace Sys2Proof.Machine

/-! ### Fields, little-endian (R350) -/

/-- A 16-bit field. -/
def le16 (w : Word) : List Byte := [lo8 w, hi8 w]

/-- A 32-bit field. -/
def le32 (w : Word32) : List Byte :=
  [w.extractLsb' 0 8, w.extractLsb' 8 8, w.extractLsb' 16 8, w.extractLsb' 24 8]

/-- A field of zeros. -/
def zeros (n : Nat) : List Byte := List.replicate n 0#8

/-- `sound_on` as 0 or 1. -/
def soundWord (on : Bool) : Word := if on then 1#16 else 0#16

/-- The header, offsets 0 to 31. -/
def snapHeader (s : State) : List Byte :=
  le32 (snapMagic1 s.cfg) ++ le32 (snapMagic2 s.cfg) ++ le32 (snapVersion s.cfg) ++ le32 (BitVec.ofNat 32 snapSize) ++
  le32 (BitVec.ofNat 32 s.uptime) ++ zeros 12

/-- The register block, offsets 32 to 159. -/
def snapRegs (s : State) : List Byte :=
  le16 s.config ++ zeros 12 ++ le16 s.lcd.addr ++ le16 s.lcd.conf ++ le16 s.lcd.index ++ le16 (soundWord s.soundOn) ++
  zeros 106

/-- The part below the memories, offsets 0 to 4095. The CPU's 32 bytes are its field `image`; that they are held beside the
program counter and the mode, with no relation to those now in force, is the model's choice (log 12). -/
def snapLow (s : State) : List Byte := snapHeader s ++ snapRegs s ++ s.cpu.image.toList ++ zeros 3904

/-- The snapshot image (R350). -/
def snapshot (s : State) : List Byte :=
  snapLow s ++ romBytes s 0 romSize ++ ramBytes s 0 ramSize ++ zeros 45056

/-! ### Reading an image (R352) -/

/-- The byte at an offset. -/
def imgByte (img : List Byte) (o : Nat) : Byte := img.getD o 0#8

/-- The 16-bit field at an offset. -/
def imgWord (img : List Byte) (o : Nat) : Word := word16 (imgByte img (o + 1)) (imgByte img o)

/-- `sound_on` from its word: 0 or 1; any other word is not in the spec and gives a free value (log 19). -/
def soundOfWord (w : Word) : Bool := if w = 0#16 then false else if w = 1#16 then true else Config.soundFlag w

/-- The CPU's 32 bytes. -/
def imgCpu (img : List Byte) : Vector Byte 32 := Vector.ofFn fun i => imgByte img (160 + i.val)

/-- `Load(img)` (R352): the elements the image carries; every other element keeps its value. Bytes 0 to 31 are not read. -/
def loadSnapshot (img : List Byte) (s : State) : State :=
  { s with
    config := imgWord img 32
    lcd := ⟨imgWord img 46, imgWord img 48, imgWord img 50⟩
    soundOn := soundOfWord (imgWord img 52)
    rom := Memory.ofBytes 0 ((img.drop 4096).take romSize)
    ram := Memory.ofBytes 0 ((img.drop 36864).take ramSize)
    cpu := { s.cpu with
      image := imgCpu img
      pc := Config.cpuPcOfImage (imgCpu img)
      halt := Config.cpuHaltOfImage (imgCpu img) } }

/-! ### Meanings -/

/-- SAVE (R351). -/
def execSave (s : State) : Host.Outcome State Fault Refusal :=
  hostAction s (answered (.bytes (snapshot s)) (emit .cpuSave s))

/-- LOAD (R352): exactly 147456 bytes, else refused (U9). -/
def execLoad (img : List Byte) (s : State) : Host.Outcome State Fault Refusal :=
  if img.length = snapSize then hostAction s (answered .done (emit (.cpuLoad (imgCpu img)) (loadSnapshot img s)))
  else .refused .badSnapshotLength

end Sys2Proof.Machine
end

