-- ==== Sys2Proof/Machine/Dispatch.lean ====
section
/-!
DEFINITION. The dispatch: one arm for each operation, one direct call of its meaning.
-/
namespace Sys2Proof.Machine

def exec (i : Instr) (s : State) : Host.Outcome State Fault Refusal :=
  match i with
  | .ramLow a h x => Sys2Proof.Machine.execRamLow a h x s
  | .denied a h x => Sys2Proof.Machine.execDenied a h x s
  | .ioA a h x => Sys2Proof.Machine.execIoA a h x s
  | .ioB a h x => Sys2Proof.Machine.execIoB a h x s
  | .ioC a h x => Sys2Proof.Machine.execIoC a h x s
  | .ioD a h x => Sys2Proof.Machine.execIoD a h x s
  | .winRam a h x => Sys2Proof.Machine.execWinRam a h x s
  | .rom a h x => Sys2Proof.Machine.execRom a h x s
  | .ramTop a h x => Sys2Proof.Machine.execRamTop a h x s
  | .rdw a h => Sys2Proof.Machine.execRdw a h s
  | .rdb a h => Sys2Proof.Machine.execRdb a h s
  | .wrw a v h => Sys2Proof.Machine.execWrw a v h s
  | .wrb a v h => Sys2Proof.Machine.execWrb a v h s
  | .fetch a h => Sys2Proof.Machine.execFetch a h s
  | .viewW a => Sys2Proof.Machine.execViewW a s
  | .viewB a => Sys2Proof.Machine.execViewB a s
  | .lcdAddrR p => Sys2Proof.Machine.execLcdAddrR p s
  | .lcdAddrW p v => Sys2Proof.Machine.execLcdAddrW p v s
  | .lcdConfR p => Sys2Proof.Machine.execLcdConfR p s
  | .lcdConfW p v => Sys2Proof.Machine.execLcdConfW p v s
  | .extDataR => Sys2Proof.Machine.execExtDataR s
  | .extDataW v => Sys2Proof.Machine.execExtDataW v s
  | .extCsR => Sys2Proof.Machine.execExtCsR s
  | .extCsW v => Sys2Proof.Machine.execExtCsW v s
  | .extCmdR => Sys2Proof.Machine.execExtCmdR s
  | .extCmdW v => Sys2Proof.Machine.execExtCmdW v s
  | .sndCtlR => Sys2Proof.Machine.execSndCtlR s
  | .sndCtlW v => Sys2Proof.Machine.execSndCtlW v s
  | .sndReloadR => Sys2Proof.Machine.execSndReloadR s
  | .sndReloadW v => Sys2Proof.Machine.execSndReloadW v s
  | .envReloadR => Sys2Proof.Machine.execEnvReloadR s
  | .envReloadW v => Sys2Proof.Machine.execEnvReloadW v s
  | .lcdIndexR => Sys2Proof.Machine.execLcdIndexR s
  | .lcdIndexW v => Sys2Proof.Machine.execLcdIndexW v s
  | .portUnassigned a acc => Sys2Proof.Machine.execPortUnassigned a acc s
  | .devSmp0Rd hi => Sys2Proof.Machine.execDevSmp0Rd hi s
  | .devSmp1Rd hi => Sys2Proof.Machine.execDevSmp1Rd hi s
  | .devKbdRd hi => Sys2Proof.Machine.execDevKbdRd hi s
  | .devSmp0Wr hi => Sys2Proof.Machine.execDevSmp0Wr hi s
  | .devSmp1Wr hi => Sys2Proof.Machine.execDevSmp1Wr hi s
  | .devNone hi dev => Sys2Proof.Machine.execDevNone hi dev s
  | .smpRdDec low sl nx => Sys2Proof.Machine.execSmpRdDec low sl nx s
  | .smpRdInc low sl nx => Sys2Proof.Machine.execSmpRdInc low sl nx s
  | .smpWrAddr low sl nx => Sys2Proof.Machine.execSmpWrAddr low sl nx s
  | .smpWr20 low sl nx => Sys2Proof.Machine.execSmpWr20 low sl nx s
  | .smpWrC0 low sl nx => Sys2Proof.Machine.execSmpWrC0 low sl nx s
  | .smpWrE0 low sl nx => Sys2Proof.Machine.execSmpWrE0 low sl nx s
  | .smpUndef op low sl nx => Sys2Proof.Machine.execSmpUndef op low sl nx s
  | .slotWrCmd sl c => Sys2Proof.Machine.execSlotWrCmd sl c s
  | .slotRdData sl => Sys2Proof.Machine.execSlotRdData sl s
  | .slotWrData sl b => Sys2Proof.Machine.execSlotWrData sl b s
  | .cpuExec => Sys2Proof.Machine.execCpuExec s
  | .bpChk => Sys2Proof.Machine.execBpChk s
  | .tTick => Sys2Proof.Machine.execTTick s
  | .tick50 => Sys2Proof.Machine.execTick50 s
  | .doSound => Sys2Proof.Machine.execDoSound s
  | .frame => Sys2Proof.Machine.execFrame s
  | .reset => Sys2Proof.Machine.execReset s
  | .loadRom img => Sys2Proof.Machine.execLoadRom img s
  | .loadRam bank buf => Sys2Proof.Machine.execLoadRam bank buf s
  | .setConfig id => Sys2Proof.Machine.execSetConfig id s
  | .key sc pressed => Sys2Proof.Machine.execKey sc pressed s
  | .attach sl img => Sys2Proof.Machine.execAttach sl img s
  | .detach sl => Sys2Proof.Machine.execDetach sl s
  | .isAtt sl => Sys2Proof.Machine.execIsAtt sl s
  | .setSoundCb cb => Sys2Proof.Machine.execSetSoundCb cb s
  | .setSound on => Sys2Proof.Machine.execSetSound on s
  | .setBp set => Sys2Proof.Machine.execSetBp set s
  | .save => Sys2Proof.Machine.execSave s
  | .load img => Sys2Proof.Machine.execLoad img s
  | .video => Sys2Proof.Machine.execVideo s
  | .bpAdd arr a => Sys2Proof.Machine.execBpAdd arr a s
  | .bpRemove arr a => Sys2Proof.Machine.execBpRemove arr a s
  | .bpSetTemp a => Sys2Proof.Machine.execBpSetTemp a s
  | .bpClearAll arr => Sys2Proof.Machine.execBpClearAll arr s

end Sys2Proof.Machine
end

