-- ==== Sys2Proof/WellFormed.lean ====
section
/-!
DEFINITION. The operand constraints of an instruction that its types do not already say: a region row's address lies in
the row (R101), a device nibble is malformed (R118), a command nibble is undefined (R119), a port is an unassigned I/O
address (R185).
-/
namespace Sys2Proof

/-- Is the operation's operand list one the spec admits, under this configuration? -/
def wellFormed (c : Config) : Instr → Bool
  | .ramLow a _ _ => Machine.regionRow a == .ramLow
  | .denied a _ _ => Machine.regionRow a == .denied
  | .ioA a _ _ => Machine.regionRow a == .ioA
  | .ioB a _ _ => Machine.regionRow a == .ioB
  | .ioC a _ _ => Machine.regionRow a == .ioC
  | .ioD a _ _ => Machine.regionRow a == .ioD
  | .winRam a _ _ => Machine.regionRow a == .winRam
  | .rom a _ _ => Machine.regionRow a == .rom
  | .ramTop a _ _ => Machine.regionRow a == .ramTop
  | .rdw _ _ => true
  | .rdb _ _ => true
  | .wrw _ _ _ => true
  | .wrb _ _ _ => true
  | .fetch _ _ => true
  | .viewW _ => true
  | .viewB _ => true
  | .lcdAddrR _ => true
  | .lcdAddrW _ _ => true
  | .lcdConfR _ => true
  | .lcdConfW _ _ => true
  | .extDataR => true
  | .extDataW _ => true
  | .extCsR => true
  | .extCsW _ => true
  | .extCmdR => true
  | .extCmdW _ => true
  | .sndCtlR => true
  | .sndCtlW _ => true
  | .sndReloadR => true
  | .sndReloadW _ => true
  | .envReloadR => true
  | .envReloadW _ => true
  | .lcdIndexR => true
  | .lcdIndexW _ => true
  | .portUnassigned a _ => Machine.isIo a && (Machine.portMap c (Machine.evenAddr a)).isNone
  | .devSmp0Rd _ => true
  | .devSmp1Rd _ => true
  | .devKbdRd _ => true
  | .devSmp0Wr _ => true
  | .devSmp1Wr _ => true
  | .devNone _ dev => Machine.devMalformed dev
  | .smpRdDec _ _ _ => true
  | .smpRdInc _ _ _ => true
  | .smpWrAddr _ _ _ => true
  | .smpWr20 _ _ _ => true
  | .smpWrC0 _ _ _ => true
  | .smpWrE0 _ _ _ => true
  | .smpUndef op _ _ _ => Machine.smpOp op == .undef
  | .slotWrCmd _ _ => true
  | .slotRdData _ => true
  | .slotWrData _ _ => true
  | .cpuExec => true
  | .bpChk => true
  | .tTick => true
  | .tick50 => true
  | .doSound => true
  | .frame => true
  | .reset => true
  | .loadRom _ => true
  | .loadRam _ _ => true
  | .setConfig _ => true
  | .key _ _ => true
  | .attach _ _ => true
  | .detach _ => true
  | .isAtt _ => true
  | .setSoundCb _ => true
  | .setSound _ => true
  | .setBp _ => true
  | .save => true
  | .load _ => true
  | .video => true
  | .bpAdd _ _ => true
  | .bpRemove _ _ => true
  | .bpSetTemp _ => true
  | .bpClearAll _ => true

end Sys2Proof
end

