-- ==== Sys2Proof/Machine/Step.lean ====
section
/-!
DEFINITION. One step: the oldest stimulus is taken, decoded, checked and executed (R14, R85; log 1).
-/
namespace Sys2Proof.Machine

/-- The state with its oldest stimulus taken: the step's "moving past the instruction's words". -/
def consumed (s : State) : State := { s with inbox := s.inbox.tail }

/-- Executes a decoded stimulus at the state that has taken it. -/
def runDecoded (d : Decoded) (s : State) : Host.Outcome State Fault Refusal :=
  match d with
  | .reject why => .refused (.undecodable why)
  | .setPc v => hostSetPc v s
  | .instr i => if wellFormed s.cfg i then exec i s else .refused .illFormed

/-- One step. "A configuration that breaks a constraint is refused" (R8). -/
def step (s : State) : Host.Outcome State Fault Refusal :=
  if configValid s.cfg then
    match s.inbox with
    | [] => .refused .noStimulus
    | st :: _ => runDecoded (decode s.cfg st) (consumed s)
  else .refused .badConfiguration

/-- The state whose next stimulus is the table word `w` of `nbits` bits, operand bytes 0 (log 3). -/
def State.withFetchWord (s : State) (nbits w : Nat) : State := { s with inbox := tableStimulus nbits w :: s.inbox }

end Sys2Proof.Machine
end

