-- ==== Sys2Proof/Safety.lean ====
section
/-!
DEFINITION. The terms claims are stated in: a configuration's constraints, the board's invariant, the classes of operations, runs of operations, and the
frame's events as a list.
-/
namespace Sys2Proof.Machine

/-! ### The constraints of R8's last column -/

/-- The address is even and lies in IO_A, IO_B, IO_C or IO_D (constraint P of R8, of one port address). -/
def portPlaced (a : Word) : Prop :=
  a.toNat % 2 = 0 ∧ ((0xE800 ≤ a.toNat ∧ a.toNat ≤ 0xE807) ∨ (0xE810 ≤ a.toNat ∧ a.toNat ≤ 0xE817) ∨
    (0xE81A ≤ a.toNat ∧ a.toNat ≤ 0xE81D) ∨ (0xEA00 ≤ a.toNat ∧ a.toNat ≤ 0xEA7F))

/-- The constraints R8 puts on a configuration alone, each as its last column says it, bit by bit where it speaks of bits
(that of RAM_BANK_BASE is on LOADRAM's operands: R322). -/
structure ConfigConstraints (c : Config) : Prop where
  ports_placed : ∀ a ∈ [c.aLcdAddr0, c.aLcdAddr1, c.aLcdConf0, c.aLcdConf1, c.aLcdIndex, c.aExtData, c.aExtCs, c.aExtCmd,
    c.aSndCtl, c.aSndReload, c.aEnvReload], portPlaced a
  ports_distinct : [c.aLcdAddr0, c.aLcdAddr1, c.aLcdConf0, c.aLcdConf1, c.aLcdIndex, c.aExtData, c.aExtCs, c.aExtCmd,
    c.aSndCtl, c.aSndReload, c.aEnvReload].Nodup
  desel_one_bit : ∃ k, ∀ j, c.statusDesel.getLsbD j = true ↔ j = k
  fixed_disjoint : ∀ k, ¬ (c.statusFixed.getLsbD k = true ∧ c.statusDesel.getLsbD k = true)
  ctrlMask_disjoint : ∀ k, ¬ (c.statusCtrlMask.getLsbD k = true ∧ c.statusDesel.getLsbD k = true)
  octave_le : c.octaveLsb ≤ 13
  volume_le : c.volumeLsb ≤ 14
  gen50_le : c.gen50Bit ≤ 15
  octave_volume : ∀ b, ¬ ((c.octaveLsb ≤ b ∧ b < c.octaveLsb + 3) ∧ (c.volumeLsb ≤ b ∧ b < c.volumeLsb + 2))
  octave_gen50 : ¬ (c.octaveLsb ≤ c.gen50Bit ∧ c.gen50Bit < c.octaveLsb + 3)
  volume_gen50 : ¬ (c.volumeLsb ≤ c.gen50Bit ∧ c.gen50Bit < c.volumeLsb + 2)
  sampleRate_ge : 25 ≤ c.sampleRate
  sampleRate_le : c.sampleRate / 25 ≤ 20286
  bpN_ge : 2 ≤ c.bpN
  basic10_mem : c.basic10 ∈ c.configIds

/-! ### The invariant -/

/-- A slot's invariants (R41, R266): at most 10240 bytes, the mask of R251, the cursor under the mask, and nothing in a
slot without a cartridge. -/
structure SlotOk (x : Slot) : Prop where
  size_le : x.size ≤ smpMax
  mask_eq : x.mask = 0xFFFF#24
  cursor_le : x.cursor ≤ x.mask
  empty_unless_attached : x.attached = false → x.buf = []

/-- A registry array's invariants (R340): distinct entries, no sentinel, at most BP_N - 1 of them. -/
structure ArrayOk (c : Config) (xs : List Word) : Prop where
  distinct : xs.Nodup
  no_sentinel : bpSentinel ∉ xs
  fits : xs.length + 1 ≤ c.bpN

/-- The board's invariant between steps: a legal configuration (R8), canonical memories (R23, R24), the slots' and the
arrays' invariants, the prescaler's range (R33), and no FRAME in progress (R44). -/
structure BoardInv (s : State) : Prop where
  config_valid : configValid s.cfg = true
  ram_wf : s.ram.wf ramSize = true
  rom_wf : s.rom.wf romSize = true
  slot_ok : ∀ sl, SlotOk (getSlot s sl)
  array_ok : ∀ arr, ArrayOk s.cfg (getArray s.registry arr)
  tonePre_le : s.snd.tonePre.toNat ≤ 128
  no_frame : s.frame = none

/-! ### Classes of operations -/

/-- The operations of `45_host_operations.md`, with RESET, KEY, ATTACH, DETACH, ISATT and FRAME: the host actions, taken
between frames only (R6, R14, R320; log 18). -/
def isHostAction : Instr → Bool
  | .frame => true
  | .reset => true
  | .loadRom _ => true
  | .loadRam _ _ => true
  | .setConfig _ => true
  | .key _ _ => true
  | .attach _ _ => true
  | .detach _ => true
  | .isAtt _ => true
  | .setSoundCb _ => true
  | .setSound _ => true
  | .setBp _ => true
  | .save => true
  | .load _ => true
  | .video => true
  | .bpAdd _ _ => true
  | .bpRemove _ _ => true
  | .bpSetTemp _ => true
  | .bpClearAll _ => true
  | _ => false

/-- ATTACH or DETACH. -/
def changesImages : Instr → Bool
  | .attach _ _ => true
  | .detach _ => true
  | _ => false

/-- LOADRAM or LOAD, the operations that write RAM without the bus (R23). -/
def loadsRam : Instr → Bool
  | .loadRam _ _ => true
  | .load _ => true
  | _ => false

/-- LOADROM or LOAD, the only operations that write ROM (R24). -/
def loadsRom : Instr → Bool
  | .loadRom _ => true
  | .load _ => true
  | _ => false

/-- EXEC or FRAME, inside which the CPU issues transactions of its own choice (R282). -/
def runsCpu : Instr → Bool
  | .cpuExec => true
  | .frame => true
  | _ => false

/-- The operations with which the host writes an element that neither a transaction nor an event of a frame writes. -/
def hostWrites : Instr → Bool
  | .reset => true
  | .loadRom _ => true
  | .loadRam _ _ => true
  | .setConfig _ => true
  | .attach _ _ => true
  | .detach _ => true
  | .setSoundCb _ => true
  | .setSound _ => true
  | .setBp _ => true
  | .load _ => true
  | .bpAdd _ _ => true
  | .bpRemove _ _ => true
  | .bpSetTemp _ => true
  | .bpClearAll _ => true
  | _ => false

/-- The operations that read the data register: EXT_DATA.R, and the transactions whose containing word is A_EXT_DATA, the
byte write by its read half among them (R79, R213). -/
def readsDataPort (c : Config) : Instr → Bool
  | .extDataR => true
  | .rdw a _ => evenAddr a == c.aExtData
  | .rdb a _ => evenAddr a == c.aExtData
  | .wrb a _ _ => evenAddr a == c.aExtData
  | .fetch a _ => evenAddr a == c.aExtData
  | _ => false

/-- The operation that is a transaction of the CPU's, with the halt-mode bit it presents (R142). -/
def busInstr (op : BusOp) (halt : Bool) : Instr :=
  match op with
  | .readWord a => .rdw a halt
  | .readByte a => .rdb a halt
  | .writeWord a v => .wrw a v halt
  | .writeByte a b => .wrb a b halt
  | .fetchWord a => .fetch a halt

/-- A RAM index the bus reaches (R23, R72). -/
def busReaches (i : Nat) : Prop := ∃ a : Word, classify a = .ram a ∧ a.toNat = i

/-! ### Terms of the ports (R191) -/

/-- The ports of the six plain storage registers (R191), each at each of its addresses. -/
def plainPorts (c : Config) : List Word :=
  [c.aLcdAddr0, c.aLcdAddr1, c.aLcdConf0, c.aLcdConf1, c.aLcdIndex, c.aSndCtl, c.aSndReload, c.aEnvReload]

/-- The calls made after `ExtComplete()` (R219): one EXT request, unless bit 5 of the control word masks it. -/
def extSignals (s : State) : List Signal :=
  if s.ext.control.getLsbD 5 then s.out.signals else .interruptVirq s.cfg.extLevel s.cfg.extVector :: s.out.signals

/-- The answers that say BusFault was raised. -/
def isFaultAnswer : Answer → Bool
  | .faultWord _ => true
  | .faultByte _ => true
  | .faultWrite => true
  | _ => false

/-! ### Runs -/

/-- The state after a run of operations, none when one of them does not complete. -/
def runInstrs : List Instr → State → Option State
  | [], s => some s
  | i :: is, s =>
    match exec i s with
    | .next t => runInstrs is t
    | .fault _ => none
    | .refused _ => none

/-! ### The frame's events (R281, R289) -/

/-- The events of a frame; EXEC carries its frametick and subtick. -/
inductive Event where
  | exec (t k : Nat)
  | bpchk
  | ttick
  | tick50
  | dosound
  deriving DecidableEq, Repr

/-- The three events of one subtick (R289). -/
def subtick (t k : Nat) : List Event := [.exec t k, .bpchk, .ttick]

/-- The sixteen subticks of frametick `t`: E0 B0 T0 … E15 B15 T15 (R289). -/
def subtickEvents (t : Nat) : List Event :=
  (List.range subTicks).flatMap (subtick t)

/-- The events of frametick `t` (R289). -/
def tickEvents (c : Config) (t : Nat) : List Event :=
  subtickEvents t ++ (if t = 0 ∨ t = tick50Second then [.tick50] else []) ++
  (if t % audioPeriod c = 0 then [.dosound] else [])

/-- The events of a whole frame (R281). -/
def frameEvents (c : Config) : List Event := (List.range frameTicks).flatMap (tickEvents c)

/-- Is the event an EXEC? -/
def isExecEvent : Event → Bool
  | .exec _ _ => true
  | _ => false

/-- One event on the state; the boolean is "stop here". -/
def runEvent (e : Event) (s : State) : Bool × State :=
  match e with
  | .exec t k => (false, cpuExecute (setFrame (some ⟨t, k⟩) s))
  | .bpchk => (breakpointHit s, s)
  | .ttick => (false, timerTick s)
  | .tick50 => (false, tick50Event s)
  | .dosound => (false, doSoundEvent s)

/-- A list of events, stopping after the first that says so: whether it stopped, the events performed, the state. -/
def runEvents : List Event → State → Bool × List Event × State
  | [], s => (false, [], s)
  | e :: es, s =>
    if (runEvent e s).1 then (true, [e], (runEvent e s).2)
    else
      let r := runEvents es (runEvent e s).2
      (r.1, e :: r.2.1, r.2.2)

end Sys2Proof.Machine
end

