-- ==== Sys2Proof/Certificates/Slice0/Obligations.lean ====
section
/-!
DEFINITION. The statements for the provers. Each names in its docstring the rules of spec/ it formalises. A statement that
gives the next state as an equation says with it that everything the equation does not name is unchanged: every register,
every byte of RAM and ROM, every slot, the registry, the CPU, the inbox.
-/
open Sys2Proof Sys2Proof.Machine

/-! ### Encodings -/

/-- R100 to R108, log 2: every well-formed operation decodes from its encoding, with every operand at every value. The
layouts of formats BUS and EVT and of the operand bytes are the model's choice (log 2). -/
def Obligations.EveryWellFormedOperationDecodesFromItsEncoding : Prop :=
  ∀ (c : Config) (i : Instr), configValid c = true → wellFormed c i = true → decode c (encode c i) = .instr i

/-- R100 to R108, log 2: what the decoder reads is well formed, and outside format PORT (where bit 0 of an assigned
address is ignored) it keeps every bit of the stimulus. -/
def Obligations.DecodedOperationsAreWellFormedAndKeepTheirBytes : Prop :=
  ∀ (c : Config) (st : Stimulus) (i : Instr), decode c st = .instr i →
    wellFormed c i = true ∧ (st.fmt ≠ .port → encode c i = st)

/-- R101, R102, R104, R106: words of the opcode table under REFCFG, and one stimulus of each other format. Which format an
untyped word has is the model's choice (log 3), the layouts of BUS and EVT are (log 2). -/
def Obligations.TableWordsDecodeToTheirRows : Prop :=
  decodeTableWord 16 0xE800 = some (.lcdAddrR .a0) ∧ decodeTableWord 16 0xE804 = some (.lcdAddrR .a1) ∧
  decodeTableWord 16 0xE810 = some .extDataR ∧ decodeTableWord 16 0xE814 = some .extCsR ∧
  decodeTableWord 16 0xE812 = some (.portUnassigned 0xE812#16 .readWord) ∧
  decodeTableWord 16 0x0028 = some (.devSmp0Wr 0x002#12) ∧ decodeTableWord 16 0x0002 = some (.devKbdRd 0#12) ∧
  decodeTableWord 8 0xD7 = some (.smpRdInc 7#4 .s0 .none) ∧ decodeTableWord 8 0x10 = some (.smpRdDec 0#4 .s0 .none) ∧
  decode Config.refcfg ⟨.addr16, [0xFF#8, 0x3F#8, 1#8]⟩ = .instr (.ramLow 0x3FFF#16 true false) ∧
  decode Config.refcfg ⟨.bus, [2#8, 0x14#8, 0xE8#8, 0x08#8, 0x00#8, 0#8]⟩ = .instr (.wrw 0xE814#16 0x0008#16 false) ∧
  decode Config.refcfg ⟨.evt, [13#8, 0x45#8, 1#8]⟩ = .instr (.key 0x45#8 true)

/-! ### The step -/

/-- R14, R85, log 1: a stimulus that decodes to a well-formed operation is run, at the state that has taken it. R5, R11,
log 36: the stimulus of `CPU.SetPC(v)`, which is no operation of the opcode table, sets the CPU's program counter between
frames, and takes no step during a frame. What the CPU's 32 bytes then are is free; that its mode bit is kept, and the
stimulus itself, are the model's choice (log 36). -/
def Obligations.StepRunsTheDecodedOperation : Prop :=
  ∀ (s : State) (st : Stimulus) (rest : List Stimulus), configValid s.cfg = true → s.inbox = st :: rest →
    (∀ i, decode s.cfg st = .instr i → wellFormed s.cfg i = true → step s = exec i { s with inbox := rest }) ∧
    (∀ v : Word, st = ⟨.cpu, [lo8 v, hi8 v]⟩ →
      (s.frame = none → step s = .next (answered .done { s with
        inbox := rest, cpu := { s.cpu with pc := v, image := Config.cpuImageAfterSetPc s.cpu.image v } })) ∧
      (∀ p, s.frame = some p → step s = .refused .hostOverlap))

/-- R8: "a configuration that breaks one is refused", and R284 the same of SAMPLE_RATE: whatever the stimulus, a step is
refused for its configuration exactly when that breaks one of the constraints of R8's last column. That the refusal is made
by the step is the model's choice (log 4). The spec's own decisions: D5, D10, D22, D26, D32 (92_eei_decisions.md). -/
def Obligations.ConfigurationsThatBreakAConstraintTakeNoStep : Prop :=
  ∀ s : State, step s = .refused .badConfiguration ↔ ¬ ConfigConstraints s.cfg

/-! ### Regions -/

/-- R141, R140, R101: each region row answers what the translator gives for its address, whatever the discriminators. The
rows test by mask and match, the translator by bounds. That a row is run as an address offered to the translator is the
model's reading (log 26). -/
def Obligations.RegionRowsGiveTheTranslatorsAnswer : Prop :=
  ∀ (c : Config) (a : Word) (halt exe : Bool) (s : State) (i : Instr),
    i ∈ [Instr.ramLow a halt exe, .denied a halt exe, .ioA a halt exe, .ioB a halt exe, .ioC a halt exe, .ioD a halt exe,
         .winRam a halt exe, .rom a halt exe, .ramTop a halt exe] →
    wellFormed c i = true →
    exec i s = .next (answered (.region (placeKind (translateAddr a halt exe)) (placeOffset (translateAddr a halt exe))) s)

/-- R140, R141, R82: the translator is `Classify` whatever the discriminators, and that is the map in address order. -/
def Obligations.TranslationIsTheFixedMap : Prop :=
  ∀ (a : Word) (halt exe : Bool),
    translateAddr a halt exe = classify a ∧
    (a.toNat ≤ 0x3FFF → translateAddr a halt exe = .ram a) ∧
    (0x4000 ≤ a.toNat ∧ a.toNat ≤ 0x7FFF → translateAddr a halt exe = .denied) ∧
    (0x8000 ≤ a.toNat ∧ a.toNat ≤ 0xE7FF → translateAddr a halt exe = .rom (BitVec.ofNat 16 (a.toNat - 0x8000))) ∧
    (0xE800 ≤ a.toNat ∧ a.toNat ≤ 0xE807 → translateAddr a halt exe = .io a) ∧
    (0xE808 ≤ a.toNat ∧ a.toNat ≤ 0xE80F → translateAddr a halt exe = .ram a) ∧
    (0xE810 ≤ a.toNat ∧ a.toNat ≤ 0xE817 → translateAddr a halt exe = .io a) ∧
    (0xE818 ≤ a.toNat ∧ a.toNat ≤ 0xE819 → translateAddr a halt exe = .ram a) ∧
    (0xE81A ≤ a.toNat ∧ a.toNat ≤ 0xE81D → translateAddr a halt exe = .io a) ∧
    (0xE81E ≤ a.toNat ∧ a.toNat ≤ 0xE9FF → translateAddr a halt exe = .ram a) ∧
    (0xEA00 ≤ a.toNat ∧ a.toNat ≤ 0xEA7F → translateAddr a halt exe = .io a) ∧
    (0xEA80 ≤ a.toNat ∧ a.toNat ≤ 0xEBFF → translateAddr a halt exe = .ram a) ∧
    (0xEC00 ≤ a.toNat ∧ a.toNat ≤ 0xF9B5 → translateAddr a halt exe = .rom (BitVec.ofNat 16 (a.toNat - 0x8000))) ∧
    (0xF9B6 ≤ a.toNat → translateAddr a halt exe = .ram a)

/-- R113: under SMP.WR_ADDR, on a slot that has a cartridge, each data byte written shifts into the cursor under the mask,
so with the mask 0xFFFF two bytes written, high byte first, are the cursor, whatever it held before, and one byte follows
the low byte it held. -/
def Obligations.CursorAssemblyShiftsDataBytesHighFirst : Prop :=
  ∀ (sl : SlotIx) (s : State), (getSlot s sl).attached = true → (getSlot s sl).command.extractLsb' 4 4 = 0xA#4 →
    (∀ b : Byte, exec (.slotWrData sl b) s = .next (answered .done (setSlot sl
      { getSlot s sl with cursor := (((getSlot s sl).cursor <<< 8) ||| b.setWidth 24) &&& (getSlot s sl).mask } s))) ∧
    ((getSlot s sl).mask = 0xFFFF#24 →
      (∀ h l : Byte, ∃ t, runInstrs [.slotWrData sl h, .slotWrData sl l] s = some t ∧
        (getSlot t sl).cursor = (h ++ l).setWidth 24) ∧
      (∀ b : Byte, ∃ t, runInstrs [.slotWrData sl b] s = some t ∧
        (getSlot t sl).cursor = ((getSlot s sl).cursor.extractLsb' 0 8 ++ b).setWidth 24))

/-! ### Bus transactions -/

/-- R143, R144, R147: reads of RAM and ROM answer the stored bytes, low byte at the even index, and change nothing; FETCH is
RDW "in every respect", faults and ports included.
The spec's own decisions: D2, D3 (92_eei_decisions.md). -/
def Obligations.MemoryReadsAnswerTheStoredBytes : Prop :=
  ∀ (a o : Word) (halt : Bool) (s : State),
    exec (.fetch a halt) s = exec (.rdw a halt) s ∧
    (classify (evenAddr a) = .ram o →
      exec (.rdw a halt) s = .next (answered (.word (word16 (ramByte s (o.toNat + 1)) (ramByte s o.toNat))) s) ∧
      exec (.fetch a halt) s = .next (answered (.word (word16 (ramByte s (o.toNat + 1)) (ramByte s o.toNat))) s)) ∧
    (classify (evenAddr a) = .rom o →
      exec (.rdw a halt) s = .next (answered (.word (word16 (romByte s (o.toNat + 1)) (romByte s o.toNat))) s) ∧
      exec (.fetch a halt) s = .next (answered (.word (word16 (romByte s (o.toNat + 1)) (romByte s o.toNat))) s)) ∧
    (classify a = .ram o → exec (.rdb a halt) s = .next (answered (.byte (ramByte s o.toNat)) s)) ∧
    (classify a = .rom o → exec (.rdb a halt) s = .next (answered (.byte (romByte s o.toNat)) s))

/-- R145, R146: writes to RAM store their bytes at the offset `Classify` gives, and nothing else changes, in RAM or out of
it.
The spec's own decisions: D2, D3 (92_eei_decisions.md). -/
def Obligations.RamWritesStoreTheirBytesAlone : Prop :=
  ∀ (a o v : Word) (b : Byte) (halt : Bool) (s : State),
    (classify (evenAddr a) = .ram o →
      ∃ m, exec (.wrw a v halt) s = .next (answered .done { s with ram := m }) ∧
        ∀ i, ramByte { s with ram := m } i =
          if i = o.toNat then lo8 v else if i = o.toNat + 1 then hi8 v else ramByte s i) ∧
    (classify a = .ram o →
      ∃ m, exec (.wrb a b halt) s = .next (answered .done { s with ram := m }) ∧
        ∀ i, ramByte { s with ram := m } i = if i = o.toNat then b else ramByte s i)

/-- R75, R76: the two bytes of the word that contains an address are of the address's kind, so a word never straddles two
regions, and a word access at either of its addresses and the byte accesses at both see one array of RAM, both ways.
The spec's own decisions: D2, D3 (92_eei_decisions.md). -/
def Obligations.WordAndByteAccessesSeeOneArray : Prop :=
  ∀ a : Word,
    (placeKind (classify (evenAddr a)) = placeKind (classify a) ∧
      placeKind (classify (evenAddr a + 1#16)) = placeKind (classify a)) ∧
    ∀ (o v : Word) (x y : Byte) (halt : Bool) (s : State), classify (evenAddr a) = .ram o →
      (∃ t, runInstrs [.wrw a v halt, .rdb (evenAddr a) halt] s = some t ∧ t.out.answer = .byte (lo8 v)) ∧
      (∃ t, runInstrs [.wrw a v halt, .rdb (evenAddr a + 1#16) halt] s = some t ∧ t.out.answer = .byte (hi8 v)) ∧
      (∃ t, runInstrs [.wrb (evenAddr a) x halt, .wrb (evenAddr a + 1#16) y halt, .rdw a halt] s = some t ∧
        t.out.answer = .word (word16 y x))

/-- R371, R370, R81: an access to Denied and a write to ROM raise BusFault: `MemoryError` once, nothing stored, the value
of a faulting read free (log 13), the log entry R372 allows. That the call itself leaves the CPU's program counter, mode
bit and 32 bytes is the model's choice (log 38).
The spec's own decisions: D4, D35 (92_eei_decisions.md). -/
def Obligations.DeniedAccessesAndRomWritesRaiseBusFault : Prop :=
  ∀ (a v o : Word) (b : Byte) (halt : Bool) (s : State),
    (classify (evenAddr a) = .denied →
      exec (.rdw a halt) s = .next { s with out := { s.out with
        answer := .faultWord (Config.faultWord s.out.draws), draws := s.out.draws + 1
        signals := .memoryError :: s.out.signals
        faultLog := ⟨.fDenied, ⟨a, .word, .read⟩⟩ :: s.out.faultLog } } ∧
      exec (.fetch a halt) s = exec (.rdw a halt) s ∧
      exec (.wrw a v halt) s = .next { s with out := { s.out with
        answer := .faultWrite, signals := .memoryError :: s.out.signals
        faultLog := ⟨.fDenied, ⟨a, .word, .write⟩⟩ :: s.out.faultLog } }) ∧
    (classify a = .denied →
      exec (.rdb a halt) s = .next { s with out := { s.out with
        answer := .faultByte (Config.faultByte s.out.draws), draws := s.out.draws + 1
        signals := .memoryError :: s.out.signals
        faultLog := ⟨.fDenied, ⟨a, .byte, .read⟩⟩ :: s.out.faultLog } } ∧
      exec (.wrb a b halt) s = .next { s with out := { s.out with
        answer := .faultWrite, signals := .memoryError :: s.out.signals
        faultLog := ⟨.fDenied, ⟨a, .byte, .write⟩⟩ :: s.out.faultLog } }) ∧
    (classify (evenAddr a) = .rom o →
      exec (.wrw a v halt) s = .next { s with out := { s.out with
        answer := .faultWrite, signals := .memoryError :: s.out.signals
        faultLog := ⟨.fRomWrite, ⟨a, .word, .write⟩⟩ :: s.out.faultLog } }) ∧
    (classify a = .rom o →
      exec (.wrb a b halt) s = .next { s with out := { s.out with
        answer := .faultWrite, signals := .memoryError :: s.out.signals
        faultLog := ⟨.fRomWrite, ⟨a, .byte, .write⟩⟩ :: s.out.faultLog } })

/-- R185, R371, R174, D35: PORT.UNASSIGNED raises BusFault, cause F_PORT, for either direction and width, and changes
nothing; a bus access to an unassigned port is that, the byte write raising its one fault in its read half. The value of a
faulting read is free (log 13). That the call `MemoryError` itself leaves the CPU's program counter, mode bit and 32 bytes
is the model's choice (log 38). -/
def Obligations.UnassignedPortsRaiseBusFault : Prop :=
  ∀ (a v : Word) (b : Byte) (s : State), wellFormed s.cfg (.portUnassigned a .readWord) = true →
    exec (.portUnassigned a .readWord) s = .next { s with out := { s.out with
      answer := .faultWord (Config.faultWord s.out.draws), draws := s.out.draws + 1
      signals := .memoryError :: s.out.signals
      faultLog := ⟨.fPort, ⟨a, .word, .read⟩⟩ :: s.out.faultLog } } ∧
    exec (.portUnassigned a .readByte) s = .next { s with out := { s.out with
      answer := .faultByte (Config.faultByte s.out.draws), draws := s.out.draws + 1
      signals := .memoryError :: s.out.signals
      faultLog := ⟨.fPort, ⟨a, .byte, .read⟩⟩ :: s.out.faultLog } } ∧
    exec (.portUnassigned a (.writeWord v)) s = .next { s with out := { s.out with
      answer := .faultWrite, signals := .memoryError :: s.out.signals
      faultLog := ⟨.fPort, ⟨a, .word, .write⟩⟩ :: s.out.faultLog } } ∧
    exec (.portUnassigned a (.writeByte b)) s = .next { s with out := { s.out with
      answer := .faultWrite, signals := .memoryError :: s.out.signals
      faultLog := ⟨.fPort, ⟨a, .byte, .write⟩⟩ :: s.out.faultLog } } ∧
    (∀ halt, exec (.rdw a halt) s = exec (.portUnassigned a .readWord) s ∧
      exec (.fetch a halt) s = exec (.portUnassigned a .readWord) s ∧
      exec (.rdb a halt) s = exec (.portUnassigned a .readByte) s ∧
      exec (.wrw a v halt) s = exec (.portUnassigned a (.writeWord v)) s ∧
      exec (.wrb a b halt) s = exec (.portUnassigned a (.writeByte b)) s)

/-- R373, R384: a faulting transaction changes nothing of the block (only the model's outbox: the signal, the log, the
draw) and raises exactly one `MemoryError`; a transaction that does not fault makes no call or one EXT request. That the
call `MemoryError` itself leaves the CPU's program counter, mode bit and 32 bytes too is the model's choice (log 38).
The spec's own decisions: D8, D16, D35 (92_eei_decisions.md). -/
def Obligations.TransactionsFaultCleanlyAndCallTheCpuAtMostOnce : Prop :=
  ∀ (op : BusOp) (halt : Bool) (s : State),
    if isFaultAnswer (busTransaction op halt s).out.answer then
      { busTransaction op halt s with out := s.out } = s ∧
      (busTransaction op halt s).out.signals = .memoryError :: s.out.signals
    else
      (busTransaction op halt s).out.signals = s.out.signals ∨
      (busTransaction op halt s).out.signals = .interruptVirq s.cfg.extLevel s.cfg.extVector :: s.out.signals

/-- R148, R149: the debug views answer RAM and ROM, and 0 for Denied and I/O; no fault, no state change.
The spec's own decision: D29 (92_eei_decisions.md). -/
def Obligations.DebugViewsAnswerWithoutFaultOrEffect : Prop :=
  ∀ (a : Word) (s : State),
    exec (.viewW a) s = .next (answered (.word (match classify (evenAddr a) with
      | .ram o => word16 (ramByte s (o.toNat + 1)) (ramByte s o.toNat)
      | .rom o => word16 (romByte s (o.toNat + 1)) (romByte s o.toNat)
      | .io _ => 0#16
      | .denied => 0#16)) s) ∧
    exec (.viewB a) s = .next (answered (.byte (match classify a with
      | .ram o => ramByte s o.toNat
      | .rom o => romByte s o.toNat
      | .io _ => 0#8
      | .denied => 0#8)) s)

/-! ### Port registers -/

/-- R175, R177, R179, R181, R183, R187: a read of a plain register answers the stored word, through either alias, and
changes nothing.
The spec's own decision: D7 (92_eei_decisions.md). -/
def Obligations.PlainRegisterReadsAnswerTheStoredWord : Prop :=
  ∀ (p : AliasIx) (s : State),
    exec (.lcdAddrR p) s = .next (answered (.word s.lcd.addr) s) ∧
    exec (.lcdConfR p) s = .next (answered (.word s.lcd.conf) s) ∧
    exec .lcdIndexR s = .next (answered (.word s.lcd.index) s) ∧
    exec .sndCtlR s = .next (answered (.word s.snd.ctl) s) ∧
    exec .sndReloadR s = .next (answered (.word s.snd.reload) s) ∧
    exec .envReloadR s = .next (answered (.word s.snd.envReload) s)

/-- R176, R178, R180, R182, R184, R188: a write of a plain register stores all 16 bits, through either alias, and nothing
else changes (no counter is touched).
The spec's own decision, for SND_CTL.W: D23 (92_eei_decisions.md). -/
def Obligations.PlainRegisterWritesStoreAllSixteenBits : Prop :=
  ∀ (p : AliasIx) (v : Word) (s : State),
    exec (.lcdAddrW p v) s = .next (answered .done { s with lcd := { s.lcd with addr := v } }) ∧
    exec (.lcdConfW p v) s = .next (answered .done { s with lcd := { s.lcd with conf := v } }) ∧
    exec (.lcdIndexW v) s = .next (answered .done { s with lcd := { s.lcd with index := v } }) ∧
    exec (.sndCtlW v) s = .next (answered .done { s with snd := { s.snd with ctl := v } }) ∧
    exec (.sndReloadW v) s = .next (answered .done { s with snd := { s.snd with reload := v } }) ∧
    exec (.envReloadW v) s = .next (answered .done { s with snd := { s.snd with envReload := v } })

/-- R171, R172, R102, R143, R145, R147, R76: under every legal port placement, a word read, a fetch and a word write at a
register's address, bit 0 of the address ignored, are that register's port operations.
The spec's own decisions: D3, D5, D6 (92_eei_decisions.md). -/
def Obligations.WordAccessAtAPortIsThePortOperation : Prop :=
  ∀ (a e v : Word) (halt : Bool) (s : State) (r w : Instr), configValid s.cfg = true → evenAddr a = e →
    (e, r, w) ∈ [(s.cfg.aLcdAddr0, Instr.lcdAddrR .a0, Instr.lcdAddrW .a0 v),
      (s.cfg.aLcdAddr1, .lcdAddrR .a1, .lcdAddrW .a1 v), (s.cfg.aLcdConf0, .lcdConfR .a0, .lcdConfW .a0 v),
      (s.cfg.aLcdConf1, .lcdConfR .a1, .lcdConfW .a1 v), (s.cfg.aLcdIndex, .lcdIndexR, .lcdIndexW v),
      (s.cfg.aExtData, .extDataR, .extDataW v), (s.cfg.aExtCs, .extCsR, .extCsW v), (s.cfg.aExtCmd, .extCmdR, .extCmdW v),
      (s.cfg.aSndCtl, .sndCtlR, .sndCtlW v), (s.cfg.aSndReload, .sndReloadR, .sndReloadW v),
      (s.cfg.aEnvReload, .envReloadR, .envReloadW v)] →
    exec (.rdw a halt) s = exec r s ∧ exec (.fetch a halt) s = exec r s ∧ exec (.wrw a v halt) s = exec w s

/-- R190: replacing one alias of an LCD register by the other in any transaction changes no result and no state.
The spec's own decisions: D5, D7 (92_eei_decisions.md). -/
def Obligations.LcdAliasesAreInterchangeable : Prop :=
  ∀ (k v : Word) (b : Byte) (halt : Bool) (s : State), configValid s.cfg = true → (k = 0#16 ∨ k = 1#16) →
    ∀ e e', (e = s.cfg.aLcdAddr0 ∧ e' = s.cfg.aLcdAddr1) ∨ (e = s.cfg.aLcdConf0 ∧ e' = s.cfg.aLcdConf1) →
      exec (.rdw (e + k) halt) s = exec (.rdw (e' + k) halt) s ∧
      exec (.rdb (e + k) halt) s = exec (.rdb (e' + k) halt) s ∧
      exec (.wrw (e + k) v halt) s = exec (.wrw (e' + k) v halt) s ∧
      exec (.wrb (e + k) b halt) s = exec (.wrb (e' + k) b halt) s ∧
      exec (.fetch (e + k) halt) s = exec (.fetch (e' + k) halt) s

/-- R191: a plain register reads back the word written to it, and two byte writes in either order read back combined.
The spec's own decisions: D7, D8 (92_eei_decisions.md). -/
def Obligations.PlainPortsReadBackWhatWasWritten : Prop :=
  ∀ (e v : Word) (x y : Byte) (halt : Bool) (s : State), configValid s.cfg = true → e ∈ plainPorts s.cfg →
    (∃ t, runInstrs [.wrw e v halt, .rdw e halt] s = some t ∧ t.out.answer = .word v) ∧
    (∃ t, runInstrs [.wrb e x halt, .wrb (e + 1#16) y halt, .rdw e halt] s = some t ∧
      t.out.answer = .word (word16 y x)) ∧
    (∃ t, runInstrs [.wrb (e + 1#16) y halt, .wrb e x halt, .rdw e halt] s = some t ∧
      t.out.answer = .word (word16 y x))

/-- R173, R174, R431: a byte read of an assigned port is the containing word's read and a lane; a byte write is that read,
side effects included, the merge, and the word write.
The spec's own decision: D8 (92_eei_decisions.md). -/
def Obligations.PortByteAccessGoesThroughTheContainingWord : Prop :=
  ∀ (a : Word) (b : Byte) (r : PortReg) (halt : Bool) (s : State), isIo a = true →
    portMap s.cfg (evenAddr a) = some r →
    exec (.rdb a halt) s = .next (answered (.byte (laneOf a (portValue r s))) (portAfterRead r s)) ∧
    exec (.wrb a b halt) s =
      .next (answered .done (portAfterWrite r (laneMerge a (portValue r s) b) (portAfterRead r s)))

/-! ### The external-device controller -/

/-- R211: a control write stores all 16 bits, and while Selected a write CTRL_WRITE_ENDS names returns to Idle.
The spec's own decisions: D9, D15 (92_eei_decisions.md). -/
def Obligations.ControlWriteStoresTheWordAndMayDeselect : Prop :=
  ∀ (v : Word) (s : State),
    exec (.extCsW v) s = .next (answered .done { s with ext := { s.ext with
      control := v
      selected := if s.ext.selected = true ∧ ctrlWriteEnds s.cfg s.ext.control v = true then false else s.ext.selected } })

/-- R216, R105, R215: the status read answers the synthesized word and changes nothing; the command read answers the
stored command and deselects.
The spec's own decisions: D6, D10, D14 (92_eei_decisions.md). -/
def Obligations.StatusAndCommandReadsAnswerTheirWords : Prop :=
  ∀ s : State,
    exec .extCsR s = .next (answered (.word (s.cfg.statusFixed ||| (s.ext.control &&& s.cfg.statusCtrlMask) |||
      (if s.ext.selected then 0#16 else s.cfg.statusDesel))) s) ∧
    exec .extCmdR s = .next (answered (.word (zext16 s.ext.command)) { s with ext := { s.ext with selected := false } })

/-- R212, R219, R254: a command write stores the command, selects, and, routed to a slot, reaches it (attached or the
command is dropped) and raises EXT unless masked. That the call of EXT itself leaves the CPU's program counter, mode bit
and 32 bytes is the model's choice (log 38).
The spec's own decisions: D12, D16, D40 (92_eei_decisions.md). -/
def Obligations.CommandWriteSelectsAndReachesTheSlot : Prop :=
  ∀ (v : Word) (s : State),
    (writeTarget (ctrlDev s.ext.control) = none →
      exec (.extCmdW v) s = .next (answered .done { s with ext := { s.ext with command := lo8 v, selected := true } })) ∧
    (∀ sl, writeTarget (ctrlDev s.ext.control) = some sl →
      exec (.extCmdW v) s = .next (answered .done (setSlot sl
        (if (getSlot s sl).attached then { getSlot s sl with command := lo8 v } else getSlot s sl)
        { s with
          ext := { s.ext with command := lo8 v, selected := true }
          out := { s.out with signals := extSignals s } })))

/-- R213, R218, R219: a data read is routed by the device nibble: to the keyboard latch, which it returns and clears; to a
slot, whose byte it returns and whose cursor it steps, raising EXT unless masked; nowhere, which returns 0x00FF. That the
call of EXT itself leaves the CPU's program counter, mode bit and 32 bytes is the model's choice (log 38).
The spec's own decisions: D11, D12, D13, D16 (92_eei_decisions.md). -/
def Obligations.DataReadIsRoutedByTheDeviceNibble : Prop :=
  ∀ s : State,
    (readTarget (ctrlDev s.ext.control) = .keyboard →
      exec .extDataR s = .next (answered (.word (zext16 s.ext.shift)) { s with ext := { s.ext with shift := 0xFF#8 } })) ∧
    (readTarget (ctrlDev s.ext.control) = .nothing → exec .extDataR s = .next (answered (.word 0x00FF#16) s)) ∧
    (∀ sl, readTarget (ctrlDev s.ext.control) = .slot sl →
      exec .extDataR s = .next (answered (.word (zext16 (getSlot s sl).readByte)) (setSlot sl (getSlot s sl).afterRead
        { s with out := { s.out with signals := extSignals s } })))

/-- R214, R218, R219: a data write under a write nibble reaches its slot and raises EXT unless masked; under any other
nibble it is dropped. That the call of EXT itself leaves the CPU's program counter, mode bit and 32 bytes is the model's
choice (log 38).
The spec's own decisions: D11, D12, D16 (92_eei_decisions.md). -/
def Obligations.DataWriteIsRoutedByTheDeviceNibble : Prop :=
  ∀ (v : Word) (s : State),
    (writeTarget (ctrlDev s.ext.control) = none → exec (.extDataW v) s = .next (answered .done s)) ∧
    (∀ sl, writeTarget (ctrlDev s.ext.control) = some sl →
      exec (.extDataW v) s = .next (answered .done (setSlot sl ((getSlot s sl).afterWrite (lo8 v))
        { s with out := { s.out with signals := extSignals s } })))

/-- R103, R104, R118, R211: a device select stores its control word, after which data reads, and data and command writes,
route as its row says; a malformed nibble routes nowhere. That the row is run as the control write is the model's reading
(log 25).
The spec's own decisions: D9, D12, D15 (92_eei_decisions.md). -/
def Obligations.DeviceSelectsRouteAsTheirRowsSay : Prop :=
  ∀ (hi : BitVec 12) (dev : BitVec 4) (s : State) (i : Instr) (n : BitVec 4) (rt : ReadTarget) (wt : Option SlotIx),
    (i, n, rt, wt) ∈ [(Instr.devSmp0Rd hi, 0#4, ReadTarget.slot .s0, none), (.devSmp1Rd hi, 1#4, .slot .s1, none),
      (.devKbdRd hi, 2#4, .keyboard, none), (.devSmp0Wr hi, 8#4, .nothing, some .s0),
      (.devSmp1Wr hi, 9#4, .nothing, some .s1), (.devNone hi dev, dev, .nothing, none)] →
    wellFormed s.cfg i = true →
    exec i s = .next (answered .done { s with ext := { s.ext with
      control := hi ++ n
      selected := s.ext.selected && !ctrlWriteEnds s.cfg s.ext.control (hi ++ n) } }) ∧
    readTarget (ctrlDev (hi ++ n)) = rt ∧ writeTarget (ctrlDev (hi ++ n)) = wt

/-- R217: a key event sets the latch, and raises KBD once when it is a press, whatever the mask, the nibble or the
selection. That the call of KBD itself leaves the CPU's program counter, mode bit and 32 bytes, so that SAVE after KEY
writes the bytes from before it, is the model's choice (log 38).
The spec's own decisions: D17, D18 (92_eei_decisions.md). -/
def Obligations.KeyEventsLatchTheCodeAndInterruptOnPress : Prop :=
  ∀ (sc : Byte) (pressed : Bool) (s : State), s.frame = none →
    exec (.key sc pressed) s = .next (answered .done { s with
      ext := { s.ext with shift := sc }
      out := { s.out with signals := (if pressed then .interruptVirq s.cfg.kbdLevel s.cfg.kbdVector :: s.out.signals
        else s.out.signals) } })

/-- R222: with bit 5 of the control word set, no bus transaction raises an interrupt; and outside EXEC and FRAME (inside
which the CPU may select the keyboard and read) the keyboard latch is changed only by KEY, by RESET, and by an operation
that reads the data port while `dev = 2`.
The spec's own decisions: D13, D16 (92_eei_decisions.md). -/
def Obligations.MaskSilencesTheControllerAndTheLatchKeeps : Prop :=
  (∀ (op : BusOp) (halt : Bool) (s : State), s.ext.control.getLsbD 5 = true →
    (busTransaction op halt s).out.signals = s.out.signals ∨
    (busTransaction op halt s).out.signals = .memoryError :: s.out.signals) ∧
  (∀ (i : Instr) (s t : State), exec i s = .next t → runsCpu i = false →
    (ctrlDev s.ext.control ≠ 2#4 ∨ readsDataPort s.cfg i = false) → (∀ sc p, i ≠ .key sc p) → i ≠ .reset → t.ext.shift = s.ext.shift)

/-! ### Storage slots -/

/-- R254, R255, R256: the slot operations: a command is stored if a cartridge is attached; a read answers by the command in
force; a write shifts the cursor under 0xA and is otherwise nothing; without a cartridge reads give 0xFF and nothing
changes.
The spec's own decisions: D19, D20, D21 (92_eei_decisions.md). -/
def Obligations.SlotOperationsFollowTheCommandInForce : Prop :=
  ∀ (sl : SlotIx) (c b : Byte) (s : State) (x : Slot), x = getSlot s sl →
    exec (.slotWrCmd sl c) s =
      .next (answered .done (setSlot sl (if x.attached then { x with command := c } else x) s)) ∧
    (x.attached = false →
      exec (.slotRdData sl) s = .next (answered (.byte 0xFF#8) s) ∧ exec (.slotWrData sl b) s = .next (answered .done s)) ∧
    (x.attached = true → x.command.extractLsb' 4 4 = 0x1#4 →
      exec (.slotRdData sl) s = .next (answered (.byte (x.buf.getD x.cursor.toNat 0xFF#8))
        (setSlot sl { x with cursor := (x.cursor - 1#24) &&& x.mask } s)) ∧
      exec (.slotWrData sl b) s = .next (answered .done s)) ∧
    (x.attached = true → x.command.extractLsb' 4 4 = 0xD#4 →
      exec (.slotRdData sl) s = .next (answered (.byte (x.buf.getD x.cursor.toNat 0xFF#8))
        (setSlot sl { x with cursor := (x.cursor + 1#24) &&& x.mask } s)) ∧
      exec (.slotWrData sl b) s = .next (answered .done s)) ∧
    (x.attached = true → x.command.extractLsb' 4 4 = 0xA#4 →
      exec (.slotRdData sl) s = .next (answered (.byte 0xFF#8) s) ∧
      exec (.slotWrData sl b) s = .next (answered .done
        (setSlot sl { x with cursor := ((x.cursor <<< 8) ||| b.setWidth 24) &&& x.mask } s))) ∧
    (x.attached = true → x.command.extractLsb' 4 4 ∉ [0x1#4, 0xD#4, 0xA#4] →
      exec (.slotRdData sl) s = .next (answered (.byte 0xFF#8) s) ∧ exec (.slotWrData sl b) s = .next (answered .done s))

/-- R257, R258, R259, R106: on an attached slot, SMP.RD_DEC and SMP.RD_INC put the command in force, a read answers the byte
at the cursor (0xFF past the end) and steps the cursor under the mask, a write is nothing; under SMP.WR_ADDR a write shifts
the byte into the cursor and a read gives 0xFF. That a command stimulus may bring
its next data access is the model's (log 24); the polarity is D19's. -/
def Obligations.ReadAndAddressCommandsActAtTheCursor : Prop :=
  ∀ (low : BitVec 4) (sl : SlotIx) (b : Byte) (s : State) (x : Slot), x = getSlot s sl → x.attached = true →
    exec (.smpRdDec low sl .none) s = .next (answered .done (setSlot sl { x with command := 0x1#4 ++ low } s)) ∧
    exec (.smpRdDec low sl .read) s = .next (answered (.byte (x.buf.getD x.cursor.toNat 0xFF#8))
      (setSlot sl { x with command := 0x1#4 ++ low, cursor := (x.cursor - 1#24) &&& x.mask } s)) ∧
    exec (.smpRdDec low sl (.write b)) s = .next (answered .done (setSlot sl { x with command := 0x1#4 ++ low } s)) ∧
    exec (.smpRdInc low sl .none) s = .next (answered .done (setSlot sl { x with command := 0xD#4 ++ low } s)) ∧
    exec (.smpRdInc low sl .read) s = .next (answered (.byte (x.buf.getD x.cursor.toNat 0xFF#8))
      (setSlot sl { x with command := 0xD#4 ++ low, cursor := (x.cursor + 1#24) &&& x.mask } s)) ∧
    exec (.smpRdInc low sl (.write b)) s = .next (answered .done (setSlot sl { x with command := 0xD#4 ++ low } s)) ∧
    exec (.smpWrAddr low sl .none) s = .next (answered .done (setSlot sl { x with command := 0xA#4 ++ low } s)) ∧
    exec (.smpWrAddr low sl .read) s = .next (answered (.byte 0xFF#8) (setSlot sl { x with command := 0xA#4 ++ low } s)) ∧
    exec (.smpWrAddr low sl (.write b)) s = .next (answered .done (setSlot sl { x with
      command := 0xA#4 ++ low, cursor := ((x.cursor <<< 8) ||| b.setWidth 24) &&& x.mask } s))

/-- R260 to R263, R119: the reserved and undefined commands on an attached slot: the byte is stored, a read gives 0xFF, a
write is nothing, cursor and image unchanged.
The spec's own decision: D21 (92_eei_decisions.md). -/
def Obligations.ReservedAndUndefinedCommandsDoNothing : Prop :=
  ∀ (c : Config) (op low : BitVec 4) (sl : SlotIx) (b : Byte) (s : State) (x : Slot) (i : NextAccess → Instr) (n : BitVec 4),
    x = getSlot s sl → x.attached = true →
    (i, n) ∈ [(Instr.smpWr20 low sl, 0x2#4), (Instr.smpWrC0 low sl, 0xC#4), (Instr.smpWrE0 low sl, 0xE#4),
      (Instr.smpUndef op low sl, op)] →
    wellFormed c (i .none) = true →
    exec (i .none) s = .next (answered .done (setSlot sl { x with command := n ++ low } s)) ∧
    exec (i .read) s = .next (answered (.byte 0xFF#8) (setSlot sl { x with command := n ++ low } s)) ∧
    exec (i (.write b)) s = .next (answered .done (setSlot sl { x with command := n ++ low } s))

/-- R254, R255, R256: every storage command on a slot without a cartridge is dropped: nothing changes, a read gives 0xFF.
The spec's own decision: D20 (92_eei_decisions.md). -/
def Obligations.CommandsToAnEmptySlotAreDropped : Prop :=
  ∀ (op low : BitVec 4) (sl : SlotIx) (b : Byte) (s : State) (i : NextAccess → Instr),
    (getSlot s sl).attached = false →
    i ∈ [Instr.smpRdDec low sl, Instr.smpRdInc low sl, Instr.smpWrAddr low sl, Instr.smpWr20 low sl,
      Instr.smpWrC0 low sl, Instr.smpWrE0 low sl, Instr.smpUndef op low sl] →
    exec (i .none) s = .next (answered .done s) ∧ exec (i .read) s = .next (answered (.byte 0xFF#8) s) ∧
    exec (i (.write b)) s = .next (answered .done s)

/-- R264: attach, write the address 0 by two command and data pairs, command a read: the k-th read answers the k-th byte,
the read after the last answers 0xFF, and the cursor ends at N + 1.
The spec's own decisions: D19, D21 (92_eei_decisions.md). -/
def Obligations.CartridgeReadsBackItsImageInOrder : Prop :=
  ∀ (img : List Byte) (sl : SlotIx) (s : State) (k : Nat), s.frame = none → img.length ≤ 10240 → k ≤ img.length →
    ∃ t, runInstrs ([.attach sl (some img), .slotWrCmd sl 0xA0#8, .slotWrData sl 0x00#8, .slotWrCmd sl 0xA0#8,
        .slotWrData sl 0x00#8, .slotWrCmd sl 0xD0#8] ++ List.replicate (k + 1) (.slotRdData sl)) s = some t ∧
      t.out.answer = .byte (img.getD k 0xFF#8) ∧ (getSlot t sl).cursor.toNat = k + 1 ∧ (getSlot t sl).buf = img

/-- R266, R250: a slot's image changes only in ATTACH and DETACH; every other operation, FRAME with any CPU behaviour
among them, leaves both images, their attachment and their masks. -/
def Obligations.ImagesChangeOnlyByAttachAndDetach : Prop :=
  ∀ (i : Instr) (s t : State) (sl : SlotIx), exec i s = .next t → changesImages i = false →
    (getSlot t sl).buf = (getSlot s sl).buf ∧ (getSlot t sl).attached = (getSlot s sl).attached ∧
    (getSlot t sl).mask = (getSlot s sl).mask

/-- R251, R374: attach replaces the slot and answers true, or answers false and changes nothing.
The spec's own decision: D37 (92_eei_decisions.md). -/
def Obligations.AttachReplacesTheSlotOrChangesNothing : Prop :=
  ∀ (sl : SlotIx) (img : List Byte) (s : State), s.frame = none →
    (img.length ≤ 10240 → exec (.attach sl (some img)) s =
      .next (answered (.bool true) (setSlot sl ⟨true, img, 0xFFFF#24, 0#24, 0#8⟩ s))) ∧
    (10240 < img.length → exec (.attach sl (some img)) s = .next (answered (.bool false) s)) ∧
    exec (.attach sl none) s = .next (answered (.bool false) s)

/-- R252, R253, and R14, R87, R320 for "between frames": detach empties the slot and keeps its cursor, command and mask;
ISATT answers. That a position in the field `frame` is "a FRAME runs" is the model's choice (log 18). -/
def Obligations.DetachEmptiesTheSlotAndQueryAnswers : Prop :=
  ∀ (sl : SlotIx) (s : State), s.frame = none →
    exec (.detach sl) s = .next (answered .done (setSlot sl { getSlot s sl with attached := false, buf := [] } s)) ∧
    exec (.isAtt sl) s = .next (answered (.bool (getSlot s sl).attached) s)

/-! ### The scheduler -/

/-- R285: TimerTick: the prescaler counts down, and at zero reloads `1 << octave` and steps the primary counter.
The spec's own decision: D23 (92_eei_decisions.md). -/
def Obligations.TimerTickStepsThePrescalerAndCounter : Prop :=
  ∀ s : State, exec .tTick s = .next (answered .done { s with snd := { s.snd with
    tonePre := if s.snd.tonePre = 0#8 ∨ s.snd.tonePre = 1#8 then BitVec.ofNat 8 (2 ^ field s.snd.ctl s.cfg.octaveLsb 3)
      else s.snd.tonePre - 1#8
    toneCnt := if s.snd.tonePre = 0#8 ∨ s.snd.tonePre = 1#8 then
        (if s.snd.toneCnt = 0#16 then s.snd.reload else s.snd.toneCnt - 1#16)
      else s.snd.toneCnt } })

/-- R285, R116: over many TimerTicks from an expired prescaler, the prescaler runs from `2^octave` down to 1 and round
again, and the primary counter steps once every `2^octave` ticks.
The spec's own decision: D23 (92_eei_decisions.md). -/
def Obligations.PrimaryCounterStepsOnceEveryPrescalerPeriod : Prop :=
  ∀ (n : Nat) (s : State), s.snd.tonePre = 0#8 →
    (timerTick^[n + 1] s).snd.tonePre.toNat = 2 ^ octave s.cfg s.snd.ctl - n % 2 ^ octave s.cfg s.snd.ctl ∧
    (timerTick^[n + 1] s).snd.toneCnt =
      (fun x : Word => if x = 0#16 then s.snd.reload else x - 1#16)^[n / 2 ^ octave s.cfg s.snd.ctl + 1] s.snd.toneCnt

/-- R286: Tick50 raises EVNT when `gen50` is set, and steps the secondary counter either way. That the call of EVNT itself
leaves the CPU's program counter, mode bit and 32 bytes is the model's choice (log 38).
The spec's own decisions: D18, D25 (92_eei_decisions.md). -/
def Obligations.Tick50RaisesEvntAndStepsTheSecondaryCounter : Prop :=
  ∀ s : State, exec .tick50 s = .next (answered .done { s with
    snd := { s.snd with envCnt := if s.snd.envCnt = 0#16 then s.snd.envReload else s.snd.envCnt - 1#16 }
    out := { s.out with signals := (if s.snd.ctl.getLsbD s.cfg.gen50Bit then
      .interruptVirq s.cfg.evntLevel s.cfg.evntVector :: s.out.signals else s.out.signals) } })

/-- R287, R115: DoSound without a callback does nothing; with one it calls it once, with level 0 when disabled, with volume
or octave 0, or with the counter not below half the reload value, else with `0x1FFF >> (3 - volume)` on both channels.
The spec's own decision: D24 (92_eei_decisions.md). -/
def Obligations.DoSoundCallsTheCallbackWithTheGatedLevel : Prop :=
  ∀ s : State,
    (s.soundCb = none → exec .doSound s = .next (answered .done s)) ∧
    (∀ h, s.soundCb = some h →
      (s.soundOn = false ∨ field s.snd.ctl s.cfg.volumeLsb 2 = 0 ∨ field s.snd.ctl s.cfg.octaveLsb 3 = 0 ∨
          ¬ s.snd.toneCnt.toNat < s.snd.reload.toNat / 2 →
        exec .doSound s = .next (answered .done (emit (.soundCb h 0#16 0#16) s))) ∧
      (s.soundOn = true → field s.snd.ctl s.cfg.volumeLsb 2 ≠ 0 → field s.snd.ctl s.cfg.octaveLsb 3 ≠ 0 →
          s.snd.toneCnt.toNat < s.snd.reload.toNat / 2 →
        exec .doSound s = .next (answered .done (emit (.soundCb h
          (0x1FFF#16 >>> (3 - field s.snd.ctl s.cfg.volumeLsb 2)) (0x1FFF#16 >>> (3 - field s.snd.ctl s.cfg.volumeLsb 2))) s))))

/-- R283, R45, R326: BPCHK answers whether the CPU's program counter is in the set bp_set refers to now, never for 0xFFFF,
and changes nothing. That BPCHK run alone answers the compare as a boolean and stops nothing (in R283 the compare makes
FRAME return) is the model's reading (log 35), and how bp_set refers to a set is its data (log 17).
The spec's own decision: D36 (92_eei_decisions.md). -/
def Obligations.BreakpointCheckComparesTheProgramCounter : Prop :=
  ∀ s : State, exec .bpChk s = .next (answered (.bool (decide (s.cpu.pc ≠ 0xFFFF#16 ∧ s.cpu.pc ∈
    (match s.bpSet with | .null => [] | .registry => s.registry.breaks | .listed xs => xs)))) s)

/-- R282, R45, log 10: EXEC of a scripted Execute: the call, each transaction in order answered before the next, and the
program counter, mode and opaque state the CPU leaves; past the script's end the Execute is a free value. A transaction
of the CPU's is the bus transaction of its kind, with the mode bit the CPU has, its answer recorded (log 15). That EXEC
runs alone, outside FRAME, is the model's reading (log 35); that every Execute terminates, R440's condition, is its choice
(log 10). -/
def Obligations.ExecRunsOneExecuteOfTheCpu : Prop :=
  ∀ (s : State) (x : CpuExec) (xs : List CpuExec),
    (s.cpu.script = x :: xs → ∃ u, u = x.txns.foldl cpuTransaction { s with
          cpu := { s.cpu with script := xs }, out := { s.out with signals := .cpuExecute :: s.out.signals } } ∧
      exec .cpuExec s = .next { u with
        cpu := { u.cpu with pc := x.pc, halt := x.halt, image := x.image }, out := { u.out with answer := .done } }) ∧
    (s.cpu.script = [] → ∃ u e, e = Config.cpuExecute s.out.draws ∧
      u = e.txns.foldl cpuTransaction { s with out := { s.out with
          signals := .cpuExecute :: s.out.signals, draws := s.out.draws + 1 } } ∧
      exec .cpuExec s = .next { u with
        cpu := { u.cpu with pc := e.pc, halt := e.halt, image := e.image }, out := { u.out with answer := .done } }) ∧
    (∀ op : BusOp, ∃ t, exec (busInstr op s.cpu.halt) s = .next t ∧
      cpuTransaction s op = { t with out := { t.out with signals := .busAnswer t.out.answer :: t.out.signals } })

/-- R281, R289, R14, log 18: FRAME performs the frame's events in order up to the first breakpoint hit and answers whether
it completed. That FRAME ends rests on every Execute terminating, R440's condition and the model's choice (log 10). -/
def Obligations.FramePerformsItsEventsInOrder : Prop :=
  ∀ s : State, s.frame = none →
    exec .frame s = .next (answered (.bool (!(runEvents (frameEvents s.cfg) s).1))
      { (runEvents (frameEvents s.cfg) s).2.2 with frame := none })

/-- R290, R283: a frame that stops has performed whole frameticks `0 … q - 1`, then `j` whole subticks of frametick `q`,
then one EXEC and the BPCHK that hit: `k = 16 q + j + 1` EXECs and `k - 1` TTICKs. -/
def Obligations.StoppedFramePerformsAPrefixEndingInTheHit : Prop :=
  ∀ (s : State), (runEvents (frameEvents s.cfg) s).1 = true →
    ∃ q j, q < 20000 ∧ j < 16 ∧
      (runEvents (frameEvents s.cfg) s).2.1 =
        (List.range q).flatMap (tickEvents s.cfg) ++ (List.range j).flatMap (subtick q) ++ [.exec q j, .bpchk] ∧
      ((runEvents (frameEvents s.cfg) s).2.1.countP isExecEvent = 16 * q + j + 1 ∧
        (runEvents (frameEvents s.cfg) s).2.1.count .ttick = 16 * q + j) ∧
      breakpointHit (runEvents (frameEvents s.cfg) s).2.2 = true

/-- R288: the events of a frame: 320000 EXEC, 320000 TTICK, 2 TICK50, and a DOSOUND for every frametick that
`audio_period` divides. -/
def Obligations.FrameHasTheCountedEvents : Prop :=
  ∀ c : Config, configValid c = true →
    (frameEvents c).countP isExecEvent = 320000 ∧ (frameEvents c).count .ttick = 320000 ∧
    (frameEvents c).count .tick50 = 2 ∧ (frameEvents c).count .dosound = 19999 / audioPeriod c + 1 ∧
    audioPeriod c = 20286 / (c.sampleRate / 25) ∧ 0 < audioPeriod c

/-- R288: "A `SystemFrame()` call with no breakpoints set executes exactly 320000 CPU instructions", and answers true. No
breakpoints are set when bp_set is null, and, as bp_set refers to a set (log 17), when that set is empty. That FRAME ends
rests on every Execute terminating, R440's condition and the model's choice (log 10). -/
def Obligations.FrameWithoutBreakpointsRunsEveryExecute : Prop :=
  ∀ s : State, s.frame = none → breakpointSet s = [] →
    ∃ t, exec .frame s = .next t ∧ t.out.answer = .bool true ∧ t.frame = none ∧
      t.out.signals.count .cpuExecute = s.out.signals.count .cpuExecute + 320000

/-! ### Host actions -/

/-- R410, R50: RESET writes the registers of the LCD, sound, timer and controller and the uptime, resets the CPU, and
leaves RAM, ROM, config, sound_on, the slots, bp_set, sound_cb and the registry. What the CPU's own reset leaves is free
(log 11).
The spec's own decision: D27 (92_eei_decisions.md). -/
def Obligations.ResetWritesTheBlocksRegistersOnly : Prop :=
  ∀ s : State, s.frame = none →
    exec .reset s = .next (answered .done { s with
      lcd := ⟨0#16, 0#16, 0#16⟩
      snd := ⟨0#16, 0#16, 0#16, 0#8, 0#16, 0#16⟩
      ext := ⟨0#16, 0#8, 0xFF#8, false⟩
      uptime := 0
      cpu := { s.cpu with
        pc := Config.cpuResetPc s.out.draws
        halt := Config.cpuResetHalt s.out.draws
        image := Config.cpuResetImage s.out.draws }
      out := { s.out with signals := .cpuReset :: s.out.signals, draws := s.out.draws + 1 } })

/-- R321, R322: LOADROM replaces the whole ROM by an image of 32768 bytes and refuses any other; LOADRAM copies into RAM
from the bank's base and refuses to pass its end.
The spec's own decisions: D30, D38 (92_eei_decisions.md). -/
def Obligations.LoadingReplacesRomAndCopiesIntoRam : Prop :=
  ∀ (img buf : List Byte) (bank : Word) (s : State), s.frame = none →
    (img.length = 32768 → ∃ m, exec (.loadRom img) s = .next (answered .done { s with rom := m }) ∧
      ∀ i, i < 32768 → romByte { s with rom := m } i = img.getD i 0#8) ∧
    (img.length ≠ 32768 → exec (.loadRom img) s = .refused .badRomLength) ∧
    (ramBankBase s.cfg bank + buf.length ≤ 65536 →
      ∃ m, exec (.loadRam bank buf) s = .next (answered .done { s with ram := m }) ∧
        ∀ i, ramByte { s with ram := m } i =
          if ramBankBase s.cfg bank ≤ i ∧ i < ramBankBase s.cfg bank + buf.length
          then buf.getD (i - ramBankBase s.cfg bank) 0#8 else ramByte s i) ∧
    (65536 < ramBankBase s.cfg bank + buf.length → exec (.loadRam bank buf) s = .refused .ramPastEnd)

/-- R323, R324, R325, R326: the four setters complete and write their element only. SETCONFIG of an id of CONFIG_IDS writes
the id; what it writes for another id is free (the model's choice, log 39). SETBP keeps every reference as handed over, that
to the registry while it is empty and a listed array among them: the model's choice (log 17), where R326 says "or null when
it is empty".
The spec's own decisions: D38, D39 (92_eei_decisions.md). -/
def Obligations.HostSettersWriteTheirElementOnly : Prop :=
  ∀ (id : Word) (cb : Option Word) (on : Bool) (set : BpRef) (s : State), s.frame = none →
    (id ∈ s.cfg.configIds → exec (.setConfig id) s = .next (answered .done { s with config := id })) ∧
    (id ∉ s.cfg.configIds → exec (.setConfig id) s = .next (answered .done { s with
      config := Config.otherConfig s.out.draws, out := { s.out with draws := s.out.draws + 1 } })) ∧
    exec (.setSoundCb cb) s = .next (answered .done { s with soundCb := cb }) ∧
    exec (.setSound on) s = .next (answered .done { s with soundOn := on }) ∧
    exec (.setBp set) s = .next (answered .done { s with bpSet := set })

/-- R327: VIDEO answers LCD_BYTES bytes of the RAM array from `lcd_addr`, changes nothing, and past the array's end is
refused.
The spec's own decision: D33 (92_eei_decisions.md). -/
def Obligations.VideoShowsRamFromTheLcdAddress : Prop :=
  ∀ s : State, s.frame = none →
    (s.lcd.addr.toNat + s.cfg.lcdBytes ≤ 65536 → ∃ bs, exec .video s = .next (answered (.bytes bs) s) ∧
      bs.length = s.cfg.lcdBytes ∧ ∀ i, i < s.cfg.lcdBytes → bs.getD i 0#8 = ramByte s (s.lcd.addr.toNat + i)) ∧
    (65536 < s.lcd.addr.toNat + s.cfg.lcdBytes → exec .video s = .refused .videoPastEnd)

/-- R350, R351: SAVE answers the 147456-byte image, each element at its offset, zeros between, and changes nothing. The
magics and the version are the configuration's, or free values where it gives none (log 21). That offset 16 holds the
uptime's low 32 bits is the model's reading (log 20); that offsets 160 to 191, the bytes `CPU.SaveToImage` writes, are the
CPU's field `image` is its choice (log 12).
The spec's own decision: D31 (92_eei_decisions.md). -/
def Obligations.SaveWritesTheSnapshotLayout : Prop :=
  ∀ s : State, s.frame = none →
    ∃ img, exec .save s = .next (answered (.bytes img) (emit .cpuSave s)) ∧ img.length = 147456 ∧
      word16 (imgByte img 1) (imgByte img 0) = (s.cfg.snapMagic1.getD Config.openSnapMagic1).extractLsb' 0 16 ∧
      word16 (imgByte img 3) (imgByte img 2) = (s.cfg.snapMagic1.getD Config.openSnapMagic1).extractLsb' 16 16 ∧
      word16 (imgByte img 5) (imgByte img 4) = (s.cfg.snapMagic2.getD Config.openSnapMagic2).extractLsb' 0 16 ∧
      word16 (imgByte img 7) (imgByte img 6) = (s.cfg.snapMagic2.getD Config.openSnapMagic2).extractLsb' 16 16 ∧
      word16 (imgByte img 9) (imgByte img 8) = (s.cfg.snapVersion.getD Config.openSnapVersion).extractLsb' 0 16 ∧
      word16 (imgByte img 11) (imgByte img 10) = (s.cfg.snapVersion.getD Config.openSnapVersion).extractLsb' 16 16 ∧
      imgWord img 12 = 0x4000#16 ∧ imgWord img 14 = 0x0002#16 ∧
      (imgWord img 16).toNat + 65536 * (imgWord img 18).toNat = s.uptime % 2 ^ 32 ∧
      (∀ i, 20 ≤ i ∧ i < 32 → imgByte img i = 0#8) ∧
      imgWord img 32 = s.config ∧ (∀ i, 34 ≤ i ∧ i < 46 → imgByte img i = 0#8) ∧
      imgWord img 46 = s.lcd.addr ∧ imgWord img 48 = s.lcd.conf ∧ imgWord img 50 = s.lcd.index ∧
      imgWord img 52 = (if s.soundOn then 1#16 else 0#16) ∧ (∀ i, 54 ≤ i ∧ i < 160 → imgByte img i = 0#8) ∧
      (∀ i : Fin 32, imgByte img (160 + i) = s.cpu.image[i]) ∧ (∀ i, 192 ≤ i ∧ i < 4096 → imgByte img i = 0#8) ∧
      (∀ i, i < 32768 → imgByte img (4096 + i) = romByte s i) ∧ (∀ i, i < 65536 → imgByte img (36864 + i) = ramByte s i) ∧
      (∀ i, 102400 ≤ i ∧ i < 147456 → imgByte img i = 0#8)

/-- R352: LOAD of a 147456-byte image sets the elements the image carries, hands the CPU its 32 bytes, replaces ROM and RAM
and leaves the rest, the uptime among it (the model's reading, log 20). That another length is refused is U9's
(93_implementation_defined.md, log 29). The sound flag of a word other than 0 and 1 (log 19), and the program counter and
mode the CPU then has (log 12), are free.
The spec's own decision: D31 (92_eei_decisions.md). -/
def Obligations.LoadSetsTheElementsTheImageCarries : Prop :=
  ∀ (img : List Byte) (s : State), s.frame = none →
    (img.length = 147456 → ∃ mram mrom on, exec (.load img) s = .next (answered .done (emit (.cpuLoad (imgCpu img)) { s with
        config := imgWord img 32, lcd := ⟨imgWord img 46, imgWord img 48, imgWord img 50⟩, soundOn := on
        ram := mram, rom := mrom
        cpu := { s.cpu with image := imgCpu img, pc := Config.cpuPcOfImage (imgCpu img)
                            halt := Config.cpuHaltOfImage (imgCpu img) } })) ∧
      (imgWord img 52 = 0#16 → on = false) ∧ (imgWord img 52 = 1#16 → on = true) ∧
      (∀ i : Fin 32, (imgCpu img)[i] = imgByte img (160 + i)) ∧
      (∀ i, i < 65536 → ramByte { s with ram := mram } i = imgByte img (36864 + i)) ∧
      (∀ i, i < 32768 → romByte { s with rom := mrom } i = imgByte img (4096 + i))) ∧
    (img.length ≠ 147456 → exec (.load img) s = .refused .badSnapshotLength)

/-- R353, R352 (S6): loading what SAVE answered in `s` into any `u` makes RAM, ROM and the five board registers of the image
those of `s`, hands the CPU the bytes it saved, and leaves the rest of `u`. That those bytes are the CPU's field `image`
is the model's choice (log 12).
The spec's own decision: D31 (92_eei_decisions.md). -/
def Obligations.LoadOfASaveRestoresTheBoard : Prop :=
  ∀ s u : State, s.frame = none → u.frame = none →
    ∃ img t v, exec .save s = .next t ∧ t.out.answer = .bytes img ∧ exec (.load img) u = .next v ∧
      (∀ i, i < 65536 → ramByte v i = ramByte s i) ∧ (∀ i, i < 32768 → romByte v i = romByte s i) ∧
      v.config = s.config ∧ v.lcd = s.lcd ∧ v.soundOn = s.soundOn ∧ v.cpu.image = s.cpu.image ∧
      v = { u with config := v.config, lcd := v.lcd, soundOn := v.soundOn, ram := v.ram, rom := v.rom, cpu := v.cpu, out := v.out }

/-- R14, R87, R320, R433: while a FRAME runs, no host action takes a step. The host actions are the operations of
`45_host_operations.md` (R6, R14), the BP operations and SETSOUND (which D39 adds) among them, with RESET, KEY, ATTACH,
DETACH, ISATT and FRAME. That a position in the field `frame` is "a FRAME runs", and that the step is refused, is the
model's choice (log 18); `CPU.SetPC` is in StepRunsTheDecodedOperation. -/
def Obligations.HostActionsTakeNoStepDuringAFrame : Prop :=
  ∀ (i : Instr) (s : State) (p : FramePos), isHostAction i = true → s.frame = some p → ∃ r, exec i s = .refused r

/-! ### The breakpoint registry -/

/-- R341, R342, R346, between frames (R14): BP.ADD answers whether the address was added as the newest entry (not when full, the sentinel or
present); BP.REMOVE of a present entry puts the last entry in its place, and of an absent one changes nothing. Both act on
the array named, the other and `temp` are unchanged (that BP.REMOVE leaves `temp` is the model's reading, log 22).
The spec's own decision: D32 (92_eei_decisions.md). -/
def Obligations.RegistryAddAndRemove : Prop :=
  ∀ (arr : BpArray) (a z : Word) (pre post : List Word) (s : State), s.frame = none →
    (¬ (getArray s.registry arr).length + 1 ≥ s.cfg.bpN → a ≠ 0xFFFF#16 → a ∉ getArray s.registry arr →
      exec (.bpAdd arr a) s = .next (answered (.bool true) (setArray arr (getArray s.registry arr ++ [a]) s))) ∧
    ((getArray s.registry arr).length + 1 ≥ s.cfg.bpN ∨ a = 0xFFFF#16 ∨ a ∈ getArray s.registry arr →
      exec (.bpAdd arr a) s = .next (answered (.bool false) s)) ∧
    (a ∉ getArray s.registry arr → exec (.bpRemove arr a) s = .next (answered (.bool false) s)) ∧
    (getArray s.registry arr = pre ++ [a] → a ∉ pre →
      exec (.bpRemove arr a) s = .next (answered (.bool true) (setArray arr pre s))) ∧
    (getArray s.registry arr = pre ++ a :: post ++ [z] → a ∉ pre → z ≠ a →
      exec (.bpRemove arr a) s = .next (answered (.bool true) (setArray arr (pre ++ z :: post) s)))

/-- R343, R345, R346 (S4), between frames (R14): SETTEMP removes the previous temporary breakpoint, then adds and remembers the new one unless it
is the sentinel, present or the set is full; twice in a row leaves one entry; CLEARALL empties its array, and of the
breakpoints the temporary too.
The spec's own decision: D32 (92_eei_decisions.md). -/
def Obligations.TemporaryBreakpointAndClear : Prop :=
  ∀ (a : Word) (arr : BpArray) (s : State), s.frame = none →
    (∃ r, exec (.bpSetTemp a) s = .next (answered .done { s with registry := r }) ∧
      (a ≠ 0xFFFF#16 ∧ a ∉ withoutTemp s.registry ∧ (withoutTemp s.registry).length + 1 < s.cfg.bpN →
        r = ⟨withoutTemp s.registry ++ [a], some a, s.registry.watches⟩) ∧
      (a = 0xFFFF#16 ∨ a ∈ withoutTemp s.registry ∨ s.cfg.bpN ≤ (withoutTemp s.registry).length + 1 →
        r = ⟨withoutTemp s.registry, none, s.registry.watches⟩)) ∧
    (s.registry.breaks.Nodup → ∀ t, runInstrs [.bpSetTemp a, .bpSetTemp a] s = some t →
      t.registry.breaks.count a ≤ 1 ∧
      runInstrs [.bpSetTemp a, .bpSetTemp a] s = runInstrs [.bpSetTemp a] s) ∧
    exec (.bpClearAll arr) s = .next (answered .done { s with registry := match arr with
      | .breaks => ⟨[], none, s.registry.watches⟩
      | .watches => ⟨s.registry.breaks, s.registry.temp, []⟩ })

/-! ### The whole machine -/

/-- R8, R23, R24, R33, R41, R266, R340, R44: every step keeps the board's invariant, whatever the stimulus and whatever the
CPU does. -/
def Obligations.EveryStepKeepsTheBoardInvariant : Prop :=
  ∀ s t : State, BoardInv s → step s = .next t → BoardInv t

/-- R411, R50: the state at power-on meets the invariant and has the register values the spec gives.
The spec's own decisions: D27, D28 (92_eei_decisions.md). -/
def Obligations.PowerOnStateHasTheSpecsValues : Prop :=
  BoardInv State.reset ∧
  State.reset.lcd = ⟨0#16, 0#16, 0#16⟩ ∧ State.reset.snd = ⟨0#16, 0#16, 0#16, 0#8, 0#16, 0#16⟩ ∧
  State.reset.ext = ⟨0#16, 0#8, 0xFF#8, false⟩ ∧ State.reset.soundOn = false ∧ State.reset.soundCb = none ∧
  State.reset.bpSet = .null ∧ (∀ sl, getSlot State.reset sl = ⟨false, [], 0xFFFF#24, 0#24, 0#8⟩) ∧
  (∀ i, ramByte State.reset i = Config.ramPowerOn i) ∧ (∀ i, romByte State.reset i = Config.romPowerOn i)

/-- R22, R24, R23, R72: the configuration never changes, ROM changes only by LOADROM and LOAD, and a RAM cell the bus cannot
reach only by LOADRAM and LOAD, whatever the CPU does. -/
def Obligations.RomAndUnreachableRamChangeOnlyByLoading : Prop :=
  ∀ (i : Instr) (s t : State), exec i s = .next t →
    t.cfg = s.cfg ∧ (loadsRom i = false → t.rom = s.rom) ∧
    (∀ k, loadsRam i = false → ¬ busReaches k → ramByte t k = ramByte s k)
end

