-- ==== Sys2Proof/Laws/Operands.lean ====
section
/-!
SUPPORT. The laws of the operand forms: byte order and lanes, even addresses, what a legal configuration says of the port
map, the fields of a control word and of a command byte.
-/
namespace Sys2Proof.Machine

/-! ### Bytes and words -/

theorem lo8_toNat (v : Word) : (lo8 v).toNat = v.toNat % 256 := by
  unfold lo8; rw [BitVec.extractLsb'_toNat]; simp

theorem hi8_toNat (v : Word) : (hi8 v).toNat = v.toNat / 256 := by
  unfold hi8; rw [BitVec.extractLsb'_toNat, Nat.shiftRight_eq_div_pow]
  have := v.isLt; omega

theorem word16_toNat (h l : Byte) : (word16 h l).toNat = 256 * h.toNat + l.toNat := by
  have e := BitVec.toNat_append h l
  rw [Nat.shiftLeft_eq, Nat.mul_comm, ← Nat.two_pow_add_eq_or_of_lt l.isLt] at e
  exact e

theorem zext16_toNat (b : Byte) : (zext16 b).toNat = b.toNat := by
  unfold zext16; rw [BitVec.toNat_setWidth]; have := b.isLt; omega

@[simp] theorem lo8_word16 (h l : Byte) : lo8 (word16 h l) = l := by
  apply BitVec.eq_of_toNat_eq; rw [lo8_toNat, word16_toNat]; have := l.isLt; omega

@[simp] theorem hi8_word16 (h l : Byte) : hi8 (word16 h l) = h := by
  apply BitVec.eq_of_toNat_eq; rw [hi8_toNat, word16_toNat]; have := l.isLt; omega

@[simp] theorem word16_hi8_lo8 (v : Word) : word16 (hi8 v) (lo8 v) = v := by
  apply BitVec.eq_of_toNat_eq; rw [word16_toNat, hi8_toNat, lo8_toNat]; omega

@[simp] theorem lo8_zext16 (b : Byte) : lo8 (zext16 b) = b := by
  apply BitVec.eq_of_toNat_eq; rw [lo8_toNat, zext16_toNat]; have := b.isLt; omega

@[simp] theorem hi8_zext16 (b : Byte) : hi8 (zext16 b) = 0#8 := by
  apply BitVec.eq_of_toNat_eq; rw [hi8_toNat, zext16_toNat]; have := b.isLt; simp; omega

@[simp] theorem word16_zero (b : Byte) : word16 0#8 b = zext16 b := by
  apply BitVec.eq_of_toNat_eq; rw [word16_toNat, zext16_toNat]; simp

theorem word16_eq_or (h l : Byte) : word16 h l = (zext16 h <<< 8) ||| zext16 l := by
  apply BitVec.eq_of_toNat_eq
  rw [word16_toNat, BitVec.toNat_or, BitVec.toNat_shiftLeft, zext16_toNat, zext16_toNat, Nat.shiftLeft_eq,
    Nat.mod_eq_of_lt (by have := h.isLt; omega), Nat.mul_comm h.toNat (2 ^ 8), ← Nat.two_pow_add_eq_or_of_lt l.isLt]

/-- A byte write at an odd address replaces the high byte of the containing word (R111). -/
theorem laneMerge_odd {a w : Word} {b : Byte} (h : a.getLsbD 0 = true) : laneMerge a w b = word16 b (lo8 w) := by
  unfold laneMerge; rw [if_pos h, word16_eq_or, BitVec.or_comm]
  congr 1
  unfold lo8 zext16; ext i hi; interval_cases i <;> simp

/-- A byte write at an even address replaces the low byte of the containing word (R111). -/
theorem laneMerge_even {a w : Word} {b : Byte} (h : a.getLsbD 0 = false) : laneMerge a w b = word16 (hi8 w) b := by
  unfold laneMerge; rw [if_neg (by rw [h]; decide), word16_eq_or]
  congr 1
  unfold hi8 zext16; ext i hi; interval_cases i <;> simp

/-! ### Even addresses -/

/-- The even address is the address without its lowest bit (R76). -/
theorem evenAddr_eq_shift (a : Word) : evenAddr a = (a >>> 1) <<< 1 := by
  unfold evenAddr
  ext i hi
  interval_cases i <;> simp

theorem evenAddr_toNat (a : Word) : (evenAddr a).toNat = 2 * (a.toNat / 2) := by
  have h := a.isLt
  rw [evenAddr_eq_shift, BitVec.toNat_shiftLeft, BitVec.toNat_ushiftRight, Nat.shiftRight_eq_div_pow, Nat.shiftLeft_eq]
  omega

theorem getLsbD_zero_eq (a : Word) : a.getLsbD 0 = decide (a.toNat % 2 = 1) := by
  unfold BitVec.getLsbD; rw [Nat.testBit_zero]

theorem evenAddr_of_even {a : Word} (h : a.getLsbD 0 = false) : evenAddr a = a := by
  rw [getLsbD_zero_eq, decide_eq_false_iff_not] at h
  apply BitVec.eq_of_toNat_eq; rw [evenAddr_toNat]; omega

theorem evenAddr_even (a : Word) : (evenAddr a).getLsbD 0 = false := by
  rw [getLsbD_zero_eq, evenAddr_toNat, decide_eq_false_iff_not]; omega

@[simp] theorem evenAddr_idem (a : Word) : evenAddr (evenAddr a) = evenAddr a := evenAddr_of_even (evenAddr_even a)

theorem evenAddr_succ_toNat (a : Word) : (evenAddr a + 1#16).toNat = (evenAddr a).toNat + 1 := by
  have h := a.isLt
  rw [BitVec.toNat_add, evenAddr_toNat]; simp only [BitVec.toNat_ofNat]; omega

theorem succ_of_even {a : Word} (h : a.getLsbD 0 = false) :
    evenAddr (a + 1#16) = a ∧ (a + 1#16).getLsbD 0 = true ∧ (a + 1#16).toNat = a.toNat + 1 := by
  have e : (a + 1#16).toNat = a.toNat + 1 := by
    rw [← evenAddr_of_even h]; exact evenAddr_succ_toNat a
  rw [getLsbD_zero_eq, decide_eq_false_iff_not] at h
  refine ⟨?_, ?_, e⟩
  · apply BitVec.eq_of_toNat_eq; rw [evenAddr_toNat, e]; omega
  · rw [getLsbD_zero_eq, e]; simp; omega

/-! ### Classification -/

/-- The place of a RAM address is the address. -/
theorem classify_ram {a o : Word} (h : classify a = .ram o) : o = a := by
  unfold classify at h
  split at h
  · exact (Place.ram.inj h).symm
  · split at h
    · cases h
    · split at h
      · split at h
        · cases h
        · exact (Place.ram.inj h).symm
      · split at h
        · cases h
        · exact (Place.ram.inj h).symm

/-- The place of an I/O address is the address, and it lies in the sub-ranges. -/
theorem classify_io {a o : Word} (h : classify a = .io o) : o = a ∧ isIo a = true := by
  unfold classify at h
  split at h
  · cases h
  · split at h
    · cases h
    · split at h
      · split at h
        · next hi => exact ⟨(Place.io.inj h).symm, hi⟩
        · cases h
      · split at h <;> cases h

theorem classify_of_isIo {a : Word} (h : isIo a = true) : classify a = .io a := by
  have hw : inWindow a = true ∧ 0o164000 ≤ a.toNat := by
    unfold isIo at h; unfold inWindow
    simp only [Bool.or_eq_true, Bool.and_eq_true, decide_eq_true_eq] at h ⊢; omega
  unfold classify
  rw [if_neg (by omega), if_neg (by omega), if_pos hw.1, if_pos h]

/-- The I/O sub-ranges are whole words. -/
theorem isIo_evenAddr (a : Word) : isIo (evenAddr a) = isIo a := by
  have h := evenAddr_toNat a
  unfold isIo; rw [h, Bool.eq_iff_iff]
  simp only [Bool.or_eq_true, Bool.and_eq_true, decide_eq_true_eq]; omega

/-- The next address of an even one lies in the same region, one index on (R76: a word never straddles two regions). -/
theorem classify_succ {e : Word} (h : e.getLsbD 0 = false) :
    match classify e with
    | .ram o => classify (e + 1#16) = .ram (o + 1#16) ∧ (o + 1#16).toNat = o.toNat + 1
    | .rom o => classify (e + 1#16) = .rom (o + 1#16) ∧ (o + 1#16).toNat = o.toNat + 1
    | .io o => classify (e + 1#16) = .io (o + 1#16)
    | .denied => classify (e + 1#16) = .denied := by
  obtain ⟨h1, h2, h3⟩ := succ_of_even h
  rw [getLsbD_zero_eq, decide_eq_false_iff_not] at h
  have hl := e.isLt
  have hc : e - 0x8000#16 + 1#16 = e + 1#16 - 0x8000#16 := by rw [BitVec.sub_add_comm]
  have hr : 0x8000 ≤ e.toNat → (e - 0x8000#16).toNat = e.toNat - 0x8000 := by
    intro h; rw [BitVec.toNat_sub]; simp only [BitVec.toNat_ofNat]; omega
  have hs : 0x8000 ≤ e.toNat → (e - 0x8000#16 + 1#16).toNat = e.toNat - 0x8000 + 1 := by
    intro h; rw [BitVec.toNat_add, hr h]; simp only [BitVec.toNat_ofNat]; omega
  unfold classify inWindow isIo
  simp only [Bool.and_eq_true, Bool.or_eq_true, decide_eq_true_eq]
  rw [h3]
  split_ifs <;> first
    | (exfalso; omega) | trivial | exact ⟨rfl, h3⟩ | rfl | exact ⟨by rw [hc], by rw [hs (by omega), hr (by omega)]⟩

/-- An odd address is the one after its even address. -/
theorem evenAddr_succ_of_odd {a : Word} (h : a.getLsbD 0 = true) : evenAddr a + 1#16 = a := by
  apply BitVec.eq_of_toNat_eq; rw [evenAddr_succ_toNat, evenAddr_toNat]
  rw [getLsbD_zero_eq, decide_eq_true_eq] at h; omega

/-- The bits of a word from `k` up, in place. -/
theorem and_high (a : Word) (k : Nat) : a &&& (BitVec.allOnes 16 <<< k) = (a >>> k) <<< k := by
  apply BitVec.eq_of_getLsbD_eq; intro i hi
  simp only [BitVec.getLsbD_and, BitVec.getLsbD_shiftLeft, BitVec.getLsbD_allOnes, BitVec.getLsbD_ushiftRight]
  by_cases h : i < k
  · simp [h]
  · have : i - k < 16 := by omega
    simp [h, hi, this, Nat.add_sub_cancel' (Nat.le_of_not_lt h)]

/-- A row's mask of high bits (R101) is a comparison of the quotient. -/
theorem maskMatch_high (a v : Word) (k : Nat) :
    maskMatch a (BitVec.allOnes 16 <<< k) v = decide (a.toNat / 2 ^ k * 2 ^ k = v.toNat) := by
  unfold maskMatch
  rw [and_high, Bool.eq_iff_iff, beq_iff_eq, decide_eq_true_iff, ← BitVec.toNat_inj, BitVec.toNat_shiftLeft,
    BitVec.toNat_ushiftRight, Nat.shiftRight_eq_div_pow, Nat.shiftLeft_eq, Nat.mod_eq_of_lt]
  exact Nat.lt_of_le_of_lt (Nat.div_mul_le_self _ _) a.isLt

/-! ### A legal configuration -/

/-- What constraint P says of one port address (R8). -/
structure PortOk (e : Word) : Prop where
  even : e.getLsbD 0 = false
  io : isIo e = true

theorem portsValid_of_configValid {c : Config} (h : configValid c = true) : portsValid c = true := by
  unfold configValid at h; simp only [Bool.and_eq_true] at h; exact h.1.1.1.1.1

theorem sampleRateValid_of_configValid {c : Config} (h : configValid c = true) : sampleRateValid c = true := by
  unfold configValid at h; simp only [Bool.and_eq_true] at h; exact h.1.1.2

/-- The bounds on the sample rate as inequalities (R284). -/
theorem sampleRateValid_iff (c : Config) :
    sampleRateValid c = true ↔ 25 ≤ c.sampleRate ∧ c.sampleRate / 25 ≤ 20286 := by
  unfold sampleRateValid framesPerSec audioNum
  rw [Bool.and_eq_true, decide_eq_true_iff, decide_eq_true_iff]

theorem portOk_of_configValid {c : Config} (h : configValid c = true) {e : Word} (he : e ∈ portAddrs c) : PortOk e := by
  have hp := portsValid_of_configValid h
  unfold portsValid at hp
  rw [Bool.and_eq_true, List.all_eq_true] at hp
  have := hp.1 e he
  simp only [Bool.and_eq_true, Bool.not_eq_true'] at this
  exact ⟨this.1, this.2⟩

theorem allDistinct_iff (l : List Word) : allDistinct l = true ↔ l.Nodup := by
  induction l with
  | nil => simp [allDistinct]
  | cons a l ih => simp [allDistinct, ih]

theorem portAddrs_nodup {c : Config} (h : configValid c = true) : (portAddrs c).Nodup := by
  have hp := portsValid_of_configValid h
  unfold portsValid at hp
  rw [Bool.and_eq_true, allDistinct_iff] at hp
  exact hp.2

/-- The port map at each of the eleven port addresses of a legal configuration (R8, R102). -/
structure PortMapOk (c : Config) : Prop where
  lcdAddr : ∀ p, portMap c (lcdAddrPort c p) = some .lcdAddr
  lcdConf : ∀ p, portMap c (lcdConfPort c p) = some .lcdConf
  lcdIndex : portMap c c.aLcdIndex = some .lcdIndex
  extData : portMap c c.aExtData = some .extData
  extCs : portMap c c.aExtCs = some .extCs
  extCmd : portMap c c.aExtCmd = some .extCmd
  sndCtl : portMap c c.aSndCtl = some .sndCtl
  sndReload : portMap c c.aSndReload = some .sndReload
  envReload : portMap c c.aEnvReload = some .envReload

theorem portMapOk_of_configValid {c : Config} (h : configValid c = true) : PortMapOk c := by
  have hd := List.nodup_reverse.mpr (portAddrs_nodup h)
  unfold portAddrs at hd
  simp only [List.reverse_cons, List.reverse_nil, List.nil_append, List.cons_append, List.nodup_cons, List.mem_cons,
    List.not_mem_nil, or_false, not_or, List.nodup_nil, and_true, not_false_iff] at hd
  constructor
  · intro p; cases p <;> simp [portMap, lcdAddrPort]
  · intro p; cases p <;> simp [portMap, lcdConfPort, hd]
  all_goals simp [portMap, hd]

/-! ### Fields -/

@[simp] theorem ctrlDev_ctrlWord (hi : BitVec 12) (dev : BitVec 4) : ctrlDev (ctrlWord hi dev) = dev :=
  BitVec.extractLsb'_append_eq_right

@[simp] theorem cmdNibble_cmdByte (op low : BitVec 4) : cmdNibble (cmdByte op low) = op :=
  BitVec.extractLsb'_append_eq_left

end Sys2Proof.Machine
end

