-- ==== Sys2Proof/Laws/Config.lean ====
section
/-!
SUPPORT. The check of a configuration says what R8's last column says.
-/
namespace Sys2Proof.Machine

/-- A port's place as the check tests it and as constraint P says it (R8). -/
theorem portPlaced_iff (a : Word) : portPlaced a ↔ (!a.getLsbD 0 && isIo a) = true := by
  unfold portPlaced isIo
  simp only [Bool.and_eq_true, Bool.or_eq_true, Bool.not_eq_true', decide_eq_true_eq, getLsbD_zero_eq,
    decide_eq_false_iff_not]
  omega

theorem portsValid_iff (c : Config) :
    portsValid c = true ↔ (∀ a ∈ portAddrs c, portPlaced a) ∧ (portAddrs c).Nodup := by
  unfold portsValid
  simp only [Bool.and_eq_true, List.all_eq_true, allDistinct_iff, portPlaced_iff]

/-- One bit is set, bit by bit. -/
theorem oneBit_iff (w : Word) : oneBit w = true ↔ ∃ k, ∀ j, w.getLsbD j = true ↔ j = k := by
  unfold oneBit
  simp only [List.any_eq_true, List.mem_range, beq_iff_eq]
  have bit (k j : Nat) : (1#16 <<< k).getLsbD j = true ↔ j < 16 ∧ j = k := by
    rw [BitVec.getLsbD_shiftLeft, BitVec.getLsbD_one]
    simp only [Bool.and_eq_true, Bool.not_eq_true', decide_eq_true_eq, decide_eq_false_iff_not]
    omega
  constructor
  · rintro ⟨k, hk, rfl⟩
    exact ⟨k, fun j => (bit k j).trans (by omega)⟩
  · rintro ⟨k, hk⟩
    have k16 : k < 16 := BitVec.lt_of_getLsbD ((hk k).mpr rfl)
    refine ⟨k, k16, BitVec.eq_of_getLsbD_eq fun j hj => ?_⟩
    rw [Bool.eq_iff_iff, hk, bit]
    omega

/-- Two words are disjoint, bit by bit. -/
theorem and_eq_zero_iff (x y : Word) : x &&& y = 0#16 ↔ ∀ k, ¬ (x.getLsbD k = true ∧ y.getLsbD k = true) := by
  simp only [← Bool.and_eq_true, Bool.not_eq_true, ← BitVec.getLsbD_and]
  exact ⟨fun h k => by rw [h, BitVec.getLsbD_zero],
    fun h => BitVec.eq_of_getLsbD_eq fun j _ => by rw [h, BitVec.getLsbD_zero]⟩

/-- The octave and volume fields share no bit. -/
theorem fields_apart_iff (x y : Nat) :
    (x + 3 ≤ y ∨ y + 2 ≤ x) ↔ ∀ b, ¬ ((x ≤ b ∧ b < x + 3) ∧ (y ≤ b ∧ b < y + 2)) :=
  ⟨fun h b => by omega, fun h => by have := h x; have := h y; omega⟩

/-- A configuration passes the check exactly when it meets every constraint of R8. -/
theorem configValid_iff (c : Config) : configValid c = true ↔ ConfigConstraints c := by
  unfold configValid statusValid soundFieldsValid
  simp only [Bool.and_eq_true, Bool.or_eq_true, decide_eq_true_eq, beq_iff_eq, portsValid_iff, oneBit_iff,
    and_eq_zero_iff, fields_apart_iff, sampleRateValid_iff, List.contains_iff_mem]
  constructor
  · rintro ⟨⟨⟨⟨⟨⟨h1, h2⟩, ⟨h3, h4⟩, h5⟩, ⟨⟨⟨⟨h6, h7⟩, h8⟩, h9⟩, h10⟩, h11⟩, h12, h13⟩, h14⟩, h15⟩
    exact ⟨h1, h2, h3, h4, h5, h6, h7, h8, h9, by omega, by omega, h12, h13, h14, h15⟩
  · rintro ⟨h1, h2, h3, h4, h5, h6, h7, h8, h9, h10, h11, h12, h13, h14, h15⟩
    exact ⟨⟨⟨⟨⟨⟨h1, h2⟩, ⟨h3, h4⟩, h5⟩, ⟨⟨⟨⟨h6, h7⟩, h8⟩, h9⟩, by omega⟩, by omega⟩, h12, h13⟩, h14⟩, h15⟩

end Sys2Proof.Machine
end

