-- ==== Sys2Proof/Laws/Decode.lean ====
section
/-!
SUPPORT. The decoder on each layout of the encoder: one lemma for each format, and the round trips of the operand bytes.
-/
namespace Sys2Proof
open Machine

/-! ### Operand bytes -/

@[simp] theorem boolOfByte_boolByte (b : Bool) : boolOfByte (boolByte b) = some b := by cases b <;> rfl

@[simp] theorem slotOfByte_slotByte (sl : SlotIx) : slotOfByte (slotByte sl) = some sl := by cases sl <;> rfl

@[simp] theorem arrayOfByte_arrayByte (arr : BpArray) : arrayOfByte (arrayByte arr) = some arr := by cases arr <;> rfl

@[simp] theorem wordsOfBytes_bytesOfWords (ws : List Word) : wordsOfBytes (bytesOfWords ws) = some ws := by
  induction ws with
  | nil => rfl
  | cons w ws ih => simp [bytesOfWords, wordsOfBytes, ih]

@[simp] theorem ctrlHigh_ctrlWord (hi : BitVec 12) (dev : BitVec 4) : ctrlHigh (ctrlWord hi dev) = hi :=
  BitVec.extractLsb'_append_eq_left

theorem cmdByte_low (op low : BitVec 4) : (cmdByte op low).extractLsb' 0 4 = low :=
  BitVec.extractLsb'_append_eq_right

/-! ### One lemma for each format -/

theorem decode_encRegion (c : Config) (a : Word) (halt exe : Bool) :
    decode c (encRegion a halt exe) = .instr (regionInstr a halt exe) := by
  show decodeAddr16 [lo8 a, hi8 a, flagByte halt exe] = _
  simp only [decodeAddr16, word16_hi8_lo8]
  cases halt <;> cases exe <;> rfl

theorem decode_encBus (c : Config) (op : Byte) (a v : Word) (halt : Bool) :
    decode c (encBus op a v halt) = decodeBusOp op.toNat a (lo8 v) (hi8 v) halt := by
  show decodeBus [op, lo8 a, hi8 a, lo8 v, hi8 v, boolByte halt] = _
  simp only [decodeBus, word16_hi8_lo8, boolOfByte_boolByte]

theorem decode_encPortR {c : Config} {e : Word} {r : PortReg} (h : PortOk e) (hr : portMap c e = some r) :
    decode c (encPortR e) = .instr (portReadInstr c e r) := by
  show decodePort c [lo8 e, hi8 e, 0#8, 0#8, 0#8] = _
  simp only [decodePort, word16_hi8_lo8, if_pos h.io, evenAddr_of_even h.even, hr]
  rfl

theorem decode_encPortW {c : Config} {e : Word} {r : PortReg} (v : Word) (h : PortOk e) (hr : portMap c e = some r) :
    decode c (encPortW e v) = .instr (portWriteInstr c e v r) := by
  show decodePort c [lo8 e, hi8 e, 1#8, lo8 v, hi8 v] = _
  have ha : decodePortAccess (BitVec.toNat 1#8) (lo8 v) (hi8 v) = some (.writeWord v) := by
    rw [← word16_hi8_lo8 v, lo8_word16, hi8_word16]; rfl
  simp only [decodePort, word16_hi8_lo8, if_pos h.io, evenAddr_of_even h.even, ha, hr]
  rfl

theorem decode_encCtrl (c : Config) (hi : BitVec 12) (dev : BitVec 4) :
    decode c (encCtrl hi dev) = .instr (devInstr hi dev) := by
  show decodeCtrl16 [lo8 (ctrlWord hi dev), hi8 (ctrlWord hi dev)] = _
  simp only [decodeCtrl16, word16_hi8_lo8, ctrlHigh_ctrlWord, ctrlDev_ctrlWord]

theorem decode_encSmp (c : Config) (op low : BitVec 4) (sl : SlotIx) (nx : NextAccess) :
    decode c (encSmp op low sl nx) = .instr (smpInstr (cmdByte op low) sl nx) := by
  show decodeSmpcmd8 [cmdByte op low, nextByte sl nx, nextData nx] = _
  cases sl <;> cases nx <;> rfl

theorem decode_encodeSetPc (c : Config) (v : Word) : decode c (encodeSetPc v) = .setPc v :=
  congrArg Decoded.setPc (word16_hi8_lo8 v)

theorem decode_encEvt (c : Config) (op : Byte) (bs : List Byte) : decode c (encEvt op bs) = decodeEvtOp op.toNat bs := rfl

/-! ### The alias an LCD port's address names (R102) -/

theorem lcdAddrAlias_port {c : Config} (h : configValid c = true) (p : AliasIx) :
    lcdAddrAlias c (lcdAddrPort c p) = p := by
  have hd := portAddrs_nodup h
  have hn : c.aLcdAddr1 ≠ c.aLcdAddr0 := by
    intro e; simp [portAddrs, e] at hd
  cases p <;> simp [lcdAddrAlias, lcdAddrPort, hn]

theorem lcdConfAlias_port {c : Config} (h : configValid c = true) (p : AliasIx) :
    lcdConfAlias c (lcdConfPort c p) = p := by
  have hd := portAddrs_nodup h
  have hn : c.aLcdConf1 ≠ c.aLcdConf0 := by
    intro e; simp [portAddrs, e] at hd
  cases p <;> simp [lcdConfAlias, lcdConfPort, hn]

end Sys2Proof
end

