-- ==== Sys2Proof/Laws/Memory.lean ====
section
/-!
SUPPORT. The laws of memory arrays: a read after a write, and that every memory operation keeps the canonical form.
-/
namespace Sys2Proof.Machine

/-! ### Reading after writing -/

@[simp] theorem Memory.lookup_nil (i : Nat) : Memory.lookup [] i = none := rfl

theorem Memory.lookup_cons (k : Nat) (v : Byte) (m : Memory) (i : Nat) :
    Memory.lookup ((k, v) :: m) i = if k = i then some v else Memory.lookup m i := rfl

theorem Memory.lookup_set (m : Memory) (i j : Nat) (b : Byte) :
    (m.set i b).lookup j = if i = j then some b else m.lookup j := by
  induction m with
  | nil => rfl
  | cons p m ih =>
    obtain ⟨k, v⟩ := p
    unfold Memory.set
    split
    · rfl
    · split
      · next _ e => subst e; simp only [Memory.lookup_cons]; split <;> rfl
      · simp only [Memory.lookup_cons, ih]; split <;> split <;> first | rfl | (exfalso; omega)

theorem Memory.lookup_setBytes (m : Memory) (i : Nat) (bs : List Byte) (j : Nat) :
    (m.setBytes i bs).lookup j = if i ≤ j ∧ j < i + bs.length then bs[j - i]? else m.lookup j := by
  induction bs generalizing m i with
  | nil => simp [Memory.setBytes]
  | cons b bs ih =>
    simp only [Memory.setBytes, ih, Memory.lookup_set, List.length_cons]
    by_cases hj : i = j
    · subst hj; simp
    · by_cases h : i + 1 ≤ j ∧ j < i + 1 + bs.length
      · have e : j - i = (j - (i + 1)) + 1 := by omega
        rw [if_pos h, if_pos (by omega), e, List.getElem?_cons_succ]
      · rw [if_neg h, if_neg hj, if_neg (by omega)]

theorem Memory.lookup_ofBytes (i : Nat) (bs : List Byte) (j : Nat) :
    (Memory.ofBytes i bs).lookup j = if i ≤ j then bs[j - i]? else none := by
  induction bs generalizing i with
  | nil => simp [Memory.ofBytes]
  | cons b bs ih =>
    simp only [Memory.ofBytes, Memory.lookup_cons, ih]
    by_cases hj : i = j
    · subst hj; simp
    · by_cases h : i + 1 ≤ j
      · have e : j - i = (j - (i + 1)) + 1 := by omega
        rw [if_neg hj, if_pos h, if_pos (by omega), e, List.getElem?_cons_succ]
      · rw [if_neg hj, if_neg h, if_neg (by omega)]

theorem Memory.byteAt_set (init : Nat → Byte) (m : Memory) (i j : Nat) (b : Byte) :
    (m.set i b).byteAt init j = if i = j then b else m.byteAt init j := by
  unfold Memory.byteAt; rw [Memory.lookup_set]; split <;> rfl

theorem Memory.byteAt_setBytes (init : Nat → Byte) (m : Memory) (i : Nat) (bs : List Byte) (j : Nat) :
    (m.setBytes i bs).byteAt init j =
      if i ≤ j ∧ j < i + bs.length then bs.getD (j - i) 0#8 else m.byteAt init j := by
  unfold Memory.byteAt; rw [Memory.lookup_setBytes]
  split
  · next h => rw [List.getD_eq_getElem?_getD, List.getElem?_eq_getElem (by omega)]; rfl
  · rfl

theorem Memory.byteAt_ofBytes (init : Nat → Byte) (bs : List Byte) (j : Nat) (h : j < bs.length) :
    (Memory.ofBytes 0 bs).byteAt init j = bs.getD j 0#8 := by
  unfold Memory.byteAt
  rw [Memory.lookup_ofBytes, if_pos (Nat.zero_le _), List.getD_eq_getElem?_getD, Nat.sub_zero,
    List.getElem?_eq_getElem h]
  rfl

/-! ### The canonical form -/

theorem Memory.rising_mono {lo lo' hi : Nat} (h : lo' ≤ lo) {m : Memory} (hm : Memory.rising lo hi m = true) :
    Memory.rising lo' hi m = true := by
  cases m with
  | nil => rfl
  | cons p m =>
    simp only [Memory.rising, Bool.and_eq_true, decide_eq_true_eq] at hm ⊢
    exact ⟨⟨by omega, hm.1.2⟩, hm.2⟩

theorem Memory.rising_set {lo hi i : Nat} {b : Byte} {m : Memory} (hm : Memory.rising lo hi m = true) (hlo : lo ≤ i)
    (hhi : i < hi) : Memory.rising lo hi (m.set i b) = true := by
  induction m generalizing lo with
  | nil => simp [Memory.set, Memory.rising, hlo, hhi]
  | cons p m ih =>
    obtain ⟨k, v⟩ := p
    simp only [Memory.rising, Bool.and_eq_true, decide_eq_true_eq] at hm
    unfold Memory.set
    split
    · simp only [Memory.rising, Bool.and_eq_true, decide_eq_true_eq]; exact ⟨⟨hlo, hhi⟩, ⟨by omega, hm.1.2⟩, hm.2⟩
    · split
      · next e => subst e; simp only [Memory.rising, Bool.and_eq_true, decide_eq_true_eq]; exact hm
      · simp only [Memory.rising, Bool.and_eq_true, decide_eq_true_eq]
        exact ⟨hm.1, ih hm.2 (by omega)⟩

theorem Memory.wf_set {size i : Nat} {b : Byte} {m : Memory} (hm : m.wf size = true) (hi : i < size) :
    (m.set i b).wf size = true := Memory.rising_set hm (Nat.zero_le _) hi

theorem Memory.wf_setBytes {size i : Nat} {bs : List Byte} {m : Memory} (hm : m.wf size = true)
    (hi : i + bs.length ≤ size) : (m.setBytes i bs).wf size = true := by
  induction bs generalizing m i with
  | nil => exact hm
  | cons b bs ih =>
    simp only [List.length_cons] at hi
    exact ih (Memory.wf_set hm (by omega)) (by omega)

theorem Memory.rising_ofBytes (i hi : Nat) (bs : List Byte) (h : i + bs.length ≤ hi) :
    Memory.rising i hi (Memory.ofBytes i bs) = true := by
  induction bs generalizing i with
  | nil => rfl
  | cons b bs ih =>
    simp only [List.length_cons] at h
    simp only [Memory.ofBytes, Memory.rising, Bool.and_eq_true, decide_eq_true_eq]
    exact ⟨⟨Nat.le_refl _, by omega⟩, ih _ (by omega)⟩

theorem Memory.wf_ofBytes {size : Nat} {bs : List Byte} (h : bs.length ≤ size) :
    (Memory.ofBytes 0 bs).wf size = true := Memory.rising_ofBytes 0 size bs (by omega)

@[simp] theorem Memory.wf_nil (size : Nat) : Memory.wf size [] = true := rfl

end Sys2Proof.Machine
end

