-- ==== Sys2Proof/Laws/State.lean ====
section
/-!
SUPPORT. One lemma for each field of State under each named update, true by unfolding the record once.
-/
namespace Sys2Proof.Machine

@[simp] theorem answered_cfg (a : Answer) (s : State) : (answered a s).cfg = s.cfg := rfl
@[simp] theorem answered_ram (a : Answer) (s : State) : (answered a s).ram = s.ram := rfl
@[simp] theorem answered_rom (a : Answer) (s : State) : (answered a s).rom = s.rom := rfl
@[simp] theorem answered_config (a : Answer) (s : State) : (answered a s).config = s.config := rfl
@[simp] theorem answered_lcd (a : Answer) (s : State) : (answered a s).lcd = s.lcd := rfl
@[simp] theorem answered_snd (a : Answer) (s : State) : (answered a s).snd = s.snd := rfl
@[simp] theorem answered_soundOn (a : Answer) (s : State) : (answered a s).soundOn = s.soundOn := rfl
@[simp] theorem answered_soundCb (a : Answer) (s : State) : (answered a s).soundCb = s.soundCb := rfl
@[simp] theorem answered_ext (a : Answer) (s : State) : (answered a s).ext = s.ext := rfl
@[simp] theorem answered_slot0 (a : Answer) (s : State) : (answered a s).slot0 = s.slot0 := rfl
@[simp] theorem answered_slot1 (a : Answer) (s : State) : (answered a s).slot1 = s.slot1 := rfl
@[simp] theorem answered_bpSet (a : Answer) (s : State) : (answered a s).bpSet = s.bpSet := rfl
@[simp] theorem answered_registry (a : Answer) (s : State) : (answered a s).registry = s.registry := rfl
@[simp] theorem answered_uptime (a : Answer) (s : State) : (answered a s).uptime = s.uptime := rfl
@[simp] theorem answered_frame (a : Answer) (s : State) : (answered a s).frame = s.frame := rfl
@[simp] theorem answered_cpu (a : Answer) (s : State) : (answered a s).cpu = s.cpu := rfl
@[simp] theorem answered_inbox (a : Answer) (s : State) : (answered a s).inbox = s.inbox := rfl
@[simp] theorem answered_out (a : Answer) (s : State) : (answered a s).out = { s.out with answer := a } := rfl

@[simp] theorem emit_cfg (g : Signal) (s : State) : (emit g s).cfg = s.cfg := rfl
@[simp] theorem emit_ram (g : Signal) (s : State) : (emit g s).ram = s.ram := rfl
@[simp] theorem emit_rom (g : Signal) (s : State) : (emit g s).rom = s.rom := rfl
@[simp] theorem emit_config (g : Signal) (s : State) : (emit g s).config = s.config := rfl
@[simp] theorem emit_lcd (g : Signal) (s : State) : (emit g s).lcd = s.lcd := rfl
@[simp] theorem emit_snd (g : Signal) (s : State) : (emit g s).snd = s.snd := rfl
@[simp] theorem emit_soundOn (g : Signal) (s : State) : (emit g s).soundOn = s.soundOn := rfl
@[simp] theorem emit_soundCb (g : Signal) (s : State) : (emit g s).soundCb = s.soundCb := rfl
@[simp] theorem emit_ext (g : Signal) (s : State) : (emit g s).ext = s.ext := rfl
@[simp] theorem emit_slot0 (g : Signal) (s : State) : (emit g s).slot0 = s.slot0 := rfl
@[simp] theorem emit_slot1 (g : Signal) (s : State) : (emit g s).slot1 = s.slot1 := rfl
@[simp] theorem emit_bpSet (g : Signal) (s : State) : (emit g s).bpSet = s.bpSet := rfl
@[simp] theorem emit_registry (g : Signal) (s : State) : (emit g s).registry = s.registry := rfl
@[simp] theorem emit_uptime (g : Signal) (s : State) : (emit g s).uptime = s.uptime := rfl
@[simp] theorem emit_frame (g : Signal) (s : State) : (emit g s).frame = s.frame := rfl
@[simp] theorem emit_cpu (g : Signal) (s : State) : (emit g s).cpu = s.cpu := rfl
@[simp] theorem emit_inbox (g : Signal) (s : State) : (emit g s).inbox = s.inbox := rfl
@[simp] theorem emit_out (g : Signal) (s : State) : (emit g s).out = { s.out with signals := g :: s.out.signals } := rfl

@[simp] theorem drawn_cfg (s : State) : (drawn s).cfg = s.cfg := rfl
@[simp] theorem drawn_ram (s : State) : (drawn s).ram = s.ram := rfl
@[simp] theorem drawn_rom (s : State) : (drawn s).rom = s.rom := rfl
@[simp] theorem drawn_config (s : State) : (drawn s).config = s.config := rfl
@[simp] theorem drawn_lcd (s : State) : (drawn s).lcd = s.lcd := rfl
@[simp] theorem drawn_snd (s : State) : (drawn s).snd = s.snd := rfl
@[simp] theorem drawn_soundOn (s : State) : (drawn s).soundOn = s.soundOn := rfl
@[simp] theorem drawn_soundCb (s : State) : (drawn s).soundCb = s.soundCb := rfl
@[simp] theorem drawn_ext (s : State) : (drawn s).ext = s.ext := rfl
@[simp] theorem drawn_slot0 (s : State) : (drawn s).slot0 = s.slot0 := rfl
@[simp] theorem drawn_slot1 (s : State) : (drawn s).slot1 = s.slot1 := rfl
@[simp] theorem drawn_bpSet (s : State) : (drawn s).bpSet = s.bpSet := rfl
@[simp] theorem drawn_registry (s : State) : (drawn s).registry = s.registry := rfl
@[simp] theorem drawn_uptime (s : State) : (drawn s).uptime = s.uptime := rfl
@[simp] theorem drawn_frame (s : State) : (drawn s).frame = s.frame := rfl
@[simp] theorem drawn_cpu (s : State) : (drawn s).cpu = s.cpu := rfl
@[simp] theorem drawn_inbox (s : State) : (drawn s).inbox = s.inbox := rfl
@[simp] theorem drawn_out (s : State) : (drawn s).out = { s.out with draws := s.out.draws + 1 } := rfl

@[simp] theorem raiseBusFault_cfg (c : FaultCause) (acc : Access) (s : State) : (raiseBusFault c acc s).cfg = s.cfg := rfl
@[simp] theorem raiseBusFault_ram (c : FaultCause) (acc : Access) (s : State) : (raiseBusFault c acc s).ram = s.ram := rfl
@[simp] theorem raiseBusFault_rom (c : FaultCause) (acc : Access) (s : State) : (raiseBusFault c acc s).rom = s.rom := rfl
@[simp] theorem raiseBusFault_config (c : FaultCause) (acc : Access) (s : State) : (raiseBusFault c acc s).config = s.config := rfl
@[simp] theorem raiseBusFault_lcd (c : FaultCause) (acc : Access) (s : State) : (raiseBusFault c acc s).lcd = s.lcd := rfl
@[simp] theorem raiseBusFault_snd (c : FaultCause) (acc : Access) (s : State) : (raiseBusFault c acc s).snd = s.snd := rfl
@[simp] theorem raiseBusFault_soundOn (c : FaultCause) (acc : Access) (s : State) : (raiseBusFault c acc s).soundOn = s.soundOn := rfl
@[simp] theorem raiseBusFault_soundCb (c : FaultCause) (acc : Access) (s : State) : (raiseBusFault c acc s).soundCb = s.soundCb := rfl
@[simp] theorem raiseBusFault_ext (c : FaultCause) (acc : Access) (s : State) : (raiseBusFault c acc s).ext = s.ext := rfl
@[simp] theorem raiseBusFault_slot0 (c : FaultCause) (acc : Access) (s : State) : (raiseBusFault c acc s).slot0 = s.slot0 := rfl
@[simp] theorem raiseBusFault_slot1 (c : FaultCause) (acc : Access) (s : State) : (raiseBusFault c acc s).slot1 = s.slot1 := rfl
@[simp] theorem raiseBusFault_bpSet (c : FaultCause) (acc : Access) (s : State) : (raiseBusFault c acc s).bpSet = s.bpSet := rfl
@[simp] theorem raiseBusFault_registry (c : FaultCause) (acc : Access) (s : State) : (raiseBusFault c acc s).registry = s.registry := rfl
@[simp] theorem raiseBusFault_uptime (c : FaultCause) (acc : Access) (s : State) : (raiseBusFault c acc s).uptime = s.uptime := rfl
@[simp] theorem raiseBusFault_frame (c : FaultCause) (acc : Access) (s : State) : (raiseBusFault c acc s).frame = s.frame := rfl
@[simp] theorem raiseBusFault_cpu (c : FaultCause) (acc : Access) (s : State) : (raiseBusFault c acc s).cpu = s.cpu := rfl
@[simp] theorem raiseBusFault_inbox (c : FaultCause) (acc : Access) (s : State) : (raiseBusFault c acc s).inbox = s.inbox := rfl
@[simp] theorem raiseBusFault_out (c : FaultCause) (acc : Access) (s : State) : (raiseBusFault c acc s).out = { s.out with signals := .memoryError :: s.out.signals, faultLog := ⟨c, acc⟩ :: s.out.faultLog } := rfl

@[simp] theorem raiseVirq_cfg (l : Nat) (v : Nat) (s : State) : (raiseVirq l v s).cfg = s.cfg := rfl
@[simp] theorem raiseVirq_ram (l : Nat) (v : Nat) (s : State) : (raiseVirq l v s).ram = s.ram := rfl
@[simp] theorem raiseVirq_rom (l : Nat) (v : Nat) (s : State) : (raiseVirq l v s).rom = s.rom := rfl
@[simp] theorem raiseVirq_config (l : Nat) (v : Nat) (s : State) : (raiseVirq l v s).config = s.config := rfl
@[simp] theorem raiseVirq_lcd (l : Nat) (v : Nat) (s : State) : (raiseVirq l v s).lcd = s.lcd := rfl
@[simp] theorem raiseVirq_snd (l : Nat) (v : Nat) (s : State) : (raiseVirq l v s).snd = s.snd := rfl
@[simp] theorem raiseVirq_soundOn (l : Nat) (v : Nat) (s : State) : (raiseVirq l v s).soundOn = s.soundOn := rfl
@[simp] theorem raiseVirq_soundCb (l : Nat) (v : Nat) (s : State) : (raiseVirq l v s).soundCb = s.soundCb := rfl
@[simp] theorem raiseVirq_ext (l : Nat) (v : Nat) (s : State) : (raiseVirq l v s).ext = s.ext := rfl
@[simp] theorem raiseVirq_slot0 (l : Nat) (v : Nat) (s : State) : (raiseVirq l v s).slot0 = s.slot0 := rfl
@[simp] theorem raiseVirq_slot1 (l : Nat) (v : Nat) (s : State) : (raiseVirq l v s).slot1 = s.slot1 := rfl
@[simp] theorem raiseVirq_bpSet (l : Nat) (v : Nat) (s : State) : (raiseVirq l v s).bpSet = s.bpSet := rfl
@[simp] theorem raiseVirq_registry (l : Nat) (v : Nat) (s : State) : (raiseVirq l v s).registry = s.registry := rfl
@[simp] theorem raiseVirq_uptime (l : Nat) (v : Nat) (s : State) : (raiseVirq l v s).uptime = s.uptime := rfl
@[simp] theorem raiseVirq_frame (l : Nat) (v : Nat) (s : State) : (raiseVirq l v s).frame = s.frame := rfl
@[simp] theorem raiseVirq_cpu (l : Nat) (v : Nat) (s : State) : (raiseVirq l v s).cpu = s.cpu := rfl
@[simp] theorem raiseVirq_inbox (l : Nat) (v : Nat) (s : State) : (raiseVirq l v s).inbox = s.inbox := rfl
@[simp] theorem raiseVirq_out (l : Nat) (v : Nat) (s : State) : (raiseVirq l v s).out = { s.out with signals := .interruptVirq l v :: s.out.signals } := rfl

@[simp] theorem raiseKbd_cfg (s : State) : (raiseKbd s).cfg = s.cfg := rfl
@[simp] theorem raiseKbd_ram (s : State) : (raiseKbd s).ram = s.ram := rfl
@[simp] theorem raiseKbd_rom (s : State) : (raiseKbd s).rom = s.rom := rfl
@[simp] theorem raiseKbd_config (s : State) : (raiseKbd s).config = s.config := rfl
@[simp] theorem raiseKbd_lcd (s : State) : (raiseKbd s).lcd = s.lcd := rfl
@[simp] theorem raiseKbd_snd (s : State) : (raiseKbd s).snd = s.snd := rfl
@[simp] theorem raiseKbd_soundOn (s : State) : (raiseKbd s).soundOn = s.soundOn := rfl
@[simp] theorem raiseKbd_soundCb (s : State) : (raiseKbd s).soundCb = s.soundCb := rfl
@[simp] theorem raiseKbd_ext (s : State) : (raiseKbd s).ext = s.ext := rfl
@[simp] theorem raiseKbd_slot0 (s : State) : (raiseKbd s).slot0 = s.slot0 := rfl
@[simp] theorem raiseKbd_slot1 (s : State) : (raiseKbd s).slot1 = s.slot1 := rfl
@[simp] theorem raiseKbd_bpSet (s : State) : (raiseKbd s).bpSet = s.bpSet := rfl
@[simp] theorem raiseKbd_registry (s : State) : (raiseKbd s).registry = s.registry := rfl
@[simp] theorem raiseKbd_uptime (s : State) : (raiseKbd s).uptime = s.uptime := rfl
@[simp] theorem raiseKbd_frame (s : State) : (raiseKbd s).frame = s.frame := rfl
@[simp] theorem raiseKbd_cpu (s : State) : (raiseKbd s).cpu = s.cpu := rfl
@[simp] theorem raiseKbd_inbox (s : State) : (raiseKbd s).inbox = s.inbox := rfl
@[simp] theorem raiseKbd_out (s : State) : (raiseKbd s).out = { s.out with signals := .interruptVirq s.cfg.kbdLevel s.cfg.kbdVector :: s.out.signals } := rfl

@[simp] theorem raiseExt_cfg (s : State) : (raiseExt s).cfg = s.cfg := rfl
@[simp] theorem raiseExt_ram (s : State) : (raiseExt s).ram = s.ram := rfl
@[simp] theorem raiseExt_rom (s : State) : (raiseExt s).rom = s.rom := rfl
@[simp] theorem raiseExt_config (s : State) : (raiseExt s).config = s.config := rfl
@[simp] theorem raiseExt_lcd (s : State) : (raiseExt s).lcd = s.lcd := rfl
@[simp] theorem raiseExt_snd (s : State) : (raiseExt s).snd = s.snd := rfl
@[simp] theorem raiseExt_soundOn (s : State) : (raiseExt s).soundOn = s.soundOn := rfl
@[simp] theorem raiseExt_soundCb (s : State) : (raiseExt s).soundCb = s.soundCb := rfl
@[simp] theorem raiseExt_ext (s : State) : (raiseExt s).ext = s.ext := rfl
@[simp] theorem raiseExt_slot0 (s : State) : (raiseExt s).slot0 = s.slot0 := rfl
@[simp] theorem raiseExt_slot1 (s : State) : (raiseExt s).slot1 = s.slot1 := rfl
@[simp] theorem raiseExt_bpSet (s : State) : (raiseExt s).bpSet = s.bpSet := rfl
@[simp] theorem raiseExt_registry (s : State) : (raiseExt s).registry = s.registry := rfl
@[simp] theorem raiseExt_uptime (s : State) : (raiseExt s).uptime = s.uptime := rfl
@[simp] theorem raiseExt_frame (s : State) : (raiseExt s).frame = s.frame := rfl
@[simp] theorem raiseExt_cpu (s : State) : (raiseExt s).cpu = s.cpu := rfl
@[simp] theorem raiseExt_inbox (s : State) : (raiseExt s).inbox = s.inbox := rfl
@[simp] theorem raiseExt_out (s : State) : (raiseExt s).out = { s.out with signals := .interruptVirq s.cfg.extLevel s.cfg.extVector :: s.out.signals } := rfl

@[simp] theorem raiseEvnt_cfg (s : State) : (raiseEvnt s).cfg = s.cfg := rfl
@[simp] theorem raiseEvnt_ram (s : State) : (raiseEvnt s).ram = s.ram := rfl
@[simp] theorem raiseEvnt_rom (s : State) : (raiseEvnt s).rom = s.rom := rfl
@[simp] theorem raiseEvnt_config (s : State) : (raiseEvnt s).config = s.config := rfl
@[simp] theorem raiseEvnt_lcd (s : State) : (raiseEvnt s).lcd = s.lcd := rfl
@[simp] theorem raiseEvnt_snd (s : State) : (raiseEvnt s).snd = s.snd := rfl
@[simp] theorem raiseEvnt_soundOn (s : State) : (raiseEvnt s).soundOn = s.soundOn := rfl
@[simp] theorem raiseEvnt_soundCb (s : State) : (raiseEvnt s).soundCb = s.soundCb := rfl
@[simp] theorem raiseEvnt_ext (s : State) : (raiseEvnt s).ext = s.ext := rfl
@[simp] theorem raiseEvnt_slot0 (s : State) : (raiseEvnt s).slot0 = s.slot0 := rfl
@[simp] theorem raiseEvnt_slot1 (s : State) : (raiseEvnt s).slot1 = s.slot1 := rfl
@[simp] theorem raiseEvnt_bpSet (s : State) : (raiseEvnt s).bpSet = s.bpSet := rfl
@[simp] theorem raiseEvnt_registry (s : State) : (raiseEvnt s).registry = s.registry := rfl
@[simp] theorem raiseEvnt_uptime (s : State) : (raiseEvnt s).uptime = s.uptime := rfl
@[simp] theorem raiseEvnt_frame (s : State) : (raiseEvnt s).frame = s.frame := rfl
@[simp] theorem raiseEvnt_cpu (s : State) : (raiseEvnt s).cpu = s.cpu := rfl
@[simp] theorem raiseEvnt_inbox (s : State) : (raiseEvnt s).inbox = s.inbox := rfl
@[simp] theorem raiseEvnt_out (s : State) : (raiseEvnt s).out = { s.out with signals := .interruptVirq s.cfg.evntLevel s.cfg.evntVector :: s.out.signals } := rfl

@[simp] theorem setRamByte_cfg (i : Nat) (b : Byte) (s : State) : (setRamByte i b s).cfg = s.cfg := rfl
@[simp] theorem setRamByte_ram (i : Nat) (b : Byte) (s : State) : (setRamByte i b s).ram = s.ram.set i b := rfl
@[simp] theorem setRamByte_rom (i : Nat) (b : Byte) (s : State) : (setRamByte i b s).rom = s.rom := rfl
@[simp] theorem setRamByte_config (i : Nat) (b : Byte) (s : State) : (setRamByte i b s).config = s.config := rfl
@[simp] theorem setRamByte_lcd (i : Nat) (b : Byte) (s : State) : (setRamByte i b s).lcd = s.lcd := rfl
@[simp] theorem setRamByte_snd (i : Nat) (b : Byte) (s : State) : (setRamByte i b s).snd = s.snd := rfl
@[simp] theorem setRamByte_soundOn (i : Nat) (b : Byte) (s : State) : (setRamByte i b s).soundOn = s.soundOn := rfl
@[simp] theorem setRamByte_soundCb (i : Nat) (b : Byte) (s : State) : (setRamByte i b s).soundCb = s.soundCb := rfl
@[simp] theorem setRamByte_ext (i : Nat) (b : Byte) (s : State) : (setRamByte i b s).ext = s.ext := rfl
@[simp] theorem setRamByte_slot0 (i : Nat) (b : Byte) (s : State) : (setRamByte i b s).slot0 = s.slot0 := rfl
@[simp] theorem setRamByte_slot1 (i : Nat) (b : Byte) (s : State) : (setRamByte i b s).slot1 = s.slot1 := rfl
@[simp] theorem setRamByte_bpSet (i : Nat) (b : Byte) (s : State) : (setRamByte i b s).bpSet = s.bpSet := rfl
@[simp] theorem setRamByte_registry (i : Nat) (b : Byte) (s : State) : (setRamByte i b s).registry = s.registry := rfl
@[simp] theorem setRamByte_uptime (i : Nat) (b : Byte) (s : State) : (setRamByte i b s).uptime = s.uptime := rfl
@[simp] theorem setRamByte_frame (i : Nat) (b : Byte) (s : State) : (setRamByte i b s).frame = s.frame := rfl
@[simp] theorem setRamByte_cpu (i : Nat) (b : Byte) (s : State) : (setRamByte i b s).cpu = s.cpu := rfl
@[simp] theorem setRamByte_inbox (i : Nat) (b : Byte) (s : State) : (setRamByte i b s).inbox = s.inbox := rfl
@[simp] theorem setRamByte_out (i : Nat) (b : Byte) (s : State) : (setRamByte i b s).out = s.out := rfl

@[simp] theorem setRamWord_cfg (o : Nat) (v : Word) (s : State) : (setRamWord o v s).cfg = s.cfg := rfl
@[simp] theorem setRamWord_ram (o : Nat) (v : Word) (s : State) : (setRamWord o v s).ram = (s.ram.set o (lo8 v)).set (o + 1) (hi8 v) := rfl
@[simp] theorem setRamWord_rom (o : Nat) (v : Word) (s : State) : (setRamWord o v s).rom = s.rom := rfl
@[simp] theorem setRamWord_config (o : Nat) (v : Word) (s : State) : (setRamWord o v s).config = s.config := rfl
@[simp] theorem setRamWord_lcd (o : Nat) (v : Word) (s : State) : (setRamWord o v s).lcd = s.lcd := rfl
@[simp] theorem setRamWord_snd (o : Nat) (v : Word) (s : State) : (setRamWord o v s).snd = s.snd := rfl
@[simp] theorem setRamWord_soundOn (o : Nat) (v : Word) (s : State) : (setRamWord o v s).soundOn = s.soundOn := rfl
@[simp] theorem setRamWord_soundCb (o : Nat) (v : Word) (s : State) : (setRamWord o v s).soundCb = s.soundCb := rfl
@[simp] theorem setRamWord_ext (o : Nat) (v : Word) (s : State) : (setRamWord o v s).ext = s.ext := rfl
@[simp] theorem setRamWord_slot0 (o : Nat) (v : Word) (s : State) : (setRamWord o v s).slot0 = s.slot0 := rfl
@[simp] theorem setRamWord_slot1 (o : Nat) (v : Word) (s : State) : (setRamWord o v s).slot1 = s.slot1 := rfl
@[simp] theorem setRamWord_bpSet (o : Nat) (v : Word) (s : State) : (setRamWord o v s).bpSet = s.bpSet := rfl
@[simp] theorem setRamWord_registry (o : Nat) (v : Word) (s : State) : (setRamWord o v s).registry = s.registry := rfl
@[simp] theorem setRamWord_uptime (o : Nat) (v : Word) (s : State) : (setRamWord o v s).uptime = s.uptime := rfl
@[simp] theorem setRamWord_frame (o : Nat) (v : Word) (s : State) : (setRamWord o v s).frame = s.frame := rfl
@[simp] theorem setRamWord_cpu (o : Nat) (v : Word) (s : State) : (setRamWord o v s).cpu = s.cpu := rfl
@[simp] theorem setRamWord_inbox (o : Nat) (v : Word) (s : State) : (setRamWord o v s).inbox = s.inbox := rfl
@[simp] theorem setRamWord_out (o : Nat) (v : Word) (s : State) : (setRamWord o v s).out = s.out := rfl

@[simp] theorem setLcdAddr_cfg (v : Word) (s : State) : (setLcdAddr v s).cfg = s.cfg := rfl
@[simp] theorem setLcdAddr_ram (v : Word) (s : State) : (setLcdAddr v s).ram = s.ram := rfl
@[simp] theorem setLcdAddr_rom (v : Word) (s : State) : (setLcdAddr v s).rom = s.rom := rfl
@[simp] theorem setLcdAddr_config (v : Word) (s : State) : (setLcdAddr v s).config = s.config := rfl
@[simp] theorem setLcdAddr_lcd (v : Word) (s : State) : (setLcdAddr v s).lcd = { s.lcd with addr := v } := rfl
@[simp] theorem setLcdAddr_snd (v : Word) (s : State) : (setLcdAddr v s).snd = s.snd := rfl
@[simp] theorem setLcdAddr_soundOn (v : Word) (s : State) : (setLcdAddr v s).soundOn = s.soundOn := rfl
@[simp] theorem setLcdAddr_soundCb (v : Word) (s : State) : (setLcdAddr v s).soundCb = s.soundCb := rfl
@[simp] theorem setLcdAddr_ext (v : Word) (s : State) : (setLcdAddr v s).ext = s.ext := rfl
@[simp] theorem setLcdAddr_slot0 (v : Word) (s : State) : (setLcdAddr v s).slot0 = s.slot0 := rfl
@[simp] theorem setLcdAddr_slot1 (v : Word) (s : State) : (setLcdAddr v s).slot1 = s.slot1 := rfl
@[simp] theorem setLcdAddr_bpSet (v : Word) (s : State) : (setLcdAddr v s).bpSet = s.bpSet := rfl
@[simp] theorem setLcdAddr_registry (v : Word) (s : State) : (setLcdAddr v s).registry = s.registry := rfl
@[simp] theorem setLcdAddr_uptime (v : Word) (s : State) : (setLcdAddr v s).uptime = s.uptime := rfl
@[simp] theorem setLcdAddr_frame (v : Word) (s : State) : (setLcdAddr v s).frame = s.frame := rfl
@[simp] theorem setLcdAddr_cpu (v : Word) (s : State) : (setLcdAddr v s).cpu = s.cpu := rfl
@[simp] theorem setLcdAddr_inbox (v : Word) (s : State) : (setLcdAddr v s).inbox = s.inbox := rfl
@[simp] theorem setLcdAddr_out (v : Word) (s : State) : (setLcdAddr v s).out = s.out := rfl

@[simp] theorem setLcdConf_cfg (v : Word) (s : State) : (setLcdConf v s).cfg = s.cfg := rfl
@[simp] theorem setLcdConf_ram (v : Word) (s : State) : (setLcdConf v s).ram = s.ram := rfl
@[simp] theorem setLcdConf_rom (v : Word) (s : State) : (setLcdConf v s).rom = s.rom := rfl
@[simp] theorem setLcdConf_config (v : Word) (s : State) : (setLcdConf v s).config = s.config := rfl
@[simp] theorem setLcdConf_lcd (v : Word) (s : State) : (setLcdConf v s).lcd = { s.lcd with conf := v } := rfl
@[simp] theorem setLcdConf_snd (v : Word) (s : State) : (setLcdConf v s).snd = s.snd := rfl
@[simp] theorem setLcdConf_soundOn (v : Word) (s : State) : (setLcdConf v s).soundOn = s.soundOn := rfl
@[simp] theorem setLcdConf_soundCb (v : Word) (s : State) : (setLcdConf v s).soundCb = s.soundCb := rfl
@[simp] theorem setLcdConf_ext (v : Word) (s : State) : (setLcdConf v s).ext = s.ext := rfl
@[simp] theorem setLcdConf_slot0 (v : Word) (s : State) : (setLcdConf v s).slot0 = s.slot0 := rfl
@[simp] theorem setLcdConf_slot1 (v : Word) (s : State) : (setLcdConf v s).slot1 = s.slot1 := rfl
@[simp] theorem setLcdConf_bpSet (v : Word) (s : State) : (setLcdConf v s).bpSet = s.bpSet := rfl
@[simp] theorem setLcdConf_registry (v : Word) (s : State) : (setLcdConf v s).registry = s.registry := rfl
@[simp] theorem setLcdConf_uptime (v : Word) (s : State) : (setLcdConf v s).uptime = s.uptime := rfl
@[simp] theorem setLcdConf_frame (v : Word) (s : State) : (setLcdConf v s).frame = s.frame := rfl
@[simp] theorem setLcdConf_cpu (v : Word) (s : State) : (setLcdConf v s).cpu = s.cpu := rfl
@[simp] theorem setLcdConf_inbox (v : Word) (s : State) : (setLcdConf v s).inbox = s.inbox := rfl
@[simp] theorem setLcdConf_out (v : Word) (s : State) : (setLcdConf v s).out = s.out := rfl

@[simp] theorem setLcdIndex_cfg (v : Word) (s : State) : (setLcdIndex v s).cfg = s.cfg := rfl
@[simp] theorem setLcdIndex_ram (v : Word) (s : State) : (setLcdIndex v s).ram = s.ram := rfl
@[simp] theorem setLcdIndex_rom (v : Word) (s : State) : (setLcdIndex v s).rom = s.rom := rfl
@[simp] theorem setLcdIndex_config (v : Word) (s : State) : (setLcdIndex v s).config = s.config := rfl
@[simp] theorem setLcdIndex_lcd (v : Word) (s : State) : (setLcdIndex v s).lcd = { s.lcd with index := v } := rfl
@[simp] theorem setLcdIndex_snd (v : Word) (s : State) : (setLcdIndex v s).snd = s.snd := rfl
@[simp] theorem setLcdIndex_soundOn (v : Word) (s : State) : (setLcdIndex v s).soundOn = s.soundOn := rfl
@[simp] theorem setLcdIndex_soundCb (v : Word) (s : State) : (setLcdIndex v s).soundCb = s.soundCb := rfl
@[simp] theorem setLcdIndex_ext (v : Word) (s : State) : (setLcdIndex v s).ext = s.ext := rfl
@[simp] theorem setLcdIndex_slot0 (v : Word) (s : State) : (setLcdIndex v s).slot0 = s.slot0 := rfl
@[simp] theorem setLcdIndex_slot1 (v : Word) (s : State) : (setLcdIndex v s).slot1 = s.slot1 := rfl
@[simp] theorem setLcdIndex_bpSet (v : Word) (s : State) : (setLcdIndex v s).bpSet = s.bpSet := rfl
@[simp] theorem setLcdIndex_registry (v : Word) (s : State) : (setLcdIndex v s).registry = s.registry := rfl
@[simp] theorem setLcdIndex_uptime (v : Word) (s : State) : (setLcdIndex v s).uptime = s.uptime := rfl
@[simp] theorem setLcdIndex_frame (v : Word) (s : State) : (setLcdIndex v s).frame = s.frame := rfl
@[simp] theorem setLcdIndex_cpu (v : Word) (s : State) : (setLcdIndex v s).cpu = s.cpu := rfl
@[simp] theorem setLcdIndex_inbox (v : Word) (s : State) : (setLcdIndex v s).inbox = s.inbox := rfl
@[simp] theorem setLcdIndex_out (v : Word) (s : State) : (setLcdIndex v s).out = s.out := rfl

@[simp] theorem setSndCtl_cfg (v : Word) (s : State) : (setSndCtl v s).cfg = s.cfg := rfl
@[simp] theorem setSndCtl_ram (v : Word) (s : State) : (setSndCtl v s).ram = s.ram := rfl
@[simp] theorem setSndCtl_rom (v : Word) (s : State) : (setSndCtl v s).rom = s.rom := rfl
@[simp] theorem setSndCtl_config (v : Word) (s : State) : (setSndCtl v s).config = s.config := rfl
@[simp] theorem setSndCtl_lcd (v : Word) (s : State) : (setSndCtl v s).lcd = s.lcd := rfl
@[simp] theorem setSndCtl_snd (v : Word) (s : State) : (setSndCtl v s).snd = { s.snd with ctl := v } := rfl
@[simp] theorem setSndCtl_soundOn (v : Word) (s : State) : (setSndCtl v s).soundOn = s.soundOn := rfl
@[simp] theorem setSndCtl_soundCb (v : Word) (s : State) : (setSndCtl v s).soundCb = s.soundCb := rfl
@[simp] theorem setSndCtl_ext (v : Word) (s : State) : (setSndCtl v s).ext = s.ext := rfl
@[simp] theorem setSndCtl_slot0 (v : Word) (s : State) : (setSndCtl v s).slot0 = s.slot0 := rfl
@[simp] theorem setSndCtl_slot1 (v : Word) (s : State) : (setSndCtl v s).slot1 = s.slot1 := rfl
@[simp] theorem setSndCtl_bpSet (v : Word) (s : State) : (setSndCtl v s).bpSet = s.bpSet := rfl
@[simp] theorem setSndCtl_registry (v : Word) (s : State) : (setSndCtl v s).registry = s.registry := rfl
@[simp] theorem setSndCtl_uptime (v : Word) (s : State) : (setSndCtl v s).uptime = s.uptime := rfl
@[simp] theorem setSndCtl_frame (v : Word) (s : State) : (setSndCtl v s).frame = s.frame := rfl
@[simp] theorem setSndCtl_cpu (v : Word) (s : State) : (setSndCtl v s).cpu = s.cpu := rfl
@[simp] theorem setSndCtl_inbox (v : Word) (s : State) : (setSndCtl v s).inbox = s.inbox := rfl
@[simp] theorem setSndCtl_out (v : Word) (s : State) : (setSndCtl v s).out = s.out := rfl

@[simp] theorem setSndReload_cfg (v : Word) (s : State) : (setSndReload v s).cfg = s.cfg := rfl
@[simp] theorem setSndReload_ram (v : Word) (s : State) : (setSndReload v s).ram = s.ram := rfl
@[simp] theorem setSndReload_rom (v : Word) (s : State) : (setSndReload v s).rom = s.rom := rfl
@[simp] theorem setSndReload_config (v : Word) (s : State) : (setSndReload v s).config = s.config := rfl
@[simp] theorem setSndReload_lcd (v : Word) (s : State) : (setSndReload v s).lcd = s.lcd := rfl
@[simp] theorem setSndReload_snd (v : Word) (s : State) : (setSndReload v s).snd = { s.snd with reload := v } := rfl
@[simp] theorem setSndReload_soundOn (v : Word) (s : State) : (setSndReload v s).soundOn = s.soundOn := rfl
@[simp] theorem setSndReload_soundCb (v : Word) (s : State) : (setSndReload v s).soundCb = s.soundCb := rfl
@[simp] theorem setSndReload_ext (v : Word) (s : State) : (setSndReload v s).ext = s.ext := rfl
@[simp] theorem setSndReload_slot0 (v : Word) (s : State) : (setSndReload v s).slot0 = s.slot0 := rfl
@[simp] theorem setSndReload_slot1 (v : Word) (s : State) : (setSndReload v s).slot1 = s.slot1 := rfl
@[simp] theorem setSndReload_bpSet (v : Word) (s : State) : (setSndReload v s).bpSet = s.bpSet := rfl
@[simp] theorem setSndReload_registry (v : Word) (s : State) : (setSndReload v s).registry = s.registry := rfl
@[simp] theorem setSndReload_uptime (v : Word) (s : State) : (setSndReload v s).uptime = s.uptime := rfl
@[simp] theorem setSndReload_frame (v : Word) (s : State) : (setSndReload v s).frame = s.frame := rfl
@[simp] theorem setSndReload_cpu (v : Word) (s : State) : (setSndReload v s).cpu = s.cpu := rfl
@[simp] theorem setSndReload_inbox (v : Word) (s : State) : (setSndReload v s).inbox = s.inbox := rfl
@[simp] theorem setSndReload_out (v : Word) (s : State) : (setSndReload v s).out = s.out := rfl

@[simp] theorem setEnvReload_cfg (v : Word) (s : State) : (setEnvReload v s).cfg = s.cfg := rfl
@[simp] theorem setEnvReload_ram (v : Word) (s : State) : (setEnvReload v s).ram = s.ram := rfl
@[simp] theorem setEnvReload_rom (v : Word) (s : State) : (setEnvReload v s).rom = s.rom := rfl
@[simp] theorem setEnvReload_config (v : Word) (s : State) : (setEnvReload v s).config = s.config := rfl
@[simp] theorem setEnvReload_lcd (v : Word) (s : State) : (setEnvReload v s).lcd = s.lcd := rfl
@[simp] theorem setEnvReload_snd (v : Word) (s : State) : (setEnvReload v s).snd = { s.snd with envReload := v } := rfl
@[simp] theorem setEnvReload_soundOn (v : Word) (s : State) : (setEnvReload v s).soundOn = s.soundOn := rfl
@[simp] theorem setEnvReload_soundCb (v : Word) (s : State) : (setEnvReload v s).soundCb = s.soundCb := rfl
@[simp] theorem setEnvReload_ext (v : Word) (s : State) : (setEnvReload v s).ext = s.ext := rfl
@[simp] theorem setEnvReload_slot0 (v : Word) (s : State) : (setEnvReload v s).slot0 = s.slot0 := rfl
@[simp] theorem setEnvReload_slot1 (v : Word) (s : State) : (setEnvReload v s).slot1 = s.slot1 := rfl
@[simp] theorem setEnvReload_bpSet (v : Word) (s : State) : (setEnvReload v s).bpSet = s.bpSet := rfl
@[simp] theorem setEnvReload_registry (v : Word) (s : State) : (setEnvReload v s).registry = s.registry := rfl
@[simp] theorem setEnvReload_uptime (v : Word) (s : State) : (setEnvReload v s).uptime = s.uptime := rfl
@[simp] theorem setEnvReload_frame (v : Word) (s : State) : (setEnvReload v s).frame = s.frame := rfl
@[simp] theorem setEnvReload_cpu (v : Word) (s : State) : (setEnvReload v s).cpu = s.cpu := rfl
@[simp] theorem setEnvReload_inbox (v : Word) (s : State) : (setEnvReload v s).inbox = s.inbox := rfl
@[simp] theorem setEnvReload_out (v : Word) (s : State) : (setEnvReload v s).out = s.out := rfl

@[simp] theorem setEnvCnt_cfg (v : Word) (s : State) : (setEnvCnt v s).cfg = s.cfg := rfl
@[simp] theorem setEnvCnt_ram (v : Word) (s : State) : (setEnvCnt v s).ram = s.ram := rfl
@[simp] theorem setEnvCnt_rom (v : Word) (s : State) : (setEnvCnt v s).rom = s.rom := rfl
@[simp] theorem setEnvCnt_config (v : Word) (s : State) : (setEnvCnt v s).config = s.config := rfl
@[simp] theorem setEnvCnt_lcd (v : Word) (s : State) : (setEnvCnt v s).lcd = s.lcd := rfl
@[simp] theorem setEnvCnt_snd (v : Word) (s : State) : (setEnvCnt v s).snd = { s.snd with envCnt := v } := rfl
@[simp] theorem setEnvCnt_soundOn (v : Word) (s : State) : (setEnvCnt v s).soundOn = s.soundOn := rfl
@[simp] theorem setEnvCnt_soundCb (v : Word) (s : State) : (setEnvCnt v s).soundCb = s.soundCb := rfl
@[simp] theorem setEnvCnt_ext (v : Word) (s : State) : (setEnvCnt v s).ext = s.ext := rfl
@[simp] theorem setEnvCnt_slot0 (v : Word) (s : State) : (setEnvCnt v s).slot0 = s.slot0 := rfl
@[simp] theorem setEnvCnt_slot1 (v : Word) (s : State) : (setEnvCnt v s).slot1 = s.slot1 := rfl
@[simp] theorem setEnvCnt_bpSet (v : Word) (s : State) : (setEnvCnt v s).bpSet = s.bpSet := rfl
@[simp] theorem setEnvCnt_registry (v : Word) (s : State) : (setEnvCnt v s).registry = s.registry := rfl
@[simp] theorem setEnvCnt_uptime (v : Word) (s : State) : (setEnvCnt v s).uptime = s.uptime := rfl
@[simp] theorem setEnvCnt_frame (v : Word) (s : State) : (setEnvCnt v s).frame = s.frame := rfl
@[simp] theorem setEnvCnt_cpu (v : Word) (s : State) : (setEnvCnt v s).cpu = s.cpu := rfl
@[simp] theorem setEnvCnt_inbox (v : Word) (s : State) : (setEnvCnt v s).inbox = s.inbox := rfl
@[simp] theorem setEnvCnt_out (v : Word) (s : State) : (setEnvCnt v s).out = s.out := rfl

@[simp] theorem setShift_cfg (b : Byte) (s : State) : (setShift b s).cfg = s.cfg := rfl
@[simp] theorem setShift_ram (b : Byte) (s : State) : (setShift b s).ram = s.ram := rfl
@[simp] theorem setShift_rom (b : Byte) (s : State) : (setShift b s).rom = s.rom := rfl
@[simp] theorem setShift_config (b : Byte) (s : State) : (setShift b s).config = s.config := rfl
@[simp] theorem setShift_lcd (b : Byte) (s : State) : (setShift b s).lcd = s.lcd := rfl
@[simp] theorem setShift_snd (b : Byte) (s : State) : (setShift b s).snd = s.snd := rfl
@[simp] theorem setShift_soundOn (b : Byte) (s : State) : (setShift b s).soundOn = s.soundOn := rfl
@[simp] theorem setShift_soundCb (b : Byte) (s : State) : (setShift b s).soundCb = s.soundCb := rfl
@[simp] theorem setShift_ext (b : Byte) (s : State) : (setShift b s).ext = { s.ext with shift := b } := rfl
@[simp] theorem setShift_slot0 (b : Byte) (s : State) : (setShift b s).slot0 = s.slot0 := rfl
@[simp] theorem setShift_slot1 (b : Byte) (s : State) : (setShift b s).slot1 = s.slot1 := rfl
@[simp] theorem setShift_bpSet (b : Byte) (s : State) : (setShift b s).bpSet = s.bpSet := rfl
@[simp] theorem setShift_registry (b : Byte) (s : State) : (setShift b s).registry = s.registry := rfl
@[simp] theorem setShift_uptime (b : Byte) (s : State) : (setShift b s).uptime = s.uptime := rfl
@[simp] theorem setShift_frame (b : Byte) (s : State) : (setShift b s).frame = s.frame := rfl
@[simp] theorem setShift_cpu (b : Byte) (s : State) : (setShift b s).cpu = s.cpu := rfl
@[simp] theorem setShift_inbox (b : Byte) (s : State) : (setShift b s).inbox = s.inbox := rfl
@[simp] theorem setShift_out (b : Byte) (s : State) : (setShift b s).out = s.out := rfl

@[simp] theorem setSelected_cfg (b : Bool) (s : State) : (setSelected b s).cfg = s.cfg := rfl
@[simp] theorem setSelected_ram (b : Bool) (s : State) : (setSelected b s).ram = s.ram := rfl
@[simp] theorem setSelected_rom (b : Bool) (s : State) : (setSelected b s).rom = s.rom := rfl
@[simp] theorem setSelected_config (b : Bool) (s : State) : (setSelected b s).config = s.config := rfl
@[simp] theorem setSelected_lcd (b : Bool) (s : State) : (setSelected b s).lcd = s.lcd := rfl
@[simp] theorem setSelected_snd (b : Bool) (s : State) : (setSelected b s).snd = s.snd := rfl
@[simp] theorem setSelected_soundOn (b : Bool) (s : State) : (setSelected b s).soundOn = s.soundOn := rfl
@[simp] theorem setSelected_soundCb (b : Bool) (s : State) : (setSelected b s).soundCb = s.soundCb := rfl
@[simp] theorem setSelected_ext (b : Bool) (s : State) : (setSelected b s).ext = { s.ext with selected := b } := rfl
@[simp] theorem setSelected_slot0 (b : Bool) (s : State) : (setSelected b s).slot0 = s.slot0 := rfl
@[simp] theorem setSelected_slot1 (b : Bool) (s : State) : (setSelected b s).slot1 = s.slot1 := rfl
@[simp] theorem setSelected_bpSet (b : Bool) (s : State) : (setSelected b s).bpSet = s.bpSet := rfl
@[simp] theorem setSelected_registry (b : Bool) (s : State) : (setSelected b s).registry = s.registry := rfl
@[simp] theorem setSelected_uptime (b : Bool) (s : State) : (setSelected b s).uptime = s.uptime := rfl
@[simp] theorem setSelected_frame (b : Bool) (s : State) : (setSelected b s).frame = s.frame := rfl
@[simp] theorem setSelected_cpu (b : Bool) (s : State) : (setSelected b s).cpu = s.cpu := rfl
@[simp] theorem setSelected_inbox (b : Bool) (s : State) : (setSelected b s).inbox = s.inbox := rfl
@[simp] theorem setSelected_out (b : Bool) (s : State) : (setSelected b s).out = s.out := rfl

@[simp] theorem extControlWrite_cfg (v : Word) (s : State) : (extControlWrite v s).cfg = s.cfg := rfl
@[simp] theorem extControlWrite_ram (v : Word) (s : State) : (extControlWrite v s).ram = s.ram := rfl
@[simp] theorem extControlWrite_rom (v : Word) (s : State) : (extControlWrite v s).rom = s.rom := rfl
@[simp] theorem extControlWrite_config (v : Word) (s : State) : (extControlWrite v s).config = s.config := rfl
@[simp] theorem extControlWrite_lcd (v : Word) (s : State) : (extControlWrite v s).lcd = s.lcd := rfl
@[simp] theorem extControlWrite_snd (v : Word) (s : State) : (extControlWrite v s).snd = s.snd := rfl
@[simp] theorem extControlWrite_soundOn (v : Word) (s : State) : (extControlWrite v s).soundOn = s.soundOn := rfl
@[simp] theorem extControlWrite_soundCb (v : Word) (s : State) : (extControlWrite v s).soundCb = s.soundCb := rfl
@[simp] theorem extControlWrite_ext (v : Word) (s : State) : (extControlWrite v s).ext = { s.ext with control := v, selected := s.ext.selected && !ctrlWriteEnds s.cfg s.ext.control v } := rfl
@[simp] theorem extControlWrite_slot0 (v : Word) (s : State) : (extControlWrite v s).slot0 = s.slot0 := rfl
@[simp] theorem extControlWrite_slot1 (v : Word) (s : State) : (extControlWrite v s).slot1 = s.slot1 := rfl
@[simp] theorem extControlWrite_bpSet (v : Word) (s : State) : (extControlWrite v s).bpSet = s.bpSet := rfl
@[simp] theorem extControlWrite_registry (v : Word) (s : State) : (extControlWrite v s).registry = s.registry := rfl
@[simp] theorem extControlWrite_uptime (v : Word) (s : State) : (extControlWrite v s).uptime = s.uptime := rfl
@[simp] theorem extControlWrite_frame (v : Word) (s : State) : (extControlWrite v s).frame = s.frame := rfl
@[simp] theorem extControlWrite_cpu (v : Word) (s : State) : (extControlWrite v s).cpu = s.cpu := rfl
@[simp] theorem extControlWrite_inbox (v : Word) (s : State) : (extControlWrite v s).inbox = s.inbox := rfl
@[simp] theorem extControlWrite_out (v : Word) (s : State) : (extControlWrite v s).out = s.out := rfl

@[simp] theorem setCpuAfter_cfg (x : CpuExec) (s : State) : (setCpuAfter x s).cfg = s.cfg := rfl
@[simp] theorem setCpuAfter_ram (x : CpuExec) (s : State) : (setCpuAfter x s).ram = s.ram := rfl
@[simp] theorem setCpuAfter_rom (x : CpuExec) (s : State) : (setCpuAfter x s).rom = s.rom := rfl
@[simp] theorem setCpuAfter_config (x : CpuExec) (s : State) : (setCpuAfter x s).config = s.config := rfl
@[simp] theorem setCpuAfter_lcd (x : CpuExec) (s : State) : (setCpuAfter x s).lcd = s.lcd := rfl
@[simp] theorem setCpuAfter_snd (x : CpuExec) (s : State) : (setCpuAfter x s).snd = s.snd := rfl
@[simp] theorem setCpuAfter_soundOn (x : CpuExec) (s : State) : (setCpuAfter x s).soundOn = s.soundOn := rfl
@[simp] theorem setCpuAfter_soundCb (x : CpuExec) (s : State) : (setCpuAfter x s).soundCb = s.soundCb := rfl
@[simp] theorem setCpuAfter_ext (x : CpuExec) (s : State) : (setCpuAfter x s).ext = s.ext := rfl
@[simp] theorem setCpuAfter_slot0 (x : CpuExec) (s : State) : (setCpuAfter x s).slot0 = s.slot0 := rfl
@[simp] theorem setCpuAfter_slot1 (x : CpuExec) (s : State) : (setCpuAfter x s).slot1 = s.slot1 := rfl
@[simp] theorem setCpuAfter_bpSet (x : CpuExec) (s : State) : (setCpuAfter x s).bpSet = s.bpSet := rfl
@[simp] theorem setCpuAfter_registry (x : CpuExec) (s : State) : (setCpuAfter x s).registry = s.registry := rfl
@[simp] theorem setCpuAfter_uptime (x : CpuExec) (s : State) : (setCpuAfter x s).uptime = s.uptime := rfl
@[simp] theorem setCpuAfter_frame (x : CpuExec) (s : State) : (setCpuAfter x s).frame = s.frame := rfl
@[simp] theorem setCpuAfter_cpu (x : CpuExec) (s : State) : (setCpuAfter x s).cpu = { s.cpu with pc := x.pc, halt := x.halt, image := x.image } := rfl
@[simp] theorem setCpuAfter_inbox (x : CpuExec) (s : State) : (setCpuAfter x s).inbox = s.inbox := rfl
@[simp] theorem setCpuAfter_out (x : CpuExec) (s : State) : (setCpuAfter x s).out = s.out := rfl

@[simp] theorem setCpuPc_cfg (v : Word) (s : State) : (setCpuPc v s).cfg = s.cfg := rfl
@[simp] theorem setCpuPc_ram (v : Word) (s : State) : (setCpuPc v s).ram = s.ram := rfl
@[simp] theorem setCpuPc_rom (v : Word) (s : State) : (setCpuPc v s).rom = s.rom := rfl
@[simp] theorem setCpuPc_config (v : Word) (s : State) : (setCpuPc v s).config = s.config := rfl
@[simp] theorem setCpuPc_lcd (v : Word) (s : State) : (setCpuPc v s).lcd = s.lcd := rfl
@[simp] theorem setCpuPc_snd (v : Word) (s : State) : (setCpuPc v s).snd = s.snd := rfl
@[simp] theorem setCpuPc_soundOn (v : Word) (s : State) : (setCpuPc v s).soundOn = s.soundOn := rfl
@[simp] theorem setCpuPc_soundCb (v : Word) (s : State) : (setCpuPc v s).soundCb = s.soundCb := rfl
@[simp] theorem setCpuPc_ext (v : Word) (s : State) : (setCpuPc v s).ext = s.ext := rfl
@[simp] theorem setCpuPc_slot0 (v : Word) (s : State) : (setCpuPc v s).slot0 = s.slot0 := rfl
@[simp] theorem setCpuPc_slot1 (v : Word) (s : State) : (setCpuPc v s).slot1 = s.slot1 := rfl
@[simp] theorem setCpuPc_bpSet (v : Word) (s : State) : (setCpuPc v s).bpSet = s.bpSet := rfl
@[simp] theorem setCpuPc_registry (v : Word) (s : State) : (setCpuPc v s).registry = s.registry := rfl
@[simp] theorem setCpuPc_uptime (v : Word) (s : State) : (setCpuPc v s).uptime = s.uptime := rfl
@[simp] theorem setCpuPc_frame (v : Word) (s : State) : (setCpuPc v s).frame = s.frame := rfl
@[simp] theorem setCpuPc_cpu (v : Word) (s : State) : (setCpuPc v s).cpu =
    { s.cpu with pc := v, image := Config.cpuImageAfterSetPc s.cpu.image v } := rfl
@[simp] theorem setCpuPc_inbox (v : Word) (s : State) : (setCpuPc v s).inbox = s.inbox := rfl
@[simp] theorem setCpuPc_out (v : Word) (s : State) : (setCpuPc v s).out = s.out := rfl

theorem setConfigId_of_mem {id : Word} {s : State} (h : id ∈ s.cfg.configIds) : setConfigId id s = { s with config := id } :=
  if_pos (List.contains_iff_mem.mpr h)
theorem setConfigId_of_not_mem {id : Word} {s : State} (h : id ∉ s.cfg.configIds) :
    setConfigId id s = drawn { s with config := Config.otherConfig s.out.draws } :=
  if_neg (fun k => h (List.contains_iff_mem.mp k))
@[simp] theorem setConfigId_cfg (id : Word) (s : State) : (setConfigId id s).cfg = s.cfg := by
  unfold setConfigId; split <;> rfl
@[simp] theorem setConfigId_ram (id : Word) (s : State) : (setConfigId id s).ram = s.ram := by
  unfold setConfigId; split <;> rfl
@[simp] theorem setConfigId_rom (id : Word) (s : State) : (setConfigId id s).rom = s.rom := by
  unfold setConfigId; split <;> rfl
@[simp] theorem setConfigId_lcd (id : Word) (s : State) : (setConfigId id s).lcd = s.lcd := by
  unfold setConfigId; split <;> rfl
@[simp] theorem setConfigId_snd (id : Word) (s : State) : (setConfigId id s).snd = s.snd := by
  unfold setConfigId; split <;> rfl
@[simp] theorem setConfigId_soundOn (id : Word) (s : State) : (setConfigId id s).soundOn = s.soundOn := by
  unfold setConfigId; split <;> rfl
@[simp] theorem setConfigId_soundCb (id : Word) (s : State) : (setConfigId id s).soundCb = s.soundCb := by
  unfold setConfigId; split <;> rfl
@[simp] theorem setConfigId_ext (id : Word) (s : State) : (setConfigId id s).ext = s.ext := by
  unfold setConfigId; split <;> rfl
@[simp] theorem setConfigId_slot0 (id : Word) (s : State) : (setConfigId id s).slot0 = s.slot0 := by
  unfold setConfigId; split <;> rfl
@[simp] theorem setConfigId_slot1 (id : Word) (s : State) : (setConfigId id s).slot1 = s.slot1 := by
  unfold setConfigId; split <;> rfl
@[simp] theorem setConfigId_bpSet (id : Word) (s : State) : (setConfigId id s).bpSet = s.bpSet := by
  unfold setConfigId; split <;> rfl
@[simp] theorem setConfigId_registry (id : Word) (s : State) : (setConfigId id s).registry = s.registry := by
  unfold setConfigId; split <;> rfl
@[simp] theorem setConfigId_uptime (id : Word) (s : State) : (setConfigId id s).uptime = s.uptime := by
  unfold setConfigId; split <;> rfl
@[simp] theorem setConfigId_frame (id : Word) (s : State) : (setConfigId id s).frame = s.frame := by
  unfold setConfigId; split <;> rfl
@[simp] theorem setConfigId_cpu (id : Word) (s : State) : (setConfigId id s).cpu = s.cpu := by
  unfold setConfigId; split <;> rfl
@[simp] theorem setConfigId_inbox (id : Word) (s : State) : (setConfigId id s).inbox = s.inbox := by
  unfold setConfigId; split <;> rfl

@[simp] theorem setFrame_cfg (p : Option FramePos) (s : State) : (setFrame p s).cfg = s.cfg := rfl
@[simp] theorem setFrame_ram (p : Option FramePos) (s : State) : (setFrame p s).ram = s.ram := rfl
@[simp] theorem setFrame_rom (p : Option FramePos) (s : State) : (setFrame p s).rom = s.rom := rfl
@[simp] theorem setFrame_config (p : Option FramePos) (s : State) : (setFrame p s).config = s.config := rfl
@[simp] theorem setFrame_lcd (p : Option FramePos) (s : State) : (setFrame p s).lcd = s.lcd := rfl
@[simp] theorem setFrame_snd (p : Option FramePos) (s : State) : (setFrame p s).snd = s.snd := rfl
@[simp] theorem setFrame_soundOn (p : Option FramePos) (s : State) : (setFrame p s).soundOn = s.soundOn := rfl
@[simp] theorem setFrame_soundCb (p : Option FramePos) (s : State) : (setFrame p s).soundCb = s.soundCb := rfl
@[simp] theorem setFrame_ext (p : Option FramePos) (s : State) : (setFrame p s).ext = s.ext := rfl
@[simp] theorem setFrame_slot0 (p : Option FramePos) (s : State) : (setFrame p s).slot0 = s.slot0 := rfl
@[simp] theorem setFrame_slot1 (p : Option FramePos) (s : State) : (setFrame p s).slot1 = s.slot1 := rfl
@[simp] theorem setFrame_bpSet (p : Option FramePos) (s : State) : (setFrame p s).bpSet = s.bpSet := rfl
@[simp] theorem setFrame_registry (p : Option FramePos) (s : State) : (setFrame p s).registry = s.registry := rfl
@[simp] theorem setFrame_uptime (p : Option FramePos) (s : State) : (setFrame p s).uptime = s.uptime := rfl
@[simp] theorem setFrame_frame (p : Option FramePos) (s : State) : (setFrame p s).frame = p := rfl
@[simp] theorem setFrame_cpu (p : Option FramePos) (s : State) : (setFrame p s).cpu = s.cpu := rfl
@[simp] theorem setFrame_inbox (p : Option FramePos) (s : State) : (setFrame p s).inbox = s.inbox := rfl
@[simp] theorem setFrame_out (p : Option FramePos) (s : State) : (setFrame p s).out = s.out := rfl

@[simp] theorem consumed_cfg (s : State) : (consumed s).cfg = s.cfg := rfl
@[simp] theorem consumed_ram (s : State) : (consumed s).ram = s.ram := rfl
@[simp] theorem consumed_rom (s : State) : (consumed s).rom = s.rom := rfl
@[simp] theorem consumed_config (s : State) : (consumed s).config = s.config := rfl
@[simp] theorem consumed_lcd (s : State) : (consumed s).lcd = s.lcd := rfl
@[simp] theorem consumed_snd (s : State) : (consumed s).snd = s.snd := rfl
@[simp] theorem consumed_soundOn (s : State) : (consumed s).soundOn = s.soundOn := rfl
@[simp] theorem consumed_soundCb (s : State) : (consumed s).soundCb = s.soundCb := rfl
@[simp] theorem consumed_ext (s : State) : (consumed s).ext = s.ext := rfl
@[simp] theorem consumed_slot0 (s : State) : (consumed s).slot0 = s.slot0 := rfl
@[simp] theorem consumed_slot1 (s : State) : (consumed s).slot1 = s.slot1 := rfl
@[simp] theorem consumed_bpSet (s : State) : (consumed s).bpSet = s.bpSet := rfl
@[simp] theorem consumed_registry (s : State) : (consumed s).registry = s.registry := rfl
@[simp] theorem consumed_uptime (s : State) : (consumed s).uptime = s.uptime := rfl
@[simp] theorem consumed_frame (s : State) : (consumed s).frame = s.frame := rfl
@[simp] theorem consumed_cpu (s : State) : (consumed s).cpu = s.cpu := rfl
@[simp] theorem consumed_inbox (s : State) : (consumed s).inbox = s.inbox.tail := rfl
@[simp] theorem consumed_out (s : State) : (consumed s).out = s.out := rfl

@[simp] theorem loadRomImage_cfg (img : List Byte) (s : State) : (loadRomImage img s).cfg = s.cfg := rfl
@[simp] theorem loadRomImage_ram (img : List Byte) (s : State) : (loadRomImage img s).ram = s.ram := rfl
@[simp] theorem loadRomImage_rom (img : List Byte) (s : State) : (loadRomImage img s).rom = Memory.ofBytes 0 img := rfl
@[simp] theorem loadRomImage_config (img : List Byte) (s : State) : (loadRomImage img s).config = s.config := rfl
@[simp] theorem loadRomImage_lcd (img : List Byte) (s : State) : (loadRomImage img s).lcd = s.lcd := rfl
@[simp] theorem loadRomImage_snd (img : List Byte) (s : State) : (loadRomImage img s).snd = s.snd := rfl
@[simp] theorem loadRomImage_soundOn (img : List Byte) (s : State) : (loadRomImage img s).soundOn = s.soundOn := rfl
@[simp] theorem loadRomImage_soundCb (img : List Byte) (s : State) : (loadRomImage img s).soundCb = s.soundCb := rfl
@[simp] theorem loadRomImage_ext (img : List Byte) (s : State) : (loadRomImage img s).ext = s.ext := rfl
@[simp] theorem loadRomImage_slot0 (img : List Byte) (s : State) : (loadRomImage img s).slot0 = s.slot0 := rfl
@[simp] theorem loadRomImage_slot1 (img : List Byte) (s : State) : (loadRomImage img s).slot1 = s.slot1 := rfl
@[simp] theorem loadRomImage_bpSet (img : List Byte) (s : State) : (loadRomImage img s).bpSet = s.bpSet := rfl
@[simp] theorem loadRomImage_registry (img : List Byte) (s : State) : (loadRomImage img s).registry = s.registry := rfl
@[simp] theorem loadRomImage_uptime (img : List Byte) (s : State) : (loadRomImage img s).uptime = s.uptime := rfl
@[simp] theorem loadRomImage_frame (img : List Byte) (s : State) : (loadRomImage img s).frame = s.frame := rfl
@[simp] theorem loadRomImage_cpu (img : List Byte) (s : State) : (loadRomImage img s).cpu = s.cpu := rfl
@[simp] theorem loadRomImage_inbox (img : List Byte) (s : State) : (loadRomImage img s).inbox = s.inbox := rfl
@[simp] theorem loadRomImage_out (img : List Byte) (s : State) : (loadRomImage img s).out = s.out := rfl

@[simp] theorem loadRamBytes_cfg (base : Nat) (buf : List Byte) (s : State) : (loadRamBytes base buf s).cfg = s.cfg := rfl
@[simp] theorem loadRamBytes_ram (base : Nat) (buf : List Byte) (s : State) : (loadRamBytes base buf s).ram = s.ram.setBytes base buf := rfl
@[simp] theorem loadRamBytes_rom (base : Nat) (buf : List Byte) (s : State) : (loadRamBytes base buf s).rom = s.rom := rfl
@[simp] theorem loadRamBytes_config (base : Nat) (buf : List Byte) (s : State) : (loadRamBytes base buf s).config = s.config := rfl
@[simp] theorem loadRamBytes_lcd (base : Nat) (buf : List Byte) (s : State) : (loadRamBytes base buf s).lcd = s.lcd := rfl
@[simp] theorem loadRamBytes_snd (base : Nat) (buf : List Byte) (s : State) : (loadRamBytes base buf s).snd = s.snd := rfl
@[simp] theorem loadRamBytes_soundOn (base : Nat) (buf : List Byte) (s : State) : (loadRamBytes base buf s).soundOn = s.soundOn := rfl
@[simp] theorem loadRamBytes_soundCb (base : Nat) (buf : List Byte) (s : State) : (loadRamBytes base buf s).soundCb = s.soundCb := rfl
@[simp] theorem loadRamBytes_ext (base : Nat) (buf : List Byte) (s : State) : (loadRamBytes base buf s).ext = s.ext := rfl
@[simp] theorem loadRamBytes_slot0 (base : Nat) (buf : List Byte) (s : State) : (loadRamBytes base buf s).slot0 = s.slot0 := rfl
@[simp] theorem loadRamBytes_slot1 (base : Nat) (buf : List Byte) (s : State) : (loadRamBytes base buf s).slot1 = s.slot1 := rfl
@[simp] theorem loadRamBytes_bpSet (base : Nat) (buf : List Byte) (s : State) : (loadRamBytes base buf s).bpSet = s.bpSet := rfl
@[simp] theorem loadRamBytes_registry (base : Nat) (buf : List Byte) (s : State) : (loadRamBytes base buf s).registry = s.registry := rfl
@[simp] theorem loadRamBytes_uptime (base : Nat) (buf : List Byte) (s : State) : (loadRamBytes base buf s).uptime = s.uptime := rfl
@[simp] theorem loadRamBytes_frame (base : Nat) (buf : List Byte) (s : State) : (loadRamBytes base buf s).frame = s.frame := rfl
@[simp] theorem loadRamBytes_cpu (base : Nat) (buf : List Byte) (s : State) : (loadRamBytes base buf s).cpu = s.cpu := rfl
@[simp] theorem loadRamBytes_inbox (base : Nat) (buf : List Byte) (s : State) : (loadRamBytes base buf s).inbox = s.inbox := rfl
@[simp] theorem loadRamBytes_out (base : Nat) (buf : List Byte) (s : State) : (loadRamBytes base buf s).out = s.out := rfl

@[simp] theorem setSlot_cfg (sl : SlotIx) (x : Slot) (s : State) : (setSlot sl x s).cfg = s.cfg := by cases sl <;> rfl
@[simp] theorem setSlot_ram (sl : SlotIx) (x : Slot) (s : State) : (setSlot sl x s).ram = s.ram := by cases sl <;> rfl
@[simp] theorem setSlot_rom (sl : SlotIx) (x : Slot) (s : State) : (setSlot sl x s).rom = s.rom := by cases sl <;> rfl
@[simp] theorem setSlot_config (sl : SlotIx) (x : Slot) (s : State) : (setSlot sl x s).config = s.config := by cases sl <;> rfl
@[simp] theorem setSlot_lcd (sl : SlotIx) (x : Slot) (s : State) : (setSlot sl x s).lcd = s.lcd := by cases sl <;> rfl
@[simp] theorem setSlot_snd (sl : SlotIx) (x : Slot) (s : State) : (setSlot sl x s).snd = s.snd := by cases sl <;> rfl
@[simp] theorem setSlot_soundOn (sl : SlotIx) (x : Slot) (s : State) : (setSlot sl x s).soundOn = s.soundOn := by cases sl <;> rfl
@[simp] theorem setSlot_soundCb (sl : SlotIx) (x : Slot) (s : State) : (setSlot sl x s).soundCb = s.soundCb := by cases sl <;> rfl
@[simp] theorem setSlot_ext (sl : SlotIx) (x : Slot) (s : State) : (setSlot sl x s).ext = s.ext := by cases sl <;> rfl
@[simp] theorem setSlot_bpSet (sl : SlotIx) (x : Slot) (s : State) : (setSlot sl x s).bpSet = s.bpSet := by cases sl <;> rfl
@[simp] theorem setSlot_registry (sl : SlotIx) (x : Slot) (s : State) : (setSlot sl x s).registry = s.registry := by cases sl <;> rfl
@[simp] theorem setSlot_uptime (sl : SlotIx) (x : Slot) (s : State) : (setSlot sl x s).uptime = s.uptime := by cases sl <;> rfl
@[simp] theorem setSlot_frame (sl : SlotIx) (x : Slot) (s : State) : (setSlot sl x s).frame = s.frame := by cases sl <;> rfl
@[simp] theorem setSlot_cpu (sl : SlotIx) (x : Slot) (s : State) : (setSlot sl x s).cpu = s.cpu := by cases sl <;> rfl
@[simp] theorem setSlot_inbox (sl : SlotIx) (x : Slot) (s : State) : (setSlot sl x s).inbox = s.inbox := by cases sl <;> rfl
@[simp] theorem setSlot_out (sl : SlotIx) (x : Slot) (s : State) : (setSlot sl x s).out = s.out := by cases sl <;> rfl

@[simp] theorem setArray_cfg (arr : BpArray) (xs : List Word) (s : State) : (setArray arr xs s).cfg = s.cfg := by cases arr <;> rfl
@[simp] theorem setArray_ram (arr : BpArray) (xs : List Word) (s : State) : (setArray arr xs s).ram = s.ram := by cases arr <;> rfl
@[simp] theorem setArray_rom (arr : BpArray) (xs : List Word) (s : State) : (setArray arr xs s).rom = s.rom := by cases arr <;> rfl
@[simp] theorem setArray_config (arr : BpArray) (xs : List Word) (s : State) : (setArray arr xs s).config = s.config := by cases arr <;> rfl
@[simp] theorem setArray_lcd (arr : BpArray) (xs : List Word) (s : State) : (setArray arr xs s).lcd = s.lcd := by cases arr <;> rfl
@[simp] theorem setArray_snd (arr : BpArray) (xs : List Word) (s : State) : (setArray arr xs s).snd = s.snd := by cases arr <;> rfl
@[simp] theorem setArray_soundOn (arr : BpArray) (xs : List Word) (s : State) : (setArray arr xs s).soundOn = s.soundOn := by cases arr <;> rfl
@[simp] theorem setArray_soundCb (arr : BpArray) (xs : List Word) (s : State) : (setArray arr xs s).soundCb = s.soundCb := by cases arr <;> rfl
@[simp] theorem setArray_ext (arr : BpArray) (xs : List Word) (s : State) : (setArray arr xs s).ext = s.ext := by cases arr <;> rfl
@[simp] theorem setArray_slot0 (arr : BpArray) (xs : List Word) (s : State) : (setArray arr xs s).slot0 = s.slot0 := by cases arr <;> rfl
@[simp] theorem setArray_slot1 (arr : BpArray) (xs : List Word) (s : State) : (setArray arr xs s).slot1 = s.slot1 := by cases arr <;> rfl
@[simp] theorem setArray_bpSet (arr : BpArray) (xs : List Word) (s : State) : (setArray arr xs s).bpSet = s.bpSet := by cases arr <;> rfl
@[simp] theorem setArray_uptime (arr : BpArray) (xs : List Word) (s : State) : (setArray arr xs s).uptime = s.uptime := by cases arr <;> rfl
@[simp] theorem setArray_frame (arr : BpArray) (xs : List Word) (s : State) : (setArray arr xs s).frame = s.frame := by cases arr <;> rfl
@[simp] theorem setArray_cpu (arr : BpArray) (xs : List Word) (s : State) : (setArray arr xs s).cpu = s.cpu := by cases arr <;> rfl
@[simp] theorem setArray_inbox (arr : BpArray) (xs : List Word) (s : State) : (setArray arr xs s).inbox = s.inbox := by cases arr <;> rfl
@[simp] theorem setArray_out (arr : BpArray) (xs : List Word) (s : State) : (setArray arr xs s).out = s.out := by cases arr <;> rfl

@[simp] theorem clearArray_cfg (arr : BpArray) (s : State) : (clearArray arr s).cfg = s.cfg := by cases arr <;> rfl
@[simp] theorem clearArray_ram (arr : BpArray) (s : State) : (clearArray arr s).ram = s.ram := by cases arr <;> rfl
@[simp] theorem clearArray_rom (arr : BpArray) (s : State) : (clearArray arr s).rom = s.rom := by cases arr <;> rfl
@[simp] theorem clearArray_config (arr : BpArray) (s : State) : (clearArray arr s).config = s.config := by cases arr <;> rfl
@[simp] theorem clearArray_lcd (arr : BpArray) (s : State) : (clearArray arr s).lcd = s.lcd := by cases arr <;> rfl
@[simp] theorem clearArray_snd (arr : BpArray) (s : State) : (clearArray arr s).snd = s.snd := by cases arr <;> rfl
@[simp] theorem clearArray_soundOn (arr : BpArray) (s : State) : (clearArray arr s).soundOn = s.soundOn := by cases arr <;> rfl
@[simp] theorem clearArray_soundCb (arr : BpArray) (s : State) : (clearArray arr s).soundCb = s.soundCb := by cases arr <;> rfl
@[simp] theorem clearArray_ext (arr : BpArray) (s : State) : (clearArray arr s).ext = s.ext := by cases arr <;> rfl
@[simp] theorem clearArray_slot0 (arr : BpArray) (s : State) : (clearArray arr s).slot0 = s.slot0 := by cases arr <;> rfl
@[simp] theorem clearArray_slot1 (arr : BpArray) (s : State) : (clearArray arr s).slot1 = s.slot1 := by cases arr <;> rfl
@[simp] theorem clearArray_bpSet (arr : BpArray) (s : State) : (clearArray arr s).bpSet = s.bpSet := by cases arr <;> rfl
@[simp] theorem clearArray_uptime (arr : BpArray) (s : State) : (clearArray arr s).uptime = s.uptime := by cases arr <;> rfl
@[simp] theorem clearArray_frame (arr : BpArray) (s : State) : (clearArray arr s).frame = s.frame := by cases arr <;> rfl
@[simp] theorem clearArray_cpu (arr : BpArray) (s : State) : (clearArray arr s).cpu = s.cpu := by cases arr <;> rfl
@[simp] theorem clearArray_inbox (arr : BpArray) (s : State) : (clearArray arr s).inbox = s.inbox := by cases arr <;> rfl
@[simp] theorem clearArray_out (arr : BpArray) (s : State) : (clearArray arr s).out = s.out := by cases arr <;> rfl

@[simp] theorem getSlot_setSlot (sl : SlotIx) (x : Slot) (s : State) : getSlot (setSlot sl x s) sl = x := by
  cases sl <;> rfl

theorem getSlot_setSlot_ne {sl sl' : SlotIx} (h : sl' ≠ sl) (x : Slot) (s : State) :
    getSlot (setSlot sl x s) sl' = getSlot s sl' := by
  cases sl <;> cases sl' <;> first | rfl | exact absurd rfl h

theorem getSlot_setSlot_eq (sl sl' : SlotIx) (x : Slot) (s : State) :
    getSlot (setSlot sl x s) sl' = if sl' = sl then x else getSlot s sl' := by
  cases sl <;> cases sl' <;> rfl

theorem setSlot_getSlot (sl : SlotIx) (s : State) : setSlot sl (getSlot s sl) s = s := by cases sl <;> rfl

@[simp] theorem setSlot_setSlot (sl : SlotIx) (x y : Slot) (s : State) :
    setSlot sl y (setSlot sl x s) = setSlot sl y s := by cases sl <;> rfl

/-- The slots read the same in two states that hold the same two slots. -/
theorem getSlot_congr {s t : State} (h0 : t.slot0 = s.slot0) (h1 : t.slot1 = s.slot1) (sl : SlotIx) :
    getSlot t sl = getSlot s sl := by cases sl <;> assumption

@[simp] theorem getArray_setArray (arr : BpArray) (xs : List Word) (s : State) :
    getArray (setArray arr xs s).registry arr = xs := by cases arr <;> rfl

theorem getArray_setArray_eq (arr arr' : BpArray) (xs : List Word) (s : State) :
    getArray (setArray arr xs s).registry arr' = if arr' = arr then xs else getArray s.registry arr' := by
  cases arr <;> cases arr' <;> rfl

theorem getArray_clearArray (arr arr' : BpArray) (s : State) :
    getArray (clearArray arr s).registry arr' = if arr' = arr then [] else getArray s.registry arr' := by
  cases arr <;> cases arr' <;> rfl

@[simp] theorem getSlot_answered (a : Answer) (s : State) (sl : SlotIx) : getSlot (answered a s) sl = getSlot s sl := by cases sl <;> rfl
@[simp] theorem getSlot_emit (g : Signal) (s : State) (sl : SlotIx) : getSlot (emit g s) sl = getSlot s sl := by cases sl <;> rfl
@[simp] theorem getSlot_drawn (s : State) (sl : SlotIx) : getSlot (drawn s) sl = getSlot s sl := by cases sl <;> rfl
@[simp] theorem getSlot_raiseBusFault (c : FaultCause) (acc : Access) (s : State) (sl : SlotIx) : getSlot (raiseBusFault c acc s) sl = getSlot s sl := by cases sl <;> rfl
@[simp] theorem getSlot_raiseVirq (l : Nat) (v : Nat) (s : State) (sl : SlotIx) : getSlot (raiseVirq l v s) sl = getSlot s sl := by cases sl <;> rfl
@[simp] theorem getSlot_raiseKbd (s : State) (sl : SlotIx) : getSlot (raiseKbd s) sl = getSlot s sl := by cases sl <;> rfl
@[simp] theorem getSlot_raiseExt (s : State) (sl : SlotIx) : getSlot (raiseExt s) sl = getSlot s sl := by cases sl <;> rfl
@[simp] theorem getSlot_raiseEvnt (s : State) (sl : SlotIx) : getSlot (raiseEvnt s) sl = getSlot s sl := by cases sl <;> rfl
@[simp] theorem getSlot_setRamByte (i : Nat) (b : Byte) (s : State) (sl : SlotIx) : getSlot (setRamByte i b s) sl = getSlot s sl := by cases sl <;> rfl
@[simp] theorem getSlot_setRamWord (o : Nat) (v : Word) (s : State) (sl : SlotIx) : getSlot (setRamWord o v s) sl = getSlot s sl := by cases sl <;> rfl
@[simp] theorem getSlot_setLcdAddr (v : Word) (s : State) (sl : SlotIx) : getSlot (setLcdAddr v s) sl = getSlot s sl := by cases sl <;> rfl
@[simp] theorem getSlot_setLcdConf (v : Word) (s : State) (sl : SlotIx) : getSlot (setLcdConf v s) sl = getSlot s sl := by cases sl <;> rfl
@[simp] theorem getSlot_setLcdIndex (v : Word) (s : State) (sl : SlotIx) : getSlot (setLcdIndex v s) sl = getSlot s sl := by cases sl <;> rfl
@[simp] theorem getSlot_setSndCtl (v : Word) (s : State) (sl : SlotIx) : getSlot (setSndCtl v s) sl = getSlot s sl := by cases sl <;> rfl
@[simp] theorem getSlot_setSndReload (v : Word) (s : State) (sl : SlotIx) : getSlot (setSndReload v s) sl = getSlot s sl := by cases sl <;> rfl
@[simp] theorem getSlot_setEnvReload (v : Word) (s : State) (sl : SlotIx) : getSlot (setEnvReload v s) sl = getSlot s sl := by cases sl <;> rfl
@[simp] theorem getSlot_setEnvCnt (v : Word) (s : State) (sl : SlotIx) : getSlot (setEnvCnt v s) sl = getSlot s sl := by cases sl <;> rfl
@[simp] theorem getSlot_setShift (b : Byte) (s : State) (sl : SlotIx) : getSlot (setShift b s) sl = getSlot s sl := by cases sl <;> rfl
@[simp] theorem getSlot_setSelected (b : Bool) (s : State) (sl : SlotIx) : getSlot (setSelected b s) sl = getSlot s sl := by cases sl <;> rfl
@[simp] theorem getSlot_extControlWrite (v : Word) (s : State) (sl : SlotIx) : getSlot (extControlWrite v s) sl = getSlot s sl := by cases sl <;> rfl
@[simp] theorem getSlot_setCpuAfter (x : CpuExec) (s : State) (sl : SlotIx) : getSlot (setCpuAfter x s) sl = getSlot s sl := by cases sl <;> rfl
@[simp] theorem getSlot_setCpuPc (v : Word) (s : State) (sl : SlotIx) : getSlot (setCpuPc v s) sl = getSlot s sl := by cases sl <;> rfl
@[simp] theorem getSlot_setConfigId (id : Word) (s : State) (sl : SlotIx) : getSlot (setConfigId id s) sl = getSlot s sl := by
  cases sl <;> simp [getSlot]
@[simp] theorem getSlot_setFrame (p : Option FramePos) (s : State) (sl : SlotIx) : getSlot (setFrame p s) sl = getSlot s sl := by cases sl <;> rfl
@[simp] theorem getSlot_consumed (s : State) (sl : SlotIx) : getSlot (consumed s) sl = getSlot s sl := by cases sl <;> rfl
@[simp] theorem getSlot_loadRomImage (img : List Byte) (s : State) (sl : SlotIx) : getSlot (loadRomImage img s) sl = getSlot s sl := by cases sl <;> rfl
@[simp] theorem getSlot_loadRamBytes (base : Nat) (buf : List Byte) (s : State) (sl : SlotIx) : getSlot (loadRamBytes base buf s) sl = getSlot s sl := by cases sl <;> rfl

end Sys2Proof.Machine
end

