-- ==== Sys2Proof/Laws/Keeps.lean ====
section
/-!
SUPPORT. What every transaction and every event of a frame leaves alone, said once for each shared operation: two
relations between states, `RunKeeps` (all that the CPU and the scheduler can do) and `BusKeeps` (all that one bus
transaction can do), closed under composition.
-/
namespace Sys2Proof.Machine

/-! ### Slots -/

/-- A slot operation of the controller changes the cursor and the command only, and keeps the cursor under the mask. -/
structure SlotKeeps (x y : Slot) : Prop where
  attached : y.attached = x.attached
  buf : y.buf = x.buf
  mask : y.mask = x.mask
  cursor : x.cursor ≤ x.mask → y.cursor ≤ y.mask

theorem SlotKeeps.refl (x : Slot) : SlotKeeps x x := ⟨rfl, rfl, rfl, id⟩

theorem SlotKeeps.trans {x y z : Slot} (h : SlotKeeps x y) (k : SlotKeeps y z) : SlotKeeps x z :=
  ⟨k.attached.trans h.attached, k.buf.trans h.buf, k.mask.trans h.mask, fun c => k.cursor (h.cursor c)⟩

theorem SlotKeeps.ok {x y : Slot} (h : SlotKeeps x y) (hx : SlotOk x) : SlotOk y where
  size_le := by unfold Slot.size; rw [h.buf]; exact hx.size_le
  mask_eq := h.mask.trans hx.mask_eq
  cursor_le := h.cursor hx.cursor_le
  empty_unless_attached := fun e => by rw [h.buf]; exact hx.empty_unless_attached (h.attached ▸ e)

theorem and_mask_le (a m : Word24) : a &&& m ≤ m := by
  rw [BitVec.le_def, BitVec.toNat_and]; exact Nat.and_le_right

theorem Slot.writeCommand_keeps (x : Slot) (c : Byte) : SlotKeeps x (x.writeCommand c) := by
  unfold Slot.writeCommand; split
  · exact ⟨rfl, rfl, rfl, id⟩
  · exact SlotKeeps.refl x

theorem Slot.afterRead_keeps (x : Slot) : SlotKeeps x x.afterRead := by
  unfold Slot.afterRead; split
  · cases smpOp (cmdNibble x.command)
    case rdDec => exact ⟨rfl, rfl, rfl, fun _ => and_mask_le _ _⟩
    case rdInc => exact ⟨rfl, rfl, rfl, fun _ => and_mask_le _ _⟩
    all_goals exact SlotKeeps.refl x
  · exact SlotKeeps.refl x

theorem Slot.afterWrite_keeps (x : Slot) (b : Byte) : SlotKeeps x (x.afterWrite b) := by
  unfold Slot.afterWrite; split
  · cases smpOp (cmdNibble x.command)
    case wrAddr => exact ⟨rfl, rfl, rfl, fun _ => and_mask_le _ _⟩
    all_goals exact SlotKeeps.refl x
  · exact SlotKeeps.refl x

/-! ### States -/

/-- What neither a transaction nor an event of a frame changes, and the properties each of them keeps. -/
structure RunKeeps (s t : State) : Prop where
  cfg : t.cfg = s.cfg
  rom : t.rom = s.rom
  config : t.config = s.config
  soundOn : t.soundOn = s.soundOn
  soundCb : t.soundCb = s.soundCb
  bpSet : t.bpSet = s.bpSet
  registry : t.registry = s.registry
  uptime : t.uptime = s.uptime
  inbox : t.inbox = s.inbox
  slot : ∀ sl, SlotKeeps (getSlot s sl) (getSlot t sl)
  ram_wf : s.ram.wf ramSize = true → t.ram.wf ramSize = true
  ram_unreached : ∀ i, ¬ busReaches i → ramByte t i = ramByte s i
  tonePre : s.snd.tonePre.toNat ≤ 128 → t.snd.tonePre.toNat ≤ 128

theorem RunKeeps.refl (s : State) : RunKeeps s s where
  cfg := rfl
  rom := rfl
  config := rfl
  soundOn := rfl
  soundCb := rfl
  bpSet := rfl
  registry := rfl
  uptime := rfl
  inbox := rfl
  slot := fun _ => SlotKeeps.refl _
  ram_wf := id
  ram_unreached := fun _ _ => rfl
  tonePre := id

theorem RunKeeps.trans {s t u : State} (h : RunKeeps s t) (k : RunKeeps t u) : RunKeeps s u where
  cfg := k.cfg.trans h.cfg
  rom := k.rom.trans h.rom
  config := k.config.trans h.config
  soundOn := k.soundOn.trans h.soundOn
  soundCb := k.soundCb.trans h.soundCb
  bpSet := k.bpSet.trans h.bpSet
  registry := k.registry.trans h.registry
  uptime := k.uptime.trans h.uptime
  inbox := k.inbox.trans h.inbox
  slot := fun sl => (h.slot sl).trans (k.slot sl)
  ram_wf := fun w => k.ram_wf (h.ram_wf w)
  ram_unreached := fun i hi => (k.ram_unreached i hi).trans (h.ram_unreached i hi)
  tonePre := fun w => k.tonePre (h.tonePre w)

/-- What one bus transaction leaves alone beside that: the CPU, the frame's counters, the three running counters. -/
structure BusKeeps (s t : State) : Prop extends RunKeeps s t where
  cpu : t.cpu = s.cpu
  frame : t.frame = s.frame
  pre : t.snd.tonePre = s.snd.tonePre
  cnt : t.snd.toneCnt = s.snd.toneCnt
  env : t.snd.envCnt = s.snd.envCnt

theorem BusKeeps.refl (s : State) : BusKeeps s s := ⟨RunKeeps.refl s, rfl, rfl, rfl, rfl, rfl⟩

theorem BusKeeps.trans {s t u : State} (h : BusKeeps s t) (k : BusKeeps t u) : BusKeeps s u :=
  ⟨h.toRunKeeps.trans k.toRunKeeps, k.cpu.trans h.cpu, k.frame.trans h.frame, k.pre.trans h.pre, k.cnt.trans h.cnt,
    k.env.trans h.env⟩

/-- An update of the controller, the outbox, the LCD or the sound port registers alone. -/
theorem BusKeeps.of_registers {s t : State} (ht : ∃ l x o c r e, t =
    { s with lcd := l, ext := x, out := o, snd := { s.snd with ctl := c, reload := r, envReload := e } }) :
    BusKeeps s t := by
  obtain ⟨l, x, o, c, r, e, rfl⟩ := ht
  exact ⟨⟨rfl, rfl, rfl, rfl, rfl, rfl, rfl, rfl, rfl, fun sl => by cases sl <;> exact SlotKeeps.refl _, id,
    fun _ _ => rfl, id⟩, rfl, rfl, rfl, rfl, rfl⟩

theorem answered_keeps (a : Answer) (s : State) : BusKeeps s (answered a s) := .of_registers ⟨_, _, _, _, _, _, rfl⟩
theorem emit_keeps (g : Signal) (s : State) : BusKeeps s (emit g s) := .of_registers ⟨_, _, _, _, _, _, rfl⟩
theorem drawn_keeps (s : State) : BusKeeps s (drawn s) := .of_registers ⟨_, _, _, _, _, _, rfl⟩
theorem raiseBusFault_keeps (c : FaultCause) (acc : Access) (s : State) : BusKeeps s (raiseBusFault c acc s) :=
  .of_registers ⟨_, _, _, _, _, _, rfl⟩
theorem setShift_keeps (b : Byte) (s : State) : BusKeeps s (setShift b s) := .of_registers ⟨_, _, _, _, _, _, rfl⟩
theorem extCommandRead_keeps (s : State) : BusKeeps s (extCommandRead s) := .of_registers ⟨_, _, _, _, _, _, rfl⟩
theorem extControlWrite_keeps (v : Word) (s : State) : BusKeeps s (extControlWrite v s) :=
  .of_registers ⟨_, _, _, _, _, _, rfl⟩

theorem extComplete_keeps (s : State) : BusKeeps s (extComplete s) := by
  unfold extComplete; split
  · exact .refl s
  · exact emit_keeps _ s

theorem setSlot_keeps {sl : SlotIx} {x : Slot} {s : State} (h : SlotKeeps (getSlot s sl) x) :
    BusKeeps s (setSlot sl x s) where
  cfg := by simp
  rom := by simp
  config := by simp
  soundOn := by simp
  soundCb := by simp
  bpSet := by simp
  registry := by simp
  uptime := by simp
  inbox := by simp
  slot := fun sl' => by
    rw [getSlot_setSlot_eq]; split
    · next e => subst e; exact h
    · exact SlotKeeps.refl _
  ram_wf := by simp
  ram_unreached := fun i _ => by simp [ramByte]
  tonePre := by simp
  cpu := by simp
  frame := by simp
  pre := by simp
  cnt := by simp
  env := by simp

theorem slotWriteCommand_keeps (sl : SlotIx) (c : Byte) (s : State) : BusKeeps s (slotWriteCommand sl c s) :=
  setSlot_keeps (Slot.writeCommand_keeps _ c)
theorem slotReadData_keeps (sl : SlotIx) (s : State) : BusKeeps s (slotReadData sl s) :=
  setSlot_keeps (Slot.afterRead_keeps _)
theorem slotWriteData_keeps (sl : SlotIx) (b : Byte) (s : State) : BusKeeps s (slotWriteData sl b s) :=
  setSlot_keeps (Slot.afterWrite_keeps _ b)

theorem slotAccess_keeps (sl : SlotIx) (nx : NextAccess) (s : State) : BusKeeps s (slotAccess sl nx s) := by
  cases nx
  · exact answered_keeps _ s
  · exact (slotReadData_keeps sl s).trans (answered_keeps _ _)
  · exact (slotWriteData_keeps sl _ s).trans (answered_keeps _ _)

theorem smpCommand_keeps (sl : SlotIx) (c : Byte) (nx : NextAccess) (s : State) : BusKeeps s (smpCommand sl c nx s) :=
  (slotWriteCommand_keeps sl c s).trans (slotAccess_keeps sl nx _)

theorem extCommandWrite_keeps (c : Byte) (s : State) : BusKeeps s (extCommandWrite c s) := by
  have h : BusKeeps s { s with ext := { s.ext with command := c, selected := true } } :=
    .of_registers ⟨_, _, _, _, _, _, rfl⟩
  unfold extCommandWrite
  cases writeTarget (ctrlDev s.ext.control) with
  | none => exact h
  | some sl => exact (h.trans (slotWriteCommand_keeps sl c _)).trans (extComplete_keeps _)

theorem extDataRead_keeps (s : State) : BusKeeps s (extDataRead s) := by
  unfold extDataRead
  cases readTarget (ctrlDev s.ext.control) with
  | slot sl => exact (slotReadData_keeps sl s).trans (extComplete_keeps _)
  | keyboard => exact setShift_keeps _ s
  | nothing => exact .refl s

theorem extDataWrite_keeps (b : Byte) (s : State) : BusKeeps s (extDataWrite b s) := by
  unfold extDataWrite
  cases writeTarget (ctrlDev s.ext.control) with
  | none => exact .refl s
  | some sl => exact (slotWriteData_keeps sl b s).trans (extComplete_keeps _)

/-! ### Ports -/

theorem portAfterRead_keeps (r : PortReg) (s : State) : BusKeeps s (portAfterRead r s) := by
  cases r
  case extData => exact extDataRead_keeps s
  case extCmd => exact extCommandRead_keeps s
  all_goals exact .refl s

theorem portAfterWrite_keeps (r : PortReg) (v : Word) (s : State) : BusKeeps s (portAfterWrite r v s) := by
  cases r
  case extData => exact extDataWrite_keeps _ s
  case extCs => exact extControlWrite_keeps v s
  case extCmd => exact extCommandWrite_keeps _ s
  all_goals exact .of_registers ⟨_, _, _, _, _, _, rfl⟩

theorem portReadWord_keeps (acc : Access) (e : Word) (s : State) : BusKeeps s (portReadWord acc e s).2 := by
  unfold portReadWord
  cases portMap s.cfg e with
  | none => exact raiseBusFault_keeps _ _ s
  | some r => exact portAfterRead_keeps r s

theorem portWriteWord_keeps (acc : Access) (e v : Word) (s : State) : BusKeeps s (portWriteWord acc e v s).2 := by
  unfold portWriteWord
  cases portMap s.cfg e with
  | none => exact raiseBusFault_keeps _ _ s
  | some r => exact portAfterWrite_keeps r v s

theorem portReadByte_keeps (acc : Access) (a : Word) (s : State) : BusKeeps s (portReadByte acc a s).2 := by
  have h := portReadWord_keeps acc (evenAddr a) s
  unfold portReadByte
  split <;> next e => rw [e] at h; exact h

theorem portWriteByte_keeps (acc : Access) (a : Word) (b : Byte) (s : State) :
    BusKeeps s (portWriteByte acc a b s).2 := by
  have h := portReadWord_keeps acc (evenAddr a) s
  unfold portWriteByte
  split
  · next e => rw [e] at h; exact h.trans (portWriteWord_keeps _ _ _ _)
  · next e => rw [e] at h; exact h

theorem answerWord_keeps {s : State} {r : Option Word × State} (h : BusKeeps s r.2) : BusKeeps s (answerWord r) := by
  obtain ⟨o, t⟩ := r
  cases o
  · exact h.trans ((answered_keeps _ t).trans (drawn_keeps _))
  · exact h.trans (answered_keeps _ t)

theorem answerByte_keeps {s : State} {r : Option Byte × State} (h : BusKeeps s r.2) : BusKeeps s (answerByte r) := by
  obtain ⟨o, t⟩ := r
  cases o
  · exact h.trans ((answered_keeps _ t).trans (drawn_keeps _))
  · exact h.trans (answered_keeps _ t)

theorem answerWrite_keeps {s : State} {r : Bool × State} (h : BusKeeps s r.2) : BusKeeps s (answerWrite r) := by
  obtain ⟨o, t⟩ := r
  cases o <;> exact h.trans (answered_keeps _ t)

theorem unassignedAccess_keeps (a : Word) (acc : PortAccess) (s : State) : BusKeeps s (unassignedAccess a acc s) := by
  cases acc
  · exact answerWord_keeps (r := (none, _)) (raiseBusFault_keeps _ _ s)
  · exact answerByte_keeps (r := (none, _)) (raiseBusFault_keeps _ _ s)
  · exact answerWrite_keeps (r := (false, _)) (raiseBusFault_keeps _ _ s)
  · exact answerWrite_keeps (r := (false, _)) (raiseBusFault_keeps _ _ s)

/-! ### The bus -/

theorem setRamByte_keeps {o : Word} {s : State} (b : Byte) (h : busReaches o.toNat) :
    BusKeeps s (setRamByte o.toNat b s) where
  cfg := rfl
  rom := rfl
  config := rfl
  soundOn := rfl
  soundCb := rfl
  bpSet := rfl
  registry := rfl
  uptime := rfl
  inbox := rfl
  slot := fun sl => by simp [SlotKeeps.refl]
  ram_wf := fun w => Memory.wf_set w o.isLt
  ram_unreached := fun i hi => by
    have : o.toNat ≠ i := fun e => hi (e ▸ h)
    simp [ramByte, Memory.byteAt_set, this]
  tonePre := id
  cpu := rfl
  frame := rfl
  pre := rfl
  cnt := rfl
  env := rfl

/-- In the places of `Classify`, a RAM word is two RAM bytes (R76: a word never straddles two regions). -/
theorem classify_even_succ {a o : Word} (h : classify (evenAddr a) = .ram o) :
    classify (evenAddr a + 1#16) = .ram (evenAddr a + 1#16) ∧ (evenAddr a + 1#16).toNat = o.toNat + 1 := by
  have ho := classify_ram h
  have he := evenAddr_toNat a
  have hl := a.isLt
  have hs := evenAddr_succ_toNat a
  refine ⟨?_, by rw [hs, ho]⟩
  unfold classify inWindow isIo at h ⊢
  simp only [hs, Bool.and_eq_true, Bool.or_eq_true, decide_eq_true_eq] at h ⊢
  generalize (evenAddr a).toNat = n at *
  split_ifs at h ⊢ <;> first | rfl | (exfalso; omega)

theorem classify_even {a o : Word} (h : classify (evenAddr a) = .ram o) : classify (evenAddr a) = .ram (evenAddr a) := by
  rw [h, classify_ram h]

theorem setRamWord_keeps {a o : Word} {s : State} (v : Word) (h : classify (evenAddr a) = .ram o) :
    BusKeeps s (setRamWord o.toNat v s) := by
  have h1 := classify_even_succ h
  have hb : busReaches o.toNat := ⟨evenAddr a, classify_even h, by rw [classify_ram h]⟩
  refine (setRamByte_keeps (lo8 v) hb).trans ?_
  have := setRamByte_keeps (o := evenAddr a + 1#16) (s := setRamByte o.toNat (lo8 v) s) (hi8 v) ⟨_, h1.1, rfl⟩
  rw [h1.2] at this
  exact this

theorem busReadWord_keeps (a : Word) (halt exe : Bool) (s : State) : BusKeeps s (busReadWord a halt exe s).2 := by
  unfold busReadWord
  split
  · exact .refl s
  · exact .refl s
  · exact portReadWord_keeps _ _ s
  · exact raiseBusFault_keeps _ _ s

theorem busReadByte_keeps (a : Word) (halt : Bool) (s : State) : BusKeeps s (busReadByte a halt s).2 := by
  unfold busReadByte
  split
  · exact .refl s
  · exact .refl s
  · exact portReadByte_keeps _ _ s
  · exact raiseBusFault_keeps _ _ s

theorem busWriteWord_keeps (a v : Word) (halt : Bool) (s : State) : BusKeeps s (busWriteWord a v halt s).2 := by
  unfold busWriteWord
  split
  · next h => exact setRamWord_keeps v h
  · exact raiseBusFault_keeps _ _ s
  · exact portWriteWord_keeps _ _ _ s
  · exact raiseBusFault_keeps _ _ s

theorem busWriteByte_keeps (a : Word) (b : Byte) (halt : Bool) (s : State) :
    BusKeeps s (busWriteByte a b halt s).2 := by
  unfold busWriteByte
  split
  · next o h => exact setRamByte_keeps b ⟨a, by rw [translateAddr] at h; rw [h, classify_ram h], by rw [classify_ram h]⟩
  · exact raiseBusFault_keeps _ _ s
  · exact portWriteByte_keeps _ _ _ s
  · exact raiseBusFault_keeps _ _ s

/-- Everything one bus transaction can do leaves the rest of the board alone. -/
theorem busTransaction_keeps (op : BusOp) (halt : Bool) (s : State) : BusKeeps s (busTransaction op halt s) := by
  cases op
  · exact answerWord_keeps (busReadWord_keeps _ _ _ s)
  · exact answerByte_keeps (busReadByte_keeps _ _ s)
  · exact answerWrite_keeps (busWriteWord_keeps _ _ _ s)
  · exact answerWrite_keeps (busWriteByte_keeps _ _ _ s)
  · exact answerWord_keeps (busReadWord_keeps _ _ _ s)

/-! ### The scheduler -/

theorem setFrame_keeps (p : Option FramePos) (s : State) : RunKeeps s (setFrame p s) := { RunKeeps.refl s with }

theorem takeExec_keeps (s : State) : RunKeeps s (takeExec s) := by
  unfold takeExec; split
  · exact { RunKeeps.refl s with }
  · exact (drawn_keeps s).toRunKeeps

theorem setCpuAfter_keeps (x : CpuExec) (s : State) : RunKeeps s (setCpuAfter x s) := { RunKeeps.refl s with }

theorem cpuTransaction_keeps (s : State) (op : BusOp) : BusKeeps s (cpuTransaction s op) :=
  (busTransaction_keeps op _ s).trans (emit_keeps _ _)

theorem foldl_cpuTransaction_keeps (ops : List BusOp) (s : State) : BusKeeps s (ops.foldl cpuTransaction s) := by
  induction ops generalizing s with
  | nil => exact .refl s
  | cons op ops ih => exact (cpuTransaction_keeps s op).trans (ih _)

theorem cpuExecute_keeps (s : State) : RunKeeps s (cpuExecute s) :=
  (((takeExec_keeps s).trans (emit_keeps _ _).toRunKeeps).trans (foldl_cpuTransaction_keeps _ _).toRunKeeps).trans
    (setCpuAfter_keeps _ _)

theorem prescalerReload_le (c : Config) (ctl : Word) : (prescalerReload (octave c ctl)).toNat ≤ 128 := by
  have h : octave c ctl < 8 := Nat.mod_lt _ (by decide)
  generalize octave c ctl = n at h
  interval_cases n <;> decide

theorem timerTick_keeps (s : State) : RunKeeps s (timerTick s) := by
  unfold timerTick; split
  · exact { RunKeeps.refl s with tonePre := fun _ => prescalerReload_le _ _ }
  · refine { RunKeeps.refl s with tonePre := fun h => ?_ }
    show (preStep s.snd).toNat ≤ 128
    unfold preStep; split
    · exact Nat.zero_le _
    · next hz =>
      have h0 : s.snd.tonePre.toNat ≠ 0 := fun e => hz (BitVec.eq_of_toNat_eq e)
      rw [BitVec.toNat_sub]
      simp only [BitVec.toNat_ofNat]
      omega

theorem tick50Event_keeps (s : State) : RunKeeps s (tick50Event s) := by
  have h : ∀ (v : Word) (t : State), RunKeeps t (setEnvCnt v t) := fun v t => { RunKeeps.refl t with }
  unfold tick50Event; split
  · exact (emit_keeps _ s).toRunKeeps.trans (h _ _)
  · exact h _ s

theorem doSoundEvent_keeps (s : State) : RunKeeps s (doSoundEvent s) := by
  unfold doSoundEvent; split
  · exact .refl s
  · exact (emit_keeps _ s).toRunKeeps

theorem runSubticks_keeps (n t k : Nat) (s : State) : RunKeeps s (runSubticks n t k s).2 := by
  induction n generalizing k s with
  | zero => exact .refl s
  | succ n ih =>
    have h := (setFrame_keeps (some ⟨t, k⟩) s).trans (cpuExecute_keeps _)
    unfold runSubticks
    simp only
    split
    · exact h
    · exact (h.trans (timerTick_keeps _)).trans (ih _ _)

theorem afterSubticks_keeps (t : Nat) (s : State) : RunKeeps s (afterSubticks t s) := by
  have hd : ∀ u : State, RunKeeps u (if t % audioPeriod u.cfg = 0 then doSoundEvent u else u) := fun u => by
    split
    · exact doSoundEvent_keeps u
    · exact .refl u
  unfold afterSubticks
  refine RunKeeps.trans ?_ (hd _)
  split
  · exact tick50Event_keeps s
  · exact .refl s

theorem runTicks_keeps (n t : Nat) (s : State) : RunKeeps s (runTicks n t s).2 := by
  induction n generalizing t s with
  | zero => exact .refl s
  | succ n ih =>
    have h := runSubticks_keeps subTicks t 0 s
    unfold runTicks
    split <;> next e =>
      rw [e] at h
      first | exact h | exact (h.trans (afterSubticks_keeps t _)).trans (ih _ _)

theorem systemFrame_keeps (s : State) : RunKeeps s (systemFrame s) :=
  ((runTicks_keeps frameTicks 0 s).trans (setFrame_keeps none _)).trans (answered_keeps _ _).toRunKeeps

end Sys2Proof.Machine
end

