-- ==== Sys2Proof/Laws/Exec.lean ====
section
/-!
SUPPORT. What executing an operation can do: a host action completes only between frames, and every operation with which
the host does not write state of its own keeps what `RunKeeps` lists.
-/
namespace Sys2Proof.Machine

/-- When a host action completes, no FRAME runs and the next state is the one given. -/
theorem hostAction_next {s t u : State} : hostAction s t = .next u ↔ s.frame = none ∧ t = u := by
  unfold hostAction; cases s.frame <;> simp

theorem hostAction_of_none {s t : State} (h : s.frame = none) : hostAction s t = .next t :=
  hostAction_next.mpr ⟨h, rfl⟩

theorem hostAction_of_some {s t : State} {p : FramePos} (h : s.frame = some p) :
    hostAction s t = .refused .hostOverlap := by unfold hostAction; rw [h]; rfl

/-- When `CPU.SetPC` completes, no FRAME runs, and the CPU's program counter and bytes alone are written (log 36). -/
theorem hostSetPc_next {v : Word} {s t : State} :
    hostSetPc v s = .next t ↔ s.frame = none ∧ answered .done (setCpuPc v s) = t := hostAction_next

/-- All that a completed step can be: with a legal configuration, the oldest stimulus is taken and either runs the
well-formed operation it decodes to or is the host's `CPU.SetPC`. -/
theorem step_next {s t : State} (h : step s = .next t) : configValid s.cfg = true ∧ ∃ st rest, s.inbox = st :: rest ∧
    ((∃ i, decode s.cfg st = .instr i ∧ wellFormed s.cfg i = true ∧ exec i (consumed s) = .next t) ∨
     (∃ v, decode s.cfg st = .setPc v ∧ hostSetPc v (consumed s) = .next t)) := by
  unfold step at h
  split at h
  · refine ⟨‹_›, ?_⟩
    split at h
    · cases h
    · rename_i st rest hi
      refine ⟨st, rest, hi, ?_⟩
      unfold runDecoded at h
      split at h
      · cases h
      · exact .inr ⟨_, ‹_›, h⟩
      · split at h
        · exact .inl ⟨_, ‹_›, ‹_›, h⟩
        · cases h
  · cases h

theorem keyboardEvent_keeps (sc : Byte) (p : Bool) (s : State) : BusKeeps s (keyboardEvent sc p s) := by
  unfold keyboardEvent; split
  · exact (setShift_keeps sc s).trans (emit_keeps _ _)
  · exact setShift_keeps sc s

/-- What a completed operation leaves: what `RunKeeps` lists, and no frame in progress where none was. -/
structure ExecKeeps (s t : State) : Prop extends RunKeeps s t where
  no_frame : s.frame = none → t.frame = none

theorem BusKeeps.exec {s t : State} (h : BusKeeps s t) : ExecKeeps s t := ⟨h.toRunKeeps, fun e => h.frame.trans e⟩

theorem BusKeeps.answered {s t : State} (a : Answer) (h : BusKeeps s t) : ExecKeeps s (answered a t) :=
  (h.trans (answered_keeps a t)).exec

theorem RunKeeps.answered {s t : State} (a : Answer) (h : RunKeeps s t) (hf : t.frame = s.frame ∨ t.frame = none) :
    ExecKeeps s (answered a t) :=
  ⟨h.trans (answered_keeps a t).toRunKeeps, fun e => hf.elim (fun k => k.trans e) id⟩

theorem setCpuPc_keeps (v : Word) (s : State) : RunKeeps s (setCpuPc v s) :=
  ⟨rfl, rfl, rfl, rfl, rfl, rfl, rfl, rfl, rfl, fun sl => by rw [getSlot_setCpuPc]; exact SlotKeeps.refl _, id,
    fun _ _ => rfl, id⟩

theorem takeExec_frame (s : State) : (takeExec s).frame = s.frame := by unfold takeExec; split <;> rfl

theorem cpuExecute_frame (s : State) : (cpuExecute s).frame = s.frame :=
  ((emit_keeps _ _).trans (foldl_cpuTransaction_keeps _ _)).frame.trans (takeExec_frame s)

theorem timerTick_frame (s : State) : (timerTick s).frame = s.frame := by unfold timerTick; split <;> rfl

theorem tick50Event_frame (s : State) : (tick50Event s).frame = s.frame := by unfold tick50Event; split <;> rfl

theorem doSoundEvent_frame (s : State) : (doSoundEvent s).frame = s.frame := by unfold doSoundEvent; split <;> rfl

theorem systemFrame_frame (s : State) : (systemFrame s).frame = none := rfl

/-- Every operation but the host's own writes keeps what `ExecKeeps` lists. -/
theorem exec_keeps {i : Instr} {s t : State} (hw : hostWrites i = false) (h : exec i s = .next t) : ExecKeeps s t := by
  cases i
  all_goals cases hw
  case rdw a halt => cases h; exact (busTransaction_keeps _ _ s).exec
  case rdb a halt => cases h; exact (busTransaction_keeps _ _ s).exec
  case wrw a v halt => cases h; exact (busTransaction_keeps _ _ s).exec
  case wrb a v halt => cases h; exact (busTransaction_keeps _ _ s).exec
  case fetch a halt => cases h; exact (busTransaction_keeps _ _ s).exec
  case portUnassigned a acc => cases h; exact (unassignedAccess_keeps _ _ s).exec
  case lcdAddrW p v => cases h; exact (portAfterWrite_keeps .lcdAddr v s).answered _
  case lcdConfW p v => cases h; exact (portAfterWrite_keeps .lcdConf v s).answered _
  case lcdIndexW v => cases h; exact (portAfterWrite_keeps .lcdIndex v s).answered _
  case sndCtlW v => cases h; exact (portAfterWrite_keeps .sndCtl v s).answered _
  case sndReloadW v => cases h; exact (portAfterWrite_keeps .sndReload v s).answered _
  case envReloadW v => cases h; exact (portAfterWrite_keeps .envReload v s).answered _
  case extDataR => cases h; exact (extDataRead_keeps s).answered _
  case extDataW v => cases h; exact (extDataWrite_keeps _ s).answered _
  case extCsW v => cases h; exact (extControlWrite_keeps v s).answered _
  case extCmdR => cases h; exact (extCommandRead_keeps s).answered _
  case extCmdW v => cases h; exact (extCommandWrite_keeps _ s).answered _
  case devSmp0Rd hi => cases h; exact (extControlWrite_keeps _ s).answered _
  case devSmp1Rd hi => cases h; exact (extControlWrite_keeps _ s).answered _
  case devKbdRd hi => cases h; exact (extControlWrite_keeps _ s).answered _
  case devSmp0Wr hi => cases h; exact (extControlWrite_keeps _ s).answered _
  case devSmp1Wr hi => cases h; exact (extControlWrite_keeps _ s).answered _
  case devNone hi dev => cases h; exact (extControlWrite_keeps _ s).answered _
  case smpRdDec low sl nx => cases h; exact (smpCommand_keeps sl _ nx s).exec
  case smpRdInc low sl nx => cases h; exact (smpCommand_keeps sl _ nx s).exec
  case smpWrAddr low sl nx => cases h; exact (smpCommand_keeps sl _ nx s).exec
  case smpWr20 low sl nx => cases h; exact (smpCommand_keeps sl _ nx s).exec
  case smpWrC0 low sl nx => cases h; exact (smpCommand_keeps sl _ nx s).exec
  case smpWrE0 low sl nx => cases h; exact (smpCommand_keeps sl _ nx s).exec
  case smpUndef op low sl nx => cases h; exact (smpCommand_keeps sl _ nx s).exec
  case slotWrCmd sl c => cases h; exact (slotWriteCommand_keeps sl c s).answered _
  case slotRdData sl => cases h; exact (slotAccess_keeps sl _ s).exec
  case slotWrData sl b => cases h; exact (slotAccess_keeps sl _ s).exec
  case cpuExec => cases h; exact (cpuExecute_keeps s).answered _ (.inl (cpuExecute_frame s))
  case tTick => cases h; exact (timerTick_keeps s).answered _ (.inl (timerTick_frame s))
  case tick50 => cases h; exact (tick50Event_keeps s).answered _ (.inl (tick50Event_frame s))
  case doSound => cases h; exact (doSoundEvent_keeps s).answered _ (.inl (doSoundEvent_frame s))
  case frame => obtain ⟨-, rfl⟩ := hostAction_next.mp h; exact ⟨systemFrame_keeps s, fun _ => systemFrame_frame s⟩
  case key sc p => obtain ⟨-, rfl⟩ := hostAction_next.mp h; exact (keyboardEvent_keeps sc p s).answered _
  case isAtt sl => obtain ⟨-, rfl⟩ := hostAction_next.mp h; exact (BusKeeps.refl s).answered _
  case save => obtain ⟨-, rfl⟩ := hostAction_next.mp h; exact (emit_keeps _ s).answered _
  case video =>
    replace h : execVideo s = .next t := h
    unfold execVideo at h; split at h
    · obtain ⟨-, rfl⟩ := hostAction_next.mp h; exact (BusKeeps.refl s).answered _
    · cases h
  all_goals cases h; exact (BusKeeps.refl s).answered _

end Sys2Proof.Machine
end

