-- ==== Sys2Proof/Laws/Frame.lean ====
section
/-!
SUPPORT. The frame's loop against its list of events: a run of a concatenation, one subtick, the sixteen subticks; and the
prescaler's arithmetic.
-/
namespace Sys2Proof.Machine

/-- A run of a concatenation is the run of the first part and, unless that stopped, the run of the second. -/
theorem runEvents_append (l m : List Event) (s : State) :
    runEvents (l ++ m) s =
      if (runEvents l s).1 then runEvents l s
      else ((runEvents m (runEvents l s).2.2).1, (runEvents l s).2.1 ++ (runEvents m (runEvents l s).2.2).2.1,
        (runEvents m (runEvents l s).2.2).2.2) := by
  induction l generalizing s with
  | nil => simp [runEvents]
  | cons e l ih =>
    simp only [List.cons_append, runEvents]
    split
    · simp
    · rw [ih]; simp only
      split <;> simp_all

/-- One subtick: EXEC, then BPCHK, and TTICK unless BPCHK hit. -/
theorem runEvents_subtick (t k : Nat) (s : State) :
    runEvents (subtick t k) s =
      if breakpointHit (cpuExecute (setFrame (some ⟨t, k⟩) s)) then
        (true, [.exec t k, .bpchk], cpuExecute (setFrame (some ⟨t, k⟩) s))
      else (false, subtick t k, timerTick (cpuExecute (setFrame (some ⟨t, k⟩) s))) := by
  simp only [subtick, runEvents, runEvent, if_false, Bool.false_eq_true]
  split <;> rfl

/-- The inner loop is the run of its subticks. -/
theorem runEvents_subticks (n t k : Nat) (s : State) :
    (runEvents ((List.range' k n).flatMap (subtick t)) s).1 = (runSubticks n t k s).1 ∧
    (runEvents ((List.range' k n).flatMap (subtick t)) s).2.2 = (runSubticks n t k s).2 := by
  induction n generalizing k s with
  | zero => exact ⟨rfl, rfl⟩
  | succ n ih =>
    rw [List.range'_succ, List.flatMap_cons, runEvents_append, runEvents_subtick]
    by_cases hb : breakpointHit (cpuExecute (setFrame (some ⟨t, k⟩) s)) = true
    · simp [hb, runSubticks]
    · simpa [hb, runSubticks] using ih (k + 1) (timerTick (cpuExecute (setFrame (some ⟨t, k⟩) s)))

/-- What the CPU and the scheduler keep has the same breakpoints set. -/
theorem RunKeeps.breakpointSet {s t : State} (h : RunKeeps s t) : breakpointSet t = breakpointSet s := by
  unfold Machine.breakpointSet; rw [h.bpSet, h.registry]

/-- Without a breakpoint set there is no hit. -/
theorem breakpointHit_of_empty {s : State} (h : breakpointSet s = []) : breakpointHit s = false := by
  unfold breakpointHit; rw [h]; simp

theorem octave_lt (c : Config) (ctl : Word) : octave c ctl < 8 := Nat.mod_lt _ (by decide)

theorem volume_lt (c : Config) (ctl : Word) : volume c ctl < 4 := Nat.mod_lt _ (by decide)

theorem prescalerReload_toNat {n : Nat} (h : n < 8) : (prescalerReload n).toNat = 2 ^ n := by
  interval_cases n <;> rfl

end Sys2Proof.Machine
end

