-- ==== Sys2Proof/Laws/PerInstr.lean ====
section
/-!
SUPPORT. The laws said instruction by instruction. EncodeShape: the stimulus of an operation has the number of bytes its
format has, and one of format EVT names an event.
-/
namespace Sys2Proof.Laws
open Sys2Proof.Machine

/-- The number of bytes of a stimulus, where the format fixes it (R100 to R106; log 2). -/
def EncodeShape.formatBytes : Format → Option Nat
  | .addr16 => some 3
  | .bus => some 6
  | .port => some 5
  | .ctrl16 => some 2
  | .smpcmd8 => some 3
  | .evt => none
  | .cpu => some 2

/-- The encoding of an operation has its format's shape, under every configuration. -/
def EncodeShape.Statement (i : Instr) : Prop :=
  ∀ c : Config, match EncodeShape.formatBytes (encode c i).fmt with
    | some n => (encode c i).bytes.length = n
    | none => (encode c i).bytes ≠ []

theorem EncodeShape.ramLow (a : Word) (halt exe : Bool) : EncodeShape.Statement (.ramLow a halt exe) := fun _ => rfl
theorem EncodeShape.denied (a : Word) (halt exe : Bool) : EncodeShape.Statement (.denied a halt exe) := fun _ => rfl
theorem EncodeShape.ioA (a : Word) (halt exe : Bool) : EncodeShape.Statement (.ioA a halt exe) := fun _ => rfl
theorem EncodeShape.ioB (a : Word) (halt exe : Bool) : EncodeShape.Statement (.ioB a halt exe) := fun _ => rfl
theorem EncodeShape.ioC (a : Word) (halt exe : Bool) : EncodeShape.Statement (.ioC a halt exe) := fun _ => rfl
theorem EncodeShape.ioD (a : Word) (halt exe : Bool) : EncodeShape.Statement (.ioD a halt exe) := fun _ => rfl
theorem EncodeShape.winRam (a : Word) (halt exe : Bool) : EncodeShape.Statement (.winRam a halt exe) := fun _ => rfl
theorem EncodeShape.rom (a : Word) (halt exe : Bool) : EncodeShape.Statement (.rom a halt exe) := fun _ => rfl
theorem EncodeShape.ramTop (a : Word) (halt exe : Bool) : EncodeShape.Statement (.ramTop a halt exe) := fun _ => rfl
theorem EncodeShape.rdw (a : Word) (halt : Bool) : EncodeShape.Statement (.rdw a halt) := fun _ => rfl
theorem EncodeShape.rdb (a : Word) (halt : Bool) : EncodeShape.Statement (.rdb a halt) := fun _ => rfl
theorem EncodeShape.wrw (a v : Word) (halt : Bool) : EncodeShape.Statement (.wrw a v halt) := fun _ => rfl
theorem EncodeShape.wrb (a : Word) (v : Byte) (halt : Bool) : EncodeShape.Statement (.wrb a v halt) := fun _ => rfl
theorem EncodeShape.fetch (a : Word) (halt : Bool) : EncodeShape.Statement (.fetch a halt) := fun _ => rfl
theorem EncodeShape.viewW (a : Word) : EncodeShape.Statement (.viewW a) := fun _ => rfl
theorem EncodeShape.viewB (a : Word) : EncodeShape.Statement (.viewB a) := fun _ => rfl
theorem EncodeShape.lcdAddrR (p : AliasIx) : EncodeShape.Statement (.lcdAddrR p) := fun _ => rfl
theorem EncodeShape.lcdAddrW (p : AliasIx) (v : Word) : EncodeShape.Statement (.lcdAddrW p v) := fun _ => rfl
theorem EncodeShape.lcdConfR (p : AliasIx) : EncodeShape.Statement (.lcdConfR p) := fun _ => rfl
theorem EncodeShape.lcdConfW (p : AliasIx) (v : Word) : EncodeShape.Statement (.lcdConfW p v) := fun _ => rfl
theorem EncodeShape.extDataR : EncodeShape.Statement .extDataR := fun _ => rfl
theorem EncodeShape.extDataW (v : Word) : EncodeShape.Statement (.extDataW v) := fun _ => rfl
theorem EncodeShape.extCsR : EncodeShape.Statement .extCsR := fun _ => rfl
theorem EncodeShape.extCsW (v : Word) : EncodeShape.Statement (.extCsW v) := fun _ => rfl
theorem EncodeShape.extCmdR : EncodeShape.Statement .extCmdR := fun _ => rfl
theorem EncodeShape.extCmdW (v : Word) : EncodeShape.Statement (.extCmdW v) := fun _ => rfl
theorem EncodeShape.sndCtlR : EncodeShape.Statement .sndCtlR := fun _ => rfl
theorem EncodeShape.sndCtlW (v : Word) : EncodeShape.Statement (.sndCtlW v) := fun _ => rfl
theorem EncodeShape.sndReloadR : EncodeShape.Statement .sndReloadR := fun _ => rfl
theorem EncodeShape.sndReloadW (v : Word) : EncodeShape.Statement (.sndReloadW v) := fun _ => rfl
theorem EncodeShape.envReloadR : EncodeShape.Statement .envReloadR := fun _ => rfl
theorem EncodeShape.envReloadW (v : Word) : EncodeShape.Statement (.envReloadW v) := fun _ => rfl
theorem EncodeShape.lcdIndexR : EncodeShape.Statement .lcdIndexR := fun _ => rfl
theorem EncodeShape.lcdIndexW (v : Word) : EncodeShape.Statement (.lcdIndexW v) := fun _ => rfl
theorem EncodeShape.portUnassigned (a : Word) (acc : PortAccess) : EncodeShape.Statement (.portUnassigned a acc) := by
  intro c; cases acc <;> rfl
theorem EncodeShape.devSmp0Rd (hi : BitVec 12) : EncodeShape.Statement (.devSmp0Rd hi) := fun _ => rfl
theorem EncodeShape.devSmp1Rd (hi : BitVec 12) : EncodeShape.Statement (.devSmp1Rd hi) := fun _ => rfl
theorem EncodeShape.devKbdRd (hi : BitVec 12) : EncodeShape.Statement (.devKbdRd hi) := fun _ => rfl
theorem EncodeShape.devSmp0Wr (hi : BitVec 12) : EncodeShape.Statement (.devSmp0Wr hi) := fun _ => rfl
theorem EncodeShape.devSmp1Wr (hi : BitVec 12) : EncodeShape.Statement (.devSmp1Wr hi) := fun _ => rfl
theorem EncodeShape.devNone (hi : BitVec 12) (dev : BitVec 4) : EncodeShape.Statement (.devNone hi dev) := fun _ => rfl
theorem EncodeShape.smpRdDec (low : BitVec 4) (sl : SlotIx) (nx : NextAccess) : EncodeShape.Statement (.smpRdDec low sl nx) := fun _ => rfl
theorem EncodeShape.smpRdInc (low : BitVec 4) (sl : SlotIx) (nx : NextAccess) : EncodeShape.Statement (.smpRdInc low sl nx) := fun _ => rfl
theorem EncodeShape.smpWrAddr (low : BitVec 4) (sl : SlotIx) (nx : NextAccess) : EncodeShape.Statement (.smpWrAddr low sl nx) := fun _ => rfl
theorem EncodeShape.smpWr20 (low : BitVec 4) (sl : SlotIx) (nx : NextAccess) : EncodeShape.Statement (.smpWr20 low sl nx) := fun _ => rfl
theorem EncodeShape.smpWrC0 (low : BitVec 4) (sl : SlotIx) (nx : NextAccess) : EncodeShape.Statement (.smpWrC0 low sl nx) := fun _ => rfl
theorem EncodeShape.smpWrE0 (low : BitVec 4) (sl : SlotIx) (nx : NextAccess) : EncodeShape.Statement (.smpWrE0 low sl nx) := fun _ => rfl
theorem EncodeShape.smpUndef (op low : BitVec 4) (sl : SlotIx) (nx : NextAccess) : EncodeShape.Statement (.smpUndef op low sl nx) := fun _ => rfl
theorem EncodeShape.slotWrCmd (sl : SlotIx) (c : Byte) : EncodeShape.Statement (.slotWrCmd sl c) := fun _ => List.cons_ne_nil _ _
theorem EncodeShape.slotRdData (sl : SlotIx) : EncodeShape.Statement (.slotRdData sl) := fun _ => List.cons_ne_nil _ _
theorem EncodeShape.slotWrData (sl : SlotIx) (b : Byte) : EncodeShape.Statement (.slotWrData sl b) := fun _ => List.cons_ne_nil _ _
theorem EncodeShape.cpuExec : EncodeShape.Statement .cpuExec := fun _ => List.cons_ne_nil _ _
theorem EncodeShape.bpChk : EncodeShape.Statement .bpChk := fun _ => List.cons_ne_nil _ _
theorem EncodeShape.tTick : EncodeShape.Statement .tTick := fun _ => List.cons_ne_nil _ _
theorem EncodeShape.tick50 : EncodeShape.Statement .tick50 := fun _ => List.cons_ne_nil _ _
theorem EncodeShape.doSound : EncodeShape.Statement .doSound := fun _ => List.cons_ne_nil _ _
theorem EncodeShape.frame : EncodeShape.Statement .frame := fun _ => List.cons_ne_nil _ _
theorem EncodeShape.reset : EncodeShape.Statement .reset := fun _ => List.cons_ne_nil _ _
theorem EncodeShape.loadRom (img : List Byte) : EncodeShape.Statement (.loadRom img) := fun _ => List.cons_ne_nil _ _
theorem EncodeShape.loadRam (bank : Word) (buf : List Byte) : EncodeShape.Statement (.loadRam bank buf) := fun _ => List.cons_ne_nil _ _
theorem EncodeShape.setConfig (id : Word) : EncodeShape.Statement (.setConfig id) := fun _ => List.cons_ne_nil _ _
theorem EncodeShape.key (sc : Byte) (pressed : Bool) : EncodeShape.Statement (.key sc pressed) := fun _ => List.cons_ne_nil _ _
theorem EncodeShape.attach (sl : SlotIx) (img : Option (List Byte)) : EncodeShape.Statement (.attach sl img) := fun _ => List.cons_ne_nil _ _
theorem EncodeShape.detach (sl : SlotIx) : EncodeShape.Statement (.detach sl) := fun _ => List.cons_ne_nil _ _
theorem EncodeShape.isAtt (sl : SlotIx) : EncodeShape.Statement (.isAtt sl) := fun _ => List.cons_ne_nil _ _
theorem EncodeShape.setSoundCb (cb : Option Word) : EncodeShape.Statement (.setSoundCb cb) := fun _ => List.cons_ne_nil _ _
theorem EncodeShape.setSound (on : Bool) : EncodeShape.Statement (.setSound on) := fun _ => List.cons_ne_nil _ _
theorem EncodeShape.setBp (set : BpRef) : EncodeShape.Statement (.setBp set) := fun _ => List.cons_ne_nil _ _
theorem EncodeShape.save : EncodeShape.Statement .save := fun _ => List.cons_ne_nil _ _
theorem EncodeShape.load (img : List Byte) : EncodeShape.Statement (.load img) := fun _ => List.cons_ne_nil _ _
theorem EncodeShape.video : EncodeShape.Statement .video := fun _ => List.cons_ne_nil _ _
theorem EncodeShape.bpAdd (arr : BpArray) (a : Word) : EncodeShape.Statement (.bpAdd arr a) := fun _ => List.cons_ne_nil _ _
theorem EncodeShape.bpRemove (arr : BpArray) (a : Word) : EncodeShape.Statement (.bpRemove arr a) := fun _ => List.cons_ne_nil _ _
theorem EncodeShape.bpSetTemp (a : Word) : EncodeShape.Statement (.bpSetTemp a) := fun _ => List.cons_ne_nil _ _
theorem EncodeShape.bpClearAll (arr : BpArray) : EncodeShape.Statement (.bpClearAll arr) := fun _ => List.cons_ne_nil _ _

end Sys2Proof.Laws
end

