-- ==== Sys2Proof/Laws/Ports.lean ====
section
/-!
SUPPORT. The calls a port access makes: none, or the one EXT request of `ExtComplete` (R219). A byte write is a read and a
write of one register, and still makes at most one.
-/
namespace Sys2Proof.Machine

theorem extComplete_signals (s : State) : (extComplete s).out.signals = extSignals s := by
  unfold extComplete extSignals ctrlImask
  by_cases h : s.ext.control.getLsbD 5 = true
  · rw [if_pos h, if_pos h]
  · rw [if_neg h, if_neg h]; rfl

theorem extSignals_of_masked {s : State} (h : s.ext.control.getLsbD 5 = true) : extSignals s = s.out.signals := by
  unfold extSignals; rw [if_pos h]

theorem extSignals_setSlot (sl : SlotIx) (x : Slot) (s : State) : extSignals (setSlot sl x s) = extSignals s := by
  cases sl <;> rfl

theorem extDataRead_signals (s : State) :
    (extDataRead s).out.signals = s.out.signals ∨ (extDataRead s).out.signals = extSignals s := by
  unfold extDataRead
  split
  · right; rw [extComplete_signals]; exact extSignals_setSlot _ _ s
  · exact .inl rfl
  · exact .inl rfl

theorem extDataWrite_signals (b : Byte) (s : State) :
    (extDataWrite b s).out.signals = s.out.signals ∨ (extDataWrite b s).out.signals = extSignals s := by
  unfold extDataWrite
  split
  · right; rw [extComplete_signals]; exact extSignals_setSlot _ _ s
  · exact .inl rfl

theorem extCommandWrite_signals (c : Byte) (s : State) :
    (extCommandWrite c s).out.signals = s.out.signals ∨ (extCommandWrite c s).out.signals = extSignals s := by
  unfold extCommandWrite
  split
  · right; rw [extComplete_signals]; exact extSignals_setSlot _ _ _
  · exact .inl rfl

theorem portAfterRead_signals (r : PortReg) (s : State) :
    (portAfterRead r s).out.signals = s.out.signals ∨ (portAfterRead r s).out.signals = extSignals s := by
  cases r
  case extData => exact extDataRead_signals s
  all_goals exact .inl rfl

theorem portAfterWrite_signals (r : PortReg) (v : Word) (s : State) :
    (portAfterWrite r v s).out.signals = s.out.signals ∨ (portAfterWrite r v s).out.signals = extSignals s := by
  cases r
  case extData => exact extDataWrite_signals _ s
  case extCmd => exact extCommandWrite_signals _ s
  all_goals exact .inl rfl

/-- A device nibble that takes data writes takes no data reads (R218). -/
theorem readTarget_of_writeTarget {dev : BitVec 4} {sl : SlotIx} (h : writeTarget dev = some sl) :
    readTarget dev = .nothing := by
  unfold writeTarget at h
  split at h
  · next e => subst e; rfl
  · split at h
    · next e => subst e; rfl
    · cases h

theorem extComplete_ext (s : State) : (extComplete s).ext = s.ext := by unfold extComplete; split <;> rfl

/-- A data read leaves the control word. -/
theorem extDataRead_control (s : State) : (extDataRead s).ext.control = s.ext.control := by
  unfold extDataRead; split
  · rw [extComplete_ext]; unfold slotReadData; rw [setSlot_ext]
  · rfl
  · rfl

/-- The read and the write a byte write is made of (R174) make at most one EXT request. -/
theorem portAfterWrite_portAfterRead_signals (r : PortReg) (v : Word) (s : State) :
    (portAfterWrite r v (portAfterRead r s)).out.signals = s.out.signals ∨
    (portAfterWrite r v (portAfterRead r s)).out.signals = extSignals s := by
  cases r
  case extData =>
    show (extDataWrite (lo8 v) (extDataRead s)).out.signals = _ ∨ (extDataWrite (lo8 v) (extDataRead s)).out.signals = _
    cases hw : writeTarget (ctrlDev s.ext.control) with
    | none =>
      have e : extDataWrite (lo8 v) (extDataRead s) = extDataRead s := by
        unfold extDataWrite; rw [extDataRead_control, hw]
      rw [e]; exact extDataRead_signals s
    | some sl =>
      have e : extDataRead s = s := by unfold extDataRead; rw [readTarget_of_writeTarget hw]
      rw [e]; exact extDataWrite_signals _ s
  case extCmd => exact extCommandWrite_signals (lo8 v) (extCommandRead s)
  all_goals exact portAfterWrite_signals _ v s

end Sys2Proof.Machine
end

