-- ==== Sys2Proof/Laws/Registry.lean ====
section
/-!
SUPPORT. What adding to and removing from a registry array do: both keep the array's invariants.
-/
namespace Sys2Proof.Machine

theorem mayAdd_iff {c : Config} {xs : List Word} {a : Word} :
    mayAdd c xs a = true ↔ xs.length + 1 < c.bpN ∧ a ≠ 0xFFFF#16 ∧ a ∉ xs := by
  unfold mayAdd arrayFull bpSentinel
  simp [and_assoc]

theorem mem_replaceFirst {x a z : Word} {xs : List Word} : x ∈ replaceFirst a z xs → x ∈ xs ∨ x = z := by
  induction xs with
  | nil => intro h; cases h
  | cons y ys ih =>
    unfold replaceFirst; split
    · intro h
      exact (List.mem_cons.mp h).elim .inr (fun h => .inl (List.mem_cons_of_mem _ h))
    · intro h
      rcases List.mem_cons.mp h with h | h
      · exact .inl (h ▸ List.mem_cons_self)
      · exact (ih h).imp (List.mem_cons_of_mem _) id

theorem length_replaceFirst (a z : Word) (xs : List Word) : (replaceFirst a z xs).length = xs.length := by
  induction xs with
  | nil => rfl
  | cons y ys ih => unfold replaceFirst; split <;> simp [ih]

theorem replaceFirst_append {a z : Word} {pre post : List Word} (h : a ∉ pre) :
    replaceFirst a z (pre ++ a :: post) = pre ++ z :: post := by
  induction pre with
  | nil => simp [replaceFirst]
  | cons y ys ih =>
    rw [List.mem_cons, not_or] at h
    rw [List.cons_append, replaceFirst, if_neg (Ne.symm h.1), ih h.2, List.cons_append]

theorem nodup_replaceFirst {a z : Word} {xs : List Word} (h : xs.Nodup) (hz : z ∉ xs) :
    (replaceFirst a z xs).Nodup := by
  induction xs with
  | nil => exact h
  | cons y ys ih =>
    rw [List.nodup_cons] at h
    rw [List.mem_cons, not_or] at hz
    unfold replaceFirst; split
    · exact List.nodup_cons.mpr ⟨hz.2, h.2⟩
    · refine List.nodup_cons.mpr ⟨fun e => ?_, ih h.2 hz.2⟩
      exact (mem_replaceFirst e).elim h.1 (fun e => hz.1 e.symm)

/-- What `Remove(a)` leaves: nothing changed, the last entry gone, or the last entry in the place of `a`. -/
theorem removeEntry_cases (xs : List Word) (a : Word) :
    (a ∉ xs ∧ removeEntry xs a = xs) ∨
    (∃ ys, xs = ys ++ [a] ∧ removeEntry xs a = ys) ∨
    (∃ ys z, xs = ys ++ [z] ∧ z ≠ a ∧ a ∈ ys ∧ removeEntry xs a = replaceFirst a z ys) := by
  unfold removeEntry
  split
  · next hm =>
    rw [List.contains_iff_mem] at hm
    split
    · next z hz =>
      have e : xs = xs.dropLast ++ [z] := (List.dropLast_append_getLast? z hz).symm
      split
      · next hza => exact .inr (.inl ⟨_, hza ▸ e, rfl⟩)
      · next hza =>
        refine .inr (.inr ⟨_, z, e, hza, ?_, rfl⟩)
        rw [e, List.mem_append] at hm
        exact hm.elim id (fun q => absurd (List.mem_singleton.mp q).symm hza)
    · next hz => rw [List.getLast?_eq_none_iff.mp hz] at hm; cases hm
  · next hm => exact .inl ⟨fun q => hm (List.contains_iff_mem.mpr q), rfl⟩

theorem removeEntry_ok {c : Config} {xs : List Word} {a : Word} (h : ArrayOk c xs) : ArrayOk c (removeEntry xs a) := by
  rcases removeEntry_cases xs a with ⟨-, e⟩ | ⟨ys, e, r⟩ | ⟨ys, z, e, -, -, r⟩
  · rw [e]; exact h
  · subst e; rw [r]
    exact ⟨(List.nodup_append.mp h.distinct).1, fun q => h.no_sentinel (List.mem_append_left _ q),
      by have := h.fits; rw [List.length_append] at this; omega⟩
  · subst e; rw [r]
    have hd := List.nodup_append.mp h.distinct
    refine ⟨nodup_replaceFirst hd.1 (fun q => hd.2.2 z q z (List.mem_singleton_self z) rfl), fun q => ?_, ?_⟩
    · rcases mem_replaceFirst q with q | q
      · exact h.no_sentinel (List.mem_append_left _ q)
      · exact h.no_sentinel (List.mem_append_right _ (List.mem_singleton.mpr q))
    · have := h.fits; rw [List.length_append] at this; rw [length_replaceFirst]; omega

theorem addEntry_ok {c : Config} {xs : List Word} {a : Word} (h : ArrayOk c xs) (hm : mayAdd c xs a = true) :
    ArrayOk c (xs ++ [a]) := by
  obtain ⟨h1, h2, h3⟩ := mayAdd_iff.mp hm
  refine ⟨List.nodup_append.mpr ⟨h.distinct, by simp, ?_⟩, fun q => ?_, by simpa using h1⟩
  · intro x hx y hy e
    rw [List.mem_singleton] at hy
    exact h3 (hy ▸ e ▸ hx)
  · rcases List.mem_append.mp q with q | q
    · exact h.no_sentinel q
    · exact h2 (List.mem_singleton.mp q).symm

theorem nil_arrayOk {c : Config} (h : configValid c = true) : ArrayOk c [] := by
  unfold configValid at h
  simp only [Bool.and_eq_true, decide_eq_true_eq] at h
  exact ⟨List.nodup_nil, List.not_mem_nil, by simp; omega⟩

end Sys2Proof.Machine
end

