-- ==== Sys2Proof/Laws/Snapshot.lean ====
section
/-!
SUPPORT. The parts of a snapshot image and where each lies (R350).
-/
namespace Sys2Proof.Machine

@[simp] theorem length_le16 (w : Word) : (le16 w).length = 2 := rfl
@[simp] theorem length_le32 (w : Word32) : (le32 w).length = 4 := rfl
@[simp] theorem length_zeros (n : Nat) : (zeros n).length = n := List.length_replicate
@[simp] theorem length_snapHeader (s : State) : (snapHeader s).length = 32 := by simp [snapHeader]
@[simp] theorem length_snapRegs (s : State) : (snapRegs s).length = 128 := by simp [snapRegs]
@[simp] theorem length_snapLow (s : State) : (snapLow s).length = 4096 := by simp [snapLow]
@[simp] theorem length_romBytes (s : State) (i n : Nat) : (romBytes s i n).length = n := by simp [romBytes]
@[simp] theorem length_ramBytes (s : State) (i n : Nat) : (ramBytes s i n).length = n := by simp [ramBytes]

/-- The image is 147456 bytes. -/
theorem length_snapshot (s : State) : (snapshot s).length = snapSize := by
  simp [snapshot, romSize, ramSize, snapSize]

theorem getD_romBytes {s : State} {n i : Nat} (h : i < n) : (romBytes s 0 n).getD i 0#8 = romByte s i := by
  simp [romBytes, h]

theorem getD_ramBytes {s : State} {k n i : Nat} (h : i < n) : (ramBytes s k n).getD i 0#8 = ramByte s (k + i) := by
  simp [ramBytes, h]

theorem getD_zeros (n i : Nat) : (zeros n).getD i 0#8 = 0#8 := by
  unfold zeros
  rw [List.getD_eq_getElem?_getD, List.getElem?_replicate]
  split <;> rfl

/-- Below 4096 the image is `snapLow`. -/
theorem imgByte_low {s : State} {i : Nat} (h : i < 4096) : imgByte (snapshot s) i = (snapLow s).getD i 0#8 := by
  unfold imgByte snapshot
  rw [List.append_assoc, List.append_assoc, List.getD_append _ _ _ _ (by simpa using h)]

/-- From 4096 the image is the ROM. -/
theorem imgByte_rom {s : State} {i : Nat} (h : i < 32768) : imgByte (snapshot s) (4096 + i) = romByte s i := by
  unfold imgByte snapshot
  rw [List.append_assoc, List.append_assoc, List.getD_append_right _ _ _ _ (by simp), length_snapLow,
    Nat.add_sub_cancel_left, List.getD_append _ _ _ _ (by simpa [romSize] using h), getD_romBytes (show i < romSize from h)]

/-- From 36864 the image is the RAM. -/
theorem imgByte_ram {s : State} {i : Nat} (h : i < 65536) : imgByte (snapshot s) (36864 + i) = ramByte s i := by
  have e1 : 36864 + i - 4096 = romSize + i := by unfold romSize; omega
  have e2 : romSize + i - romSize = i := by omega
  unfold imgByte snapshot
  rw [List.append_assoc, List.append_assoc, List.getD_append_right _ _ _ _ (by rw [length_snapLow]; omega),
    length_snapLow, e1, List.getD_append_right _ _ _ _ (by rw [length_romBytes]; omega), length_romBytes, e2,
    List.getD_append _ _ _ _ (by rw [length_ramBytes]; exact h), getD_ramBytes (show i < ramSize from h), Nat.zero_add]

end Sys2Proof.Machine
end

