-- ==== Sys2Proof/Tests/Slice0.lean ====
section
/-!
SUPPORT. Tests: ill-formed terms refused, words written out from the spec's encodings decoded, one-step and few-step vectors
of `95_test_vectors.md`, and a witness for the hypotheses of every statement that has some.
-/
namespace Sys2Proof.Tests
open Sys2Proof Sys2Proof.Machine

/-! ### Helpers -/

/-- The state at power-on. -/
def s0 : State := State.reset

/-- A field of the state after a run. -/
def after {α : Type} (f : State → α) (is : List Instr) (s : State) : Option α := (runInstrs is s).map f

/-- The answer and the calls made. -/
def io (s : State) : Answer × List Signal := (s.out.answer, s.out.signals)

/-- A state with slot 0 holding a cartridge. -/
def withSlot (x : Slot) : State := { s0 with slot0 := x }

/-- A slot with an image, a cursor and a command in force. -/
def slotOf (buf : List Byte) (cursor : Word24) (command : Byte) : Slot := ⟨true, buf, 0xFFFF#24, cursor, command⟩

/-- A state with a stimulus waiting. -/
def waiting (st : Stimulus) : State := { s0 with inbox := [st] }

/-- A state with a control word in the controller. -/
def withControl (v : Word) (sel : Bool) : State := { s0 with ext := { s0.ext with control := v, selected := sel } }

/-- A state with the sound registers given. -/
def withSound (ctl reload envReload : Word) (pre : Byte) (cnt env : Word) : State :=
  { s0 with snd := ⟨ctl, reload, envReload, pre, cnt, env⟩ }

/-- An Execute without transactions that leaves a program counter. -/
def execAt (pc : Word) : CpuExec := ⟨[], pc, false, Vector.replicate 32 0#8⟩

/-- A state whose CPU runs a script, with a breakpoint at 0o1006. -/
def withScript (pcs : List Word) : State :=
  { s0 with cpu := { s0.cpu with script := pcs.map execAt }, bpSet := .listed [0o1006#16] }

/-- How many Executes the block asked for. -/
def execs (s : State) : Nat := s.out.signals.count .cpuExecute

/-- A state with bytes of ROM known. -/
def withRom (m : Memory) : State := { s0 with rom := m }

/-- A state with bytes of RAM known. -/
def withRam (m : Memory) : State := { s0 with ram := m }

/-- A state with entries in the breakpoint array. -/
def withBreaks (xs : List Word) (t : Option Word) : State := { s0 with registry := ⟨xs, t, []⟩ }

/-! ### Well-formedness: an ill-formed term for each check -/

theorem test_wf_ramLow : wellFormed Config.refcfg (.ramLow 0x4000#16 false false) = false := by decide
theorem test_wf_denied : wellFormed Config.refcfg (.denied 0x8000#16 false false) = false := by decide
theorem test_wf_ioA : wellFormed Config.refcfg (.ioA 0xE808#16 false false) = false := by decide
theorem test_wf_ioB : wellFormed Config.refcfg (.ioB 0xE80F#16 false false) = false := by decide
theorem test_wf_ioC : wellFormed Config.refcfg (.ioC 0xE81E#16 false false) = false := by decide
theorem test_wf_ioD : wellFormed Config.refcfg (.ioD 0xEA80#16 false false) = false := by decide
theorem test_wf_winRam : wellFormed Config.refcfg (.winRam 0xE800#16 false false) = false := by decide
theorem test_wf_rom : wellFormed Config.refcfg (.rom 0xF9B6#16 false false) = false := by decide
theorem test_wf_ramTop : wellFormed Config.refcfg (.ramTop 0xF9B5#16 false false) = false := by decide
theorem test_wf_portUnassigned_assigned : wellFormed Config.refcfg (.portUnassigned 0xE801#16 .readWord) = false := by
  decide
theorem test_wf_portUnassigned_not_io : wellFormed Config.refcfg (.portUnassigned 0xE818#16 .readWord) = false := by
  decide
theorem test_wf_devNone : wellFormed Config.refcfg (.devNone 0#12 2#4) = false := by decide
theorem test_wf_smpUndef : wellFormed Config.refcfg (.smpUndef 0xD#4 0#4 .s0 .none) = false := by decide

/-- R8, R284: the configuration's own checks. -/
theorem test_config_refcfg : configValid Config.refcfg = true := by decide
theorem test_config_rate_low : configValid { Config.refcfg with sampleRate := 24 } = false := by decide
theorem test_config_rate_high : configValid { Config.refcfg with sampleRate := 507175 } = false := by decide
theorem test_config_rate_edge : configValid { Config.refcfg with sampleRate := 507174 } = true := by decide
theorem test_config_two_ports_equal : configValid { Config.refcfg with aExtCs := 0xE810#16 } = false := by decide
theorem test_config_port_odd : configValid { Config.refcfg with aExtCs := 0xE815#16 } = false := by decide
theorem test_config_port_outside : configValid { Config.refcfg with aExtCs := 0xE818#16 } = false := by decide
theorem test_config_desel_two_bits : configValid { Config.refcfg with statusDesel := 0x0180#16 } = false := by decide
theorem test_config_fields_overlap : configValid { Config.refcfg with volumeLsb := 2 } = false := by decide

/-! ### Decoding: words written out bit by bit from the spec's encodings -/

/-- Binary digits, most significant first. -/
def bits : List Bool → Nat := List.foldl (fun n b => 2 * n + (if b then 1 else 0)) 0

/-- R102: A_LCD_ADDR0 is 0o164000, `1110 1000 0000 0000`. -/
theorem test_decode_lcdAddr :
    decodeTableWord 16 (bits [true, true, true, false, true, false, false, false,
      false, false, false, false, false, false, false, false]) = some (.lcdAddrR .a0) := by decide

/-- R102: A_EXT_CMD is 0o164026, `1110 1000 0001 0110`. -/
theorem test_decode_extCmd :
    decodeTableWord 16 (bits [true, true, true, false, true, false, false, false,
      false, false, false, true, false, true, true, false]) = some .extCmdR := by decide

/-- R103, R104: control word with the top bits `0000 0000 0010` and nibble `1000`. -/
theorem test_decode_devSmp0Wr :
    decodeTableWord 16 (bits [false, false, false, false, false, false, false, false,
      false, false, true, false, true, false, false, false]) = some (.devSmp0Wr 0x002#12) := by decide

/-- R106: command byte `1101 0111`. -/
theorem test_decode_smpRdInc :
    decodeTableWord 8 (bits [true, true, false, true, false, true, true, true]) = some (.smpRdInc 7#4 .s0 .none) := by
  decide

/-- R101: 0o163777 is `1110 0111 1111 1111`, the last ROM address below the window, as an ADDR16 stimulus. -/
theorem test_decode_rom :
    decode Config.refcfg ⟨.addr16, [BitVec.ofNat 8 (bits [true, true, true, true, true, true, true, true]),
      BitVec.ofNat 8 (bits [true, true, true, false, false, true, true, true]), 0#8]⟩ =
      .instr (.rom 0xE7FF#16 false false) := by decide

/-- R101: the first address of each region row, as ADDR16 stimuli. -/
theorem test_decode_regions :
    [[0x00#8, 0x00#8, 0#8], [0x00#8, 0x40#8, 1#8], [0x00#8, 0xE8#8, 2#8], [0x10#8, 0xE8#8, 3#8], [0x1A#8, 0xE8#8, 0#8],
      [0x00#8, 0xEA#8, 0#8], [0x08#8, 0xE8#8, 0#8], [0x00#8, 0x80#8, 0#8], [0xB6#8, 0xF9#8, 0#8]].map
      (fun bs => decode Config.refcfg ⟨.addr16, bs⟩) =
    [.instr (.ramLow 0x0000#16 false false), .instr (.denied 0x4000#16 true false), .instr (.ioA 0xE800#16 false true),
      .instr (.ioB 0xE810#16 true true), .instr (.ioC 0xE81A#16 false false), .instr (.ioD 0xEA00#16 false false),
      .instr (.winRam 0xE808#16 false false), .instr (.rom 0x8000#16 false false),
      .instr (.ramTop 0xF9B6#16 false false)] := by decide

/-- R102: every port row, read and written. -/
theorem test_decode_ports :
    [(0xE800#16, Instr.lcdAddrR .a0, Instr.lcdAddrW .a0 0x1234#16), (0xE804#16, .lcdAddrR .a1, .lcdAddrW .a1 0x1234#16),
      (0xE802#16, .lcdConfR .a0, .lcdConfW .a0 0x1234#16), (0xE806#16, .lcdConfR .a1, .lcdConfW .a1 0x1234#16),
      (0xE810#16, .extDataR, .extDataW 0x1234#16), (0xE814#16, .extCsR, .extCsW 0x1234#16),
      (0xE816#16, .extCmdR, .extCmdW 0x1234#16), (0xE81A#16, .sndCtlR, .sndCtlW 0x1234#16),
      (0xE81C#16, .sndReloadR, .sndReloadW 0x1234#16), (0xEA00#16, .envReloadR, .envReloadW 0x1234#16),
      (0xEA02#16, .lcdIndexR, .lcdIndexW 0x1234#16),
      (0xE812#16, .portUnassigned 0xE812#16 .readWord, .portUnassigned 0xE812#16 (.writeWord 0x1234#16))].all
      (fun p => decode Config.refcfg ⟨.port, [lo8 p.1, hi8 p.1, 0#8, 0#8, 0#8]⟩ == .instr p.2.1 &&
        decode Config.refcfg ⟨.port, [lo8 p.1, hi8 p.1, 1#8, 0x34#8, 0x12#8]⟩ == .instr p.2.2) = true := by decide

/-- R102: the mask 0xFFFE leaves bit 0 of an assigned port's address out. -/
theorem test_decode_port_odd :
    decode Config.refcfg ⟨.port, [0x01#8, 0xE8#8, 0#8, 0#8, 0#8]⟩ = .instr (.lcdAddrR .a0) := by decide

/-- R103, R104: the six device selects, low byte first. -/
theorem test_decode_devices :
    [0xA0#8, 0xA1#8, 0xA2#8, 0xA8#8, 0xA9#8, 0xA7#8].map (fun b => decode Config.refcfg ⟨.ctrl16, [b, 0x5B#8]⟩) =
    [.instr (.devSmp0Rd 0x5BA#12), .instr (.devSmp1Rd 0x5BA#12), .instr (.devKbdRd 0x5BA#12), .instr (.devSmp0Wr 0x5BA#12),
      .instr (.devSmp1Wr 0x5BA#12), .instr (.devNone 0x5BA#12 7#4)] := by decide

/-- R106: the seven command rows. -/
theorem test_decode_commands :
    [0x1F#8, 0xD1#8, 0xA2#8, 0x23#8, 0xC4#8, 0xE5#8, 0x96#8].map
      (fun b => decode Config.refcfg ⟨.smpcmd8, [b, 3#8, 0#8]⟩) =
    [.instr (.smpRdDec 0xF#4 .s1 .read), .instr (.smpRdInc 1#4 .s1 .read), .instr (.smpWrAddr 2#4 .s1 .read),
      .instr (.smpWr20 3#4 .s1 .read), .instr (.smpWrC0 4#4 .s1 .read), .instr (.smpWrE0 5#4 .s1 .read),
      .instr (.smpUndef 9#4 6#4 .s1 .read)] := by decide

/-- R106: the undefined top nibbles are the ten that R119 lists. -/
theorem test_smp_undefined_nibbles :
    (List.range 16).filter (fun n => smpOp (BitVec.ofNat 4 n) == .undef) = [0, 3, 4, 5, 6, 7, 8, 9, 0xB, 0xF] := by decide

/-- R142 (layout: log 2): the bus operations. -/
theorem test_decode_bus :
    [[0#8, 0x14#8, 0xE8#8, 0#8, 0#8, 1#8], [1#8, 0x14#8, 0xE8#8, 0#8, 0#8, 0#8], [2#8, 0x14#8, 0xE8#8, 0x08#8, 0x20#8, 0#8],
      [3#8, 0x14#8, 0xE8#8, 0x08#8, 0#8, 0#8], [4#8, 0x14#8, 0xE8#8, 0#8, 0#8, 0#8], [5#8, 0x14#8, 0xE8#8, 0#8, 0#8, 0#8],
      [6#8, 0x14#8, 0xE8#8, 0#8, 0#8, 0#8]].map (fun bs => decode Config.refcfg ⟨.bus, bs⟩) =
    [.instr (.rdw 0xE814#16 true), .instr (.rdb 0xE814#16 false), .instr (.wrw 0xE814#16 0x2008#16 false),
      .instr (.wrb 0xE814#16 0x08#8 false), .instr (.fetch 0xE814#16 false), .instr (.viewW 0xE814#16),
      .instr (.viewB 0xE814#16)] := by decide

/-- R108, R120 (layout: log 2): the events and host actions, in the table's order. -/
theorem test_decode_events :
    [[0#8, 1#8, 0xA0#8], [1#8, 0#8], [2#8, 1#8, 7#8], [3#8], [4#8], [5#8], [6#8], [7#8], [8#8], [9#8], [10#8, 1#8, 2#8],
      [11#8, 1#8, 0#8, 5#8], [12#8, 1#8, 0#8], [13#8, 0x45#8, 1#8], [14#8, 0#8, 1#8, 0x10#8], [15#8, 1#8],
      [16#8, 0#8]].map (fun bs => decode Config.refcfg ⟨.evt, bs⟩) =
    [.instr (.slotWrCmd .s1 0xA0#8), .instr (.slotRdData .s0), .instr (.slotWrData .s1 7#8), .instr .cpuExec, .instr .bpChk,
      .instr .tTick, .instr .tick50, .instr .doSound, .instr .frame, .instr .reset, .instr (.loadRom [1#8, 2#8]),
      .instr (.loadRam 1#16 [5#8]), .instr (.setConfig 1#16), .instr (.key 0x45#8 true), .instr (.attach .s0 (some [0x10#8])),
      .instr (.detach .s1), .instr (.isAtt .s0)] := by decide

theorem test_decode_events_2 :
    [[14#8, 1#8, 0#8], [17#8, 1#8, 2#8, 0#8], [17#8, 0#8], [18#8, 1#8], [19#8, 2#8, 6#8, 2#8], [19#8, 0#8], [19#8, 1#8],
      [20#8], [21#8, 9#8], [22#8], [23#8, 0#8, 6#8, 2#8], [24#8, 1#8, 6#8, 2#8], [25#8, 6#8, 2#8], [26#8, 0#8]].map
      (fun bs => decode Config.refcfg ⟨.evt, bs⟩) =
    [.instr (.attach .s1 none), .instr (.setSoundCb (some 2#16)), .instr (.setSoundCb none), .instr (.setSound true),
      .instr (.setBp (.listed [0o1006#16])), .instr (.setBp .null), .instr (.setBp .registry), .instr .save,
      .instr (.load [9#8]), .instr .video, .instr (.bpAdd .breaks 0o1006#16), .instr (.bpRemove .watches 0o1006#16),
      .instr (.bpSetTemp 0o1006#16), .instr (.bpClearAll .breaks)] := by decide

/-- Bytes that encode nothing are rejected by name. -/
theorem test_decode_rejects :
    [decode Config.refcfg ⟨.ctrl16, [1#8]⟩, decode Config.refcfg ⟨.addr16, [0#8, 0#8, 4#8]⟩,
      decode Config.refcfg ⟨.evt, [27#8]⟩, decode Config.refcfg ⟨.port, [0x18#8, 0xE8#8, 0#8, 0#8, 0#8]⟩] =
    [.reject .length, .reject .operand, .reject .operation, .reject .notIo] := by decide

/-! ### The step -/

/-- A table word placed where the step takes its next stimulus is what the step runs. -/
theorem test_step_table_word :
    (match step (s0.withFetchWord 16 0x5BA8) with
      | .next t => some (t.ext.control, t.inbox)
      | .fault _ => none
      | .refused _ => none) = some (0x5BA8#16, []) := by decide

/-- `CPU.SetPC` writes the program counter (R11), and between frames only. -/
theorem test_step_setPc :
    (match step (waiting (encodeSetPc 0o1006#16)) with
      | .next t => some (t.cpu.pc, t.inbox, t.out.answer)
      | .fault _ => none
      | .refused _ => none) = some (0o1006#16, [], .done) ∧
    step { waiting (encodeSetPc 0o1006#16) with frame := some ⟨0, 0⟩ } = .refused .hostOverlap := ⟨by decide, rfl⟩

/-- The registry's operations are host actions too (R6, R14). -/
theorem test_bpAdd_in_frame :
    exec (.bpAdd .breaks 2#16) { s0 with frame := some ⟨0, 0⟩ } = .refused .hostOverlap := rfl

/-- A reference to the registry taken while it is empty sees what is added later (log 17). -/
theorem test_setBp_empty_registry : after io [.setBp .registry, .bpAdd .breaks 0#16, .bpChk] s0 =
    some (.bool true, []) := by decide

theorem test_step_no_stimulus : step s0 = .refused .noStimulus := rfl

/-! ### T1: classification -/

theorem test_T1 :
    [0x0000#16, 0x3FFF#16, 0x4000#16, 0x7FFF#16, 0x8000#16, 0xE7FF#16, 0xE800#16, 0xE807#16, 0xE808#16, 0xE80F#16, 0xE810#16,
      0xE817#16, 0xE818#16, 0xE819#16, 0xE81A#16, 0xE81D#16, 0xE81E#16, 0xE9FF#16, 0xEA00#16, 0xEA7F#16, 0xEA80#16,
      0xEBFF#16, 0xEC00#16, 0xF9B5#16, 0xF9B6#16, 0xFFFF#16].map classify =
    [.ram 0x0000#16, .ram 0x3FFF#16, .denied, .denied, .rom 0x0000#16, .rom 0x67FF#16, .io 0xE800#16, .io 0xE807#16,
      .ram 0xE808#16, .ram 0xE80F#16, .io 0xE810#16, .io 0xE817#16, .ram 0xE818#16, .ram 0xE819#16, .io 0xE81A#16,
      .io 0xE81D#16, .ram 0xE81E#16, .ram 0xE9FF#16, .io 0xEA00#16, .io 0xEA7F#16, .ram 0xEA80#16, .ram 0xEBFF#16,
      .rom 0x6C00#16, .rom 0x79B5#16, .ram 0xF9B6#16, .ram 0xFFFF#16] := by decide

/-- The ROM row's operation. -/
theorem test_region_rom : after io [.rom 0xEC00#16 true true] s0 = some (.region .rom (some 0x6C00#16), []) := by decide

/-! ### T2: bus transactions -/

theorem test_T2_1_2 : after io [.rdw 0x8001#16 false] (withRom [(0, 0x34#8), (1, 0x12#8)]) =
    some (.word 0x1234#16, []) := by decide
theorem test_T2_3 : after io [.rdb 0x8001#16 false] (withRom [(0, 0x34#8), (1, 0x12#8)]) =
    some (.byte 0x12#8, []) := by decide
theorem test_T2_4 : after (fun t => (io t, t.rom)) [.wrw 0x8000#16 0x5555#16 false] (withRom [(0, 0x34#8)]) =
    some ((.faultWrite, [.memoryError]), [(0, 0x34#8)]) := by decide
theorem test_T2_6 : after (fun t => (t.out.signals, t.out.faultLog)) [.rdw 0x4000#16 false] s0 =
    some ([.memoryError], [⟨.fDenied, ⟨0x4000#16, .word, .read⟩⟩]) := by decide
theorem test_T2_9_10 : after io [.viewW 0x4000#16, .viewB 0x7FFF#16] s0 = some (.byte 0#8, []) := by decide
theorem test_T2_15 : after (fun t => (io t, t.ram)) [.wrw 0xE808#16 0x1234#16 false, .rdw 0xE808#16 false] s0 =
    some ((.word 0x1234#16, []), [(0xE808, 0x34#8), (0xE809, 0x12#8)]) := by decide
theorem test_T2_17_18 : after io [.wrw 0x3FFE#16 0xA55A#16 false, .rdb 0x3FFF#16 false] s0 =
    some (.byte 0xA5#8, []) := by decide
theorem test_T2_19 : after State.ram [.wrw 0xFFFF#16 0x0102#16 false] s0 = some [(0xFFFE, 0x02#8), (0xFFFF, 0x01#8)] := by
  decide
theorem test_T2_21 :
    after io [.wrw 0x0200#16 0xBBAA#16 false, .wrb 0x0201#16 0x11#8 false, .rdw 0x0200#16 false] s0 =
      some (.word 0x11AA#16, []) := by decide
theorem test_T2_22_23 :
    after (fun t => (io t, t.ext.shift))
      [.extCsW 2#16, .key 0x45#8 false, .viewW 0xE810#16, .fetch 0xE810#16 false] s0 =
      some ((.word 0x0045#16, []), 0xFF#8) := by decide

/-! ### T3: ports -/

theorem test_T3_1_3 : after (fun t => t.lcd.addr) [.wrw 0xE800#16 0x1234#16 false, .wrb 0xE805#16 0xAB#8 false] s0 =
    some 0xAB34#16 := by decide
theorem test_T3_8 : after (fun t => (octave t.cfg t.snd.ctl, volume t.cfg t.snd.ctl, gen50 t.cfg t.snd.ctl, t.snd.tonePre))
    [.wrw 0xE81A#16 0x003A#16 false] s0 = some (2, 3, true, 0#8) := by decide
theorem test_T3_13 : after (fun t => t.out.signals) [.wrb 0xE813#16 0x99#8 false] s0 = some [.memoryError] := by decide
theorem test_T3_14 : after (fun t => t.out.faultLog) [.rdb 0xEA7F#16 false] s0 =
    some [⟨.fPort, ⟨0xEA7F#16, .byte, .read⟩⟩] := by decide
theorem test_T3_15 : after (fun t => t.ext.shift)
    [.wrw 0xE814#16 2#16 false, .key 0x45#8 true, .wrb 0xE810#16 0x11#8 false] s0 = some 0xFF#8 := by decide
theorem test_T3_16 : after (fun t => (t.ext.control, t.ext.selected))
    [.wrw 0xE814#16 9#16 false, .wrw 0xE816#16 0xA0#16 false, .wrb 0xE814#16 1#8 false] s0 = some (1#16, true) := by decide
theorem test_T3_17 : after (fun t => (t.ext.command, t.ext.selected))
    [.wrw 0xE816#16 0xD0#16 false, .wrb 0xE817#16 0x55#8 false] s0 = some (0xD0#8, true) := by decide

/-! ### T4: the controller -/

theorem test_T4_1 : after io [.extCsR] s0 = some (.word 0x00C0#16, []) := by decide
theorem test_T4_3 : after io [.extCsR] (withControl 0x0029#16 true) = some (.word 0x0049#16, []) := by decide
theorem test_T4_6 : after (fun t => (t.out.answer, t.ext.selected)) [.extCmdW 0xD0#16, .extCmdR] s0 =
    some (.word 0xD0#16, false) := by decide
theorem test_T4_7 : after (fun t => t.ext.selected) [.extCsW 2#16] (withControl 0#16 true) = some false := by decide
theorem test_T4_8 : after (fun t => t.ext.selected) [.extCsW 0#16] (withControl 8#16 true) = some true := by decide
theorem test_T4_12 : after (fun t => (t.ext.command, t.slot0.command, t.out.signals)) [.extCmdW 0xA0#16]
    (withControl 8#16 false) = some (0xA0#8, 0#8, [.interruptVirq 2 0o304]) := by decide
theorem test_T4_13 : after (fun t => (t.slot0.cursor, t.out.signals.length)) [.extCsW 8#16, .extDataW 0x12#16, .extDataW 0xFF34#16]
    (withSlot (slotOf [] 0#24 0xA0#8)) = some (0x1234#24, 2) := by decide
theorem test_T4_16 : after io [.extDataR] (withControl 8#16 false) = some (.word 0xFF#16, []) := by decide
theorem test_T4_19 : after io [.key 0x41#8 true, .key 0x42#8 true, .extDataR] (withControl 0x22#16 false) =
    some (.word 0x42#16, [.interruptVirq 2 0o310, .interruptVirq 2 0o310]) := by decide
theorem test_device_selects : after (fun t => t.ext.control) [.devKbdRd 0x012#12, .devSmp1Wr 0xFFF#12] s0 =
    some 0xFFF9#16 := by decide

/-! ### T5: the slots -/

theorem test_T5_2 : attachSlot .s0 none s0 = answered (.bool false) s0 := rfl
theorem test_T5_5 : after (fun t => (t.out.answer, t.slot1.size)) [.attach .s1 (some []), .slotRdData .s1] s0 =
    some (.byte 0xFF#8, 0) := by decide
theorem test_T5_6 : after io [.detach .s0, .isAtt .s0] (withSlot (slotOf [1#8] 0#24 0#8)) = some (.bool false, []) := by
  decide
theorem test_T5_7 : after (fun t => (t.out.answer, t.slot0.cursor)) [.slotRdData .s0, .slotRdData .s0]
    (withSlot (slotOf [0x10#8, 0x20#8, 0x30#8] 1#24 0x10#8)) = some (.byte 0x10#8, 0xFFFF#24) := by decide
theorem test_T5_9 : after (fun t => (t.out.answer, t.slot0.cursor)) [.slotRdData .s0]
    (withSlot (slotOf [0x10#8] 0xFFFF#24 0xD7#8)) = some (.byte 0xFF#8, 0#24) := by decide
theorem test_T5_11 : after (fun t => t.slot0.cursor) [.slotWrData .s0 0x12#8, .slotWrData .s0 0x34#8, .slotWrData .s0 0x56#8]
    (withSlot (slotOf [] 0#24 0xA0#8)) = some 0x3456#24 := by decide
theorem test_T5_12_13 : after (fun t => (t.out.answer, t.slot0.cursor))
    [.smpWr20 0#4 .s0 (.write 0x77#8), .smpWrC0 0#4 .s0 (.write 0x77#8), .smpWrE0 0#4 .s0 .read]
    (withSlot (slotOf [0x10#8] 5#24 0#8)) = some (.byte 0xFF#8, 5#24) := by decide
theorem test_T5_16 : after (fun t => (t.slot0.command, t.slot0.cursor)) [.slotWrCmd .s0 0x10#8]
    (withSlot (slotOf [] 2#24 0xD0#8)) = some (0x10#8, 2#24) := by decide
theorem test_T5_17 : after (fun t => (t.out.answer, t.slot0)) [.smpRdInc 0#4 .s0 .read, .slotWrData .s0 1#8, .slotRdData .s0] s0 =
    some (.byte 0xFF#8, s0.slot0) := by decide

/-! ### T6: the scheduler -/

theorem test_T6_1 : after (fun t => (t.snd.toneCnt, t.snd.tonePre)) (List.replicate 17 .tTick) (withSound 2#16 3#16 0#16 0#8 0#16 0#16) =
    some (3#16, 4#8) := by decide
theorem test_T6_5 : after (fun t => (t.snd.tonePre, t.snd.toneCnt)) [.tTick, .tTick, .tTick]
    (withSound 1#16 9#16 0#16 3#8 7#16 0#16) = some (2#8, 6#16) := by decide
theorem test_T6_6 : after (fun t => (t.snd.envCnt, t.out.signals)) [.tick50, .tick50]
    (withSound 0x20#16 0#16 2#16 0#8 0#16 0#16) =
    some (1#16, [.interruptVirq 6 0o100, .interruptVirq 6 0o100]) := by decide
theorem test_T6_7 : after (fun t => (t.snd.envCnt, t.out.signals)) [.tick50] (withSound 0#16 0#16 2#16 0#8 1#16 5#16) =
    some (4#16, []) := by decide
/-- S10, R287: volume 2, octave 3, reload 100, counter 49 and 50. -/
theorem test_doSound_on : after (fun t => t.out.signals) [.setSoundCb (some 7#16), .setSound true, .doSound]
    (withSound 0x13#16 100#16 0#16 0#8 49#16 0#16) = some [.soundCb 7#16 0x0FFF#16 0x0FFF#16] := by decide
theorem test_doSound_off : after (fun t => t.out.signals) [.setSoundCb (some 7#16), .setSound true, .doSound]
    (withSound 0x13#16 100#16 0#16 0#8 50#16 0#16) = some [.soundCb 7#16 0#16 0#16] := by decide
/-- S11, R284. -/
theorem test_audioPeriod : [8000, 11025, 22050, 44100, 48000, 96000].map
    (fun r => audioPeriod { Config.refcfg with sampleRate := r }) = [63, 46, 23, 11, 10, 5] := by decide
/-- T6.9: a hit after the third EXEC: two TTICKs, answer false. -/
theorem test_T6_9 : after (fun t => (t.out.answer, execs t, t.snd.tonePre, t.frame)) [.frame]
    (withScript [0o1002#16, 0o1004#16, 0o1006#16]) = some (.bool false, 3, 1#8, none) := by decide
/-- T6.10: a hit after EXEC 17: one TICK50, one DOSOUND. -/
theorem test_T6_10 : after (fun t => (execs t, t.out.signals.length)) [.sndCtlW 0x20#16, .setSoundCb (some 1#16), .frame]
    (withScript (List.replicate 16 0#16 ++ [0o1006#16])) = some (17, 19) := by decide
theorem test_bpChk_sentinel : after io [.setBp (.listed [0xFFFF#16]), .bpChk]
    { s0 with cpu := { s0.cpu with pc := 0xFFFF#16 } } = some (.bool false, []) := by decide
/-- R282: a transaction inside an EXEC is answered to the CPU. -/
theorem test_exec_transaction : after (fun t => (t.ram, t.out.signals, t.cpu.pc)) [.cpuExec]
    { s0 with cpu := { s0.cpu with script := [⟨[.writeByte 5#16 7#8], 2#16, false, Vector.replicate 32 0#8⟩] } } =
    some ([(5, 7#8)], [.busAnswer .done, .cpuExecute], 2#16) := by decide

/-! ### Host actions and the registry -/

theorem test_reset : after (fun t => (t.lcd.addr, t.ext.shift, t.ram, t.uptime)) [.wrw 0xE800#16 7#16 false, .key 1#8 false, .reset]
    { withRam [(5, 7#8)] with uptime := 9 } = some (0#16, 0xFF#8, [(5, 7#8)], 0) := by decide
theorem test_loadRam : after State.ram [.loadRam 1#16 [1#8, 2#8, 3#8]] s0 = some [(16384, 1#8), (16385, 2#8), (16386, 3#8)] := by
  decide
theorem test_loadRam_past_end : execLoadRam 4#16 [1#8] s0 = .refused .ramPastEnd := rfl
theorem test_setConfig : after State.config [.setConfig 1#16] s0 = some 1#16 := by decide
theorem test_setConfig_other : after (fun t => (t.uptime, t.out.answer)) [.setConfig 2#16] { s0 with uptime := 9 } =
    some (9, .done) := by decide
/-- R342's example: [A, B, C] without A is [C, B]. -/
theorem test_bpRemove : after (fun t => (t.out.answer, t.registry.breaks)) [.bpRemove .breaks 1#16]
    (withBreaks [1#16, 2#16, 3#16] none) = some (.bool true, [3#16, 2#16]) := by decide
/-- S4. -/
theorem test_S4 : after (fun t => (t.registry.breaks, t.registry.temp)) [.bpSetTemp 0o2000#16, .bpSetTemp 0o2000#16] s0 =
    some ([0o2000#16], some 0o2000#16) := by decide
theorem test_S4_sentinel : after (fun t => (t.registry.breaks, t.registry.temp)) [.bpSetTemp 0o2000#16, .bpSetTemp 0xFFFF#16] s0 =
    some ([], none) := by decide
theorem test_bpAdd_full : after (fun t => (t.out.answer, t.registry.breaks.length)) [.bpAdd .breaks 0o1000#16]
    (withBreaks ((List.range 16).map (BitVec.ofNat 16)) none) = some (.bool false, 16) := by decide
theorem test_watches : after (fun t => (t.registry.breaks, t.registry.watches)) [.bpAdd .watches 5#16, .bpClearAll .breaks]
    (withBreaks [1#16] none) = some ([], [5#16]) := by decide

/-! ### Witnesses: concrete states and operands that meet a statement's hypotheses, clause by clause -/

theorem witness_EveryWellFormedOperationDecodesFromItsEncoding :
    configValid Config.refcfg = true ∧ wellFormed Config.refcfg (.ramTop 0xF9B6#16 true false) = true ∧
    wellFormed Config.refcfg (.devNone 0#12 15#4) = true := by decide

theorem witness_DecodedOperationsAreWellFormedAndKeepTheirBytes :
    decode Config.refcfg ⟨.smpcmd8, [0xD0#8, 4#8, 7#8]⟩ = .instr (.smpRdInc 0#4 .s0 (.write 7#8)) ∧
    decode Config.refcfg ⟨.port, [0x13#8, 0xE8#8, 2#8, 0#8, 0#8]⟩ = .instr (.portUnassigned 0xE813#16 .readByte) := by decide

theorem witness_StepRunsTheDecodedOperation :
    configValid (waiting ⟨.evt, [13#8, 0x45#8, 1#8]⟩).cfg = true ∧
    (waiting ⟨.evt, [13#8, 0x45#8, 1#8]⟩).inbox = ⟨.evt, [13#8, 0x45#8, 1#8]⟩ :: [] ∧
    decode (waiting ⟨.evt, [13#8, 0x45#8, 1#8]⟩).cfg ⟨.evt, [13#8, 0x45#8, 1#8]⟩ = .instr (.key 0x45#8 true) ∧
    wellFormed (waiting ⟨.evt, [13#8, 0x45#8, 1#8]⟩).cfg (.key 0x45#8 true) = true := by decide

/-- The CPU's stimulus, between frames and during one. -/
theorem witness_StepRunsTheDecodedOperation_setPc :
    (waiting ⟨.cpu, [lo8 5#16, hi8 5#16]⟩).inbox = ⟨.cpu, [lo8 5#16, hi8 5#16]⟩ :: [] ∧
    (waiting ⟨.cpu, [lo8 5#16, hi8 5#16]⟩).frame = none ∧
    { waiting ⟨.cpu, [lo8 5#16, hi8 5#16]⟩ with frame := some ⟨0, 15⟩ }.frame = some ⟨0, 15⟩ := by decide

/-- Configurations at the bounds of R8's last column, and one beyond each: legal, and not. -/
theorem test_configValid :
    [{ Config.refcfg with sampleRate := 25 }, { Config.refcfg with sampleRate := 507174 }, { Config.refcfg with bpN := 2 },
      { Config.refcfg with aLcdIndex := 0xEA7E#16 }, { Config.refcfg with gen50Bit := 15 }].all configValid = true ∧
    [{ Config.refcfg with sampleRate := 24 }, { Config.refcfg with sampleRate := 507175 }, { Config.refcfg with bpN := 1 },
      { Config.refcfg with aLcdIndex := 0xEA80#16 }, { Config.refcfg with aLcdIndex := 0xEA03#16 },
      { Config.refcfg with aLcdIndex := 0xE800#16 }, { Config.refcfg with gen50Bit := 16 },
      { Config.refcfg with gen50Bit := 4 }, { Config.refcfg with octaveLsb := 2 }, { Config.refcfg with statusDesel := 0#16 },
      { Config.refcfg with statusDesel := 0x0180#16 }, { Config.refcfg with statusFixed := 0x0080#16 },
      { Config.refcfg with statusCtrlMask := 0x0080#16 }, { Config.refcfg with configIds := [] }].any configValid = false := by
  decide

/-- Both sides of the equivalence: the reference configuration meets the constraints, one with a sample rate of 24 does not. -/
theorem witness_ConfigurationsThatBreakAConstraintTakeNoStep :
    ConfigConstraints Config.refcfg ∧ ¬ ConfigConstraints { Config.refcfg with sampleRate := 24 } :=
  ⟨(configValid_iff _).mp (by decide), fun h => absurd h.sampleRate_ge (by decide)⟩

theorem witness_RegionRowsGiveTheTranslatorsAnswer :
    [Instr.ramLow 0x3FFF#16 false false, .denied 0x7FFF#16 false true, .ioA 0xE807#16 true false, .ioB 0xE817#16 true true,
      .ioC 0xE81D#16 false false, .ioD 0xEA7F#16 false false, .winRam 0xEBFF#16 false false, .rom 0xF9B5#16 false false,
      .ramTop 0xFFFF#16 false false].all (wellFormed Config.refcfg) = true := by decide

theorem witness_TranslationIsTheFixedMap :
    (0x3FFF#16).toNat ≤ 0x3FFF ∧ (0x4000 ≤ (0x7FFF#16).toNat ∧ (0x7FFF#16).toNat ≤ 0x7FFF) ∧
    (0x8000 ≤ (0xE7FF#16).toNat ∧ (0xE7FF#16).toNat ≤ 0xE7FF) ∧ (0xE800 ≤ (0xE807#16).toNat ∧ (0xE807#16).toNat ≤ 0xE807) ∧
    (0xE808 ≤ (0xE808#16).toNat ∧ (0xE808#16).toNat ≤ 0xE80F) ∧ (0xE810 ≤ (0xE817#16).toNat ∧ (0xE817#16).toNat ≤ 0xE817) ∧
    (0xE818 ≤ (0xE819#16).toNat ∧ (0xE819#16).toNat ≤ 0xE819) ∧ (0xE81A ≤ (0xE81D#16).toNat ∧ (0xE81D#16).toNat ≤ 0xE81D) ∧
    (0xE81E ≤ (0xE81E#16).toNat ∧ (0xE81E#16).toNat ≤ 0xE9FF) ∧ (0xEA00 ≤ (0xEA7F#16).toNat ∧ (0xEA7F#16).toNat ≤ 0xEA7F) ∧
    (0xEA80 ≤ (0xEBFF#16).toNat ∧ (0xEBFF#16).toNat ≤ 0xEBFF) ∧ (0xEC00 ≤ (0xF9B5#16).toNat ∧ (0xF9B5#16).toNat ≤ 0xF9B5) ∧
    0xF9B6 ≤ (0xF9B6#16).toNat := by decide

theorem witness_MemoryReadsAnswerTheStoredBytes :
    classify (evenAddr 0x3FFF#16) = .ram 0x3FFE#16 ∧ classify (evenAddr 0xF9B5#16) = .rom 0x79B4#16 ∧
    classify 0x3FFF#16 = .ram 0x3FFF#16 ∧ classify 0x8000#16 = .rom 0#16 := by decide

theorem witness_RamWritesStoreTheirBytesAlone :
    classify (evenAddr 0xFFFF#16) = .ram 0xFFFE#16 ∧ classify 0xF9B6#16 = .ram 0xF9B6#16 := by decide

theorem witness_WordAndByteAccessesSeeOneArray : classify (evenAddr 0xFFFF#16) = .ram 0xFFFE#16 := by decide

theorem witness_DeniedAccessesAndRomWritesRaiseBusFault :
    classify (evenAddr 0x7FFF#16) = .denied ∧ classify 0x4000#16 = .denied ∧
    classify (evenAddr 0xE7FF#16) = .rom 0x67FE#16 ∧ classify 0xEC00#16 = .rom 0x6C00#16 := by decide

theorem witness_UnassignedPortsRaiseBusFault : wellFormed s0.cfg (.portUnassigned 0xEA7F#16 .readWord) = true := by decide

/-- The legal configuration that every statement about the ports supposes. -/
theorem witness_legal_configuration : configValid s0.cfg = true := by decide

/-- The odd address of the first port, and the even one of the last. -/
theorem witness_WordAccessAtAPortIsThePortOperation :
    configValid s0.cfg = true ∧ evenAddr 0xE801#16 = s0.cfg.aLcdAddr0 ∧ evenAddr 0xEA00#16 = s0.cfg.aEnvReload := by decide

theorem witness_FrameHasTheCountedEvents : configValid Config.refcfg = true := witness_legal_configuration

theorem witness_LcdAliasesAreInterchangeable :
    (1#16 = 0#16 ∨ 1#16 = 1#16) ∧ ((0xE802#16 = s0.cfg.aLcdAddr0 ∧ 0xE806#16 = s0.cfg.aLcdAddr1) ∨
      (0xE802#16 = s0.cfg.aLcdConf0 ∧ 0xE806#16 = s0.cfg.aLcdConf1)) ∧ 0xE800#16 = s0.cfg.aLcdAddr0 := by decide

theorem witness_PlainPortsReadBackWhatWasWritten : 0xEA02#16 ∈ plainPorts s0.cfg := by decide

theorem witness_PortByteAccessGoesThroughTheContainingWord :
    isIo 0xE811#16 = true ∧ portMap s0.cfg (evenAddr 0xE811#16) = some .extData := by decide

theorem witness_CommandWriteSelectsAndReachesTheSlot :
    writeTarget (ctrlDev (withControl 7#16 false).ext.control) = none ∧
    writeTarget (ctrlDev (withControl 9#16 false).ext.control) = some .s1 := by decide

theorem witness_DataReadIsRoutedByTheDeviceNibble :
    readTarget (ctrlDev (withControl 2#16 false).ext.control) = .keyboard ∧
    readTarget (ctrlDev (withControl 3#16 false).ext.control) = .nothing ∧
    readTarget (ctrlDev (withControl 1#16 false).ext.control) = .slot .s1 := by decide

theorem witness_DataWriteIsRoutedByTheDeviceNibble :
    writeTarget (ctrlDev (withControl 1#16 false).ext.control) = none ∧
    writeTarget (ctrlDev (withControl 8#16 false).ext.control) = some .s0 := by decide

theorem witness_DeviceSelectsRouteAsTheirRowsSay :
    [Instr.devSmp0Rd 1#12, .devSmp1Rd 1#12, .devKbdRd 1#12, .devSmp0Wr 1#12, .devSmp1Wr 1#12, .devNone 1#12 3#4].all
      (wellFormed s0.cfg) = true ∧
    (Instr.devNone 1#12 3#4, 3#4, ReadTarget.nothing, none) ∈
      [(Instr.devSmp0Rd 1#12, 0#4, ReadTarget.slot .s0, none), (.devSmp1Rd 1#12, 1#4, .slot .s1, none),
       (.devKbdRd 1#12, 2#4, .keyboard, none), (.devSmp0Wr 1#12, 8#4, .nothing, some SlotIx.s0),
       (.devSmp1Wr 1#12, 9#4, .nothing, some .s1), (.devNone 1#12 3#4, 3#4, .nothing, none)] := by decide

/-- No FRAME runs at power-on: what every statement about a host action supposes. -/
theorem witness_between_frames : s0.frame = none := rfl

theorem witness_KeyEventsLatchTheCodeAndInterruptOnPress : s0.frame = none := witness_between_frames

theorem witness_DetachEmptiesTheSlotAndQueryAnswers : s0.frame = none := witness_between_frames

theorem witness_FramePerformsItsEventsInOrder : s0.frame = none := witness_between_frames

theorem witness_ResetWritesTheBlocksRegistersOnly : s0.frame = none := witness_between_frames

theorem witness_SaveWritesTheSnapshotLayout : s0.frame = none := witness_between_frames

theorem witness_LoadOfASaveRestoresTheBoard : s0.frame = none ∧ { s0 with soundOn := true }.frame = none := ⟨rfl, rfl⟩

theorem witness_MaskSilencesTheControllerAndTheLatchKeeps :
    (withControl 0x20#16 false).ext.control.getLsbD 5 = true ∧
    after (fun t => t.ext.shift) [.extDataR] (withControl 0x20#16 false) = some 0xFF#8 ∧ runsCpu .extDataR = false ∧
    ctrlDev (withControl 0x20#16 false).ext.control ≠ 2#4 ∧ Instr.extDataR ≠ .reset := by decide

/-- The latch clause with the keyboard selected: an operation that reads no data port, the byte write beside the port. -/
theorem witness_MaskSilencesTheControllerAndTheLatchKeeps_keyboard :
    readsDataPort s0.cfg (.wrb 0xE812#16 7#8 false) = false ∧ readsDataPort s0.cfg (.wrb 0xE811#16 7#8 false) = true ∧
    after (fun t => t.ext.shift) [.key 5#8 false, .wrb 0xE812#16 7#8 false] (withControl 2#16 false) = some 5#8 ∧
    after (fun t => t.ext.shift) [.key 5#8 false, .wrb 0xE811#16 7#8 false] (withControl 2#16 false) = some 0xFF#8 := by
  decide

theorem witness_SlotOperationsFollowTheCommandInForce :
    s0.slot0.attached = false ∧
    (slotOf [] 0#24 0x1F#8).attached = true ∧ (slotOf [] 0#24 0x1F#8).command.extractLsb' 4 4 = 0x1#4 ∧
    (slotOf [] 0#24 0xD0#8).command.extractLsb' 4 4 = 0xD#4 ∧ (slotOf [] 0#24 0xA0#8).command.extractLsb' 4 4 = 0xA#4 ∧
    (slotOf [] 0#24 0x00#8).command.extractLsb' 4 4 ∉ [0x1#4, 0xD#4, 0xA#4] := by decide

theorem witness_CursorAssemblyShiftsDataBytesHighFirst :
    (getSlot (withSlot (slotOf [1#8] 0xABCD#24 0xA0#8)) .s0).attached = true ∧
    (getSlot (withSlot (slotOf [1#8] 0xABCD#24 0xA0#8)) .s0).command.extractLsb' 4 4 = 0xA#4 ∧
    (getSlot (withSlot (slotOf [1#8] 0xABCD#24 0xA0#8)) .s0).mask = 0xFFFF#24 := by decide

theorem witness_ReadAndAddressCommandsActAtTheCursor :
    slotOf [1#8] 0xFFFF#24 0#8 = getSlot (withSlot (slotOf [1#8] 0xFFFF#24 0#8)) .s0 ∧
    (slotOf [1#8] 0xFFFF#24 0#8).attached = true := by decide

theorem witness_ReservedAndUndefinedCommandsDoNothing :
    (slotOf [1#8] 5#24 0#8).attached = true ∧ wellFormed Config.refcfg (.smpUndef 0#4 0xF#4 .s0 .none) = true ∧
    wellFormed Config.refcfg (.smpWr20 0#4 .s0 .none) = true := by decide

theorem witness_CommandsToAnEmptySlotAreDropped : (getSlot s0 .s1).attached = false := by decide

theorem witness_CartridgeReadsBackItsImageInOrder :
    s0.frame = none ∧ (List.replicate 10240 (7#8)).length ≤ 10240 ∧ 10240 ≤ (List.replicate 10240 (7#8)).length := by
  refine ⟨rfl, ?_, ?_⟩ <;> rw [List.length_replicate]

theorem witness_ImagesChangeOnlyByAttachAndDetach :
    after (fun t => t.slot0.size) [.slotWrCmd .s0 0xD0#8] (withSlot (slotOf [1#8] 0#24 0#8)) = some 1 ∧
    changesImages (.slotWrCmd .s0 0xD0#8) = false := by decide

theorem witness_AttachReplacesTheSlotOrChangesNothing :
    (List.replicate 10240 (7#8)).length ≤ 10240 ∧ 10240 < (List.replicate 10241 (7#8)).length := by
  rw [List.length_replicate, List.length_replicate]; decide

theorem witness_PrimaryCounterStepsOnceEveryPrescalerPeriod : s0.snd.tonePre = 0#8 := rfl

theorem witness_DoSoundCallsTheCallbackWithTheGatedLevel :
    s0.soundCb = none ∧ { s0 with soundCb := some 7#16 }.soundCb = some 7#16 ∧ s0.soundOn = false ∧
    field 0x13#16 Config.refcfg.volumeLsb 2 ≠ 0 ∧ field 0x13#16 Config.refcfg.octaveLsb 3 ≠ 0 ∧
    (49#16).toNat < (100#16).toNat / 2 ∧ ¬ (50#16).toNat < (100#16).toNat / 2 ∧ { s0 with soundOn := true }.soundOn = true := by
  decide

theorem witness_ExecRunsOneExecuteOfTheCpu :
    (withScript [2#16, 4#16]).cpu.script = execAt 2#16 :: [execAt 4#16] ∧ s0.cpu.script = [] := by decide

/-- What is listed for 0 comes first. -/
theorem range_flatMap_head {α : Type} (n : Nat) (f : Nat → List α) :
    ∃ rest, (List.range (n + 1)).flatMap f = f 0 ++ rest := by
  rw [List.range_succ_eq_map, List.flatMap_cons]
  exact ⟨_, rfl⟩

/-- A frame whose first EXEC hits stops. -/
theorem witness_StoppedFramePerformsAPrefixEndingInTheHit :
    (runEvents (frameEvents (withScript [0o1006#16]).cfg) (withScript [0o1006#16])).1 = true := by
  have h : (runEvents (subtick 0 0) (withScript [0o1006#16])).1 = true := by decide
  generalize withScript [0o1006#16] = s at h ⊢
  obtain ⟨r, er⟩ := range_flatMap_head 19999 (tickEvents s.cfg)
  obtain ⟨q, eq⟩ := range_flatMap_head 15 (subtick 0)
  rw [frameEvents, frameTicks, er, tickEvents, subtickEvents, subTicks, eq, List.append_assoc, List.append_assoc,
    List.append_assoc, runEvents_append, if_pos h]
  exact h

/-- Null, the registry while it is empty, and an empty listed array. -/
theorem witness_FrameWithoutBreakpointsRunsEveryExecute :
    s0.frame = none ∧ s0.bpSet = .null ∧ breakpointSet s0 = [] ∧ breakpointSet { s0 with bpSet := .registry } = [] ∧
    breakpointSet { s0 with bpSet := .listed [] } = [] := by decide

theorem witness_LoadingReplacesRomAndCopiesIntoRam :
    (List.replicate 32768 (7#8)).length = 32768 ∧ ([] : List Byte).length ≠ 32768 ∧
    ramBankBase s0.cfg 3#16 + (List.replicate 16384 (7#8)).length ≤ 65536 ∧
    65536 < ramBankBase s0.cfg 4#16 + [7#8].length := by
  refine ⟨List.length_replicate, by decide, ?_, by decide⟩
  rw [List.length_replicate]; decide

theorem witness_HostSettersWriteTheirElementOnly : 1#16 ∈ s0.cfg.configIds ∧ 2#16 ∉ s0.cfg.configIds := by decide

theorem witness_VideoShowsRamFromTheLcdAddress :
    64576 + s0.cfg.lcdBytes ≤ 65536 ∧ 65536 < (64577#16).toNat + s0.cfg.lcdBytes := by decide

theorem witness_LoadSetsTheElementsTheImageCarries :
    (List.replicate 147456 (0#8)).length = 147456 ∧ imgWord (List.replicate 147456 0#8) 52 = 0#16 ∧
    imgWord (List.replicate 147456 1#8) 52 ≠ 0#16 ∧ ([] : List Byte).length ≠ 147456 := by
  refine ⟨List.length_replicate, ?_, ?_, by decide⟩ <;>
    simp only [imgWord, imgByte, List.getD_eq_getElem?_getD, List.getElem?_replicate] <;> decide

/-- The other clause's word: 1 at offset 52. -/
theorem witness_LoadSetsTheElementsTheImageCarries_on :
    imgWord (List.replicate 52 0#8 ++ (1#8 :: List.replicate 147403 0#8)) 52 = 1#16 := by
  have h : ∀ i, i < 2 → (List.replicate 52 0#8 ++ (1#8 :: List.replicate 147403 0#8)).getD (52 + i) 0#8 =
      (1#8 :: List.replicate 147403 0#8).getD i 0#8 := fun i _ => by
    rw [List.getD_append_right _ _ _ _ (by simp), List.length_replicate, Nat.add_sub_cancel_left]
  unfold imgWord imgByte
  rw [h 1 (by decide), show (52 : Nat) = 52 + 0 from rfl, h 0 (by decide), List.getD_cons_succ, List.getD_cons_zero,
    List.getD_eq_getElem?_getD, List.getElem?_replicate]
  decide

theorem witness_HostActionsTakeNoStepDuringAFrame :
    isHostAction .save = true ∧ isHostAction (.bpAdd .breaks 2#16) = true ∧
    { s0 with frame := some ⟨19999, 15⟩ }.frame = some ⟨19999, 15⟩ := by decide

theorem witness_RegistryAddAndRemove :
    (∀ xs tmp, (withBreaks xs tmp).frame = none) ∧
    (¬ (getArray (withBreaks (List.replicate 15 1#16) none).registry .breaks).length + 1 ≥ s0.cfg.bpN ∧
      2#16 ≠ 0xFFFF#16 ∧ 2#16 ∉ getArray (withBreaks (List.replicate 15 1#16) none).registry .breaks) ∧
    (getArray (withBreaks (List.replicate 16 1#16) none).registry .breaks).length + 1 ≥ s0.cfg.bpN ∧
    getArray (withBreaks [1#16, 2#16] none).registry .breaks = [1#16] ++ [2#16] ∧ 2#16 ∉ [1#16] ∧
    getArray (withBreaks [1#16, 2#16, 3#16] none).registry .breaks = [1#16] ++ 2#16 :: [] ++ [3#16] ∧ 3#16 ≠ 2#16 := ⟨fun _ _ => rfl, by decide⟩

theorem witness_TemporaryBreakpointAndClear :
    (∀ xs tmp, (withBreaks xs tmp).frame = none) ∧
    (5#16 ≠ 0xFFFF#16 ∧ 5#16 ∉ withoutTemp (withBreaks [1#16, 5#16] (some 5#16)).registry ∧
      (withoutTemp (withBreaks [1#16, 5#16] (some 5#16)).registry).length + 1 < s0.cfg.bpN) ∧
    1#16 ∈ withoutTemp (withBreaks [1#16, 5#16] (some 5#16)).registry ∧
    s0.cfg.bpN ≤ (withoutTemp (withBreaks (List.replicate 16 1#16) none).registry).length + 1 ∧
    (withBreaks [1#16, 5#16] (some 5#16)).registry.breaks.Nodup ∧
    after (fun t => t.registry.breaks) [.bpSetTemp 5#16, .bpSetTemp 5#16] (withBreaks [1#16, 5#16] (some 5#16)) =
      some [1#16, 5#16] := ⟨fun _ _ => rfl, by decide⟩

/-- The power-on state with a stimulus waiting meets the invariant, and its step completes. -/
theorem witness_EveryStepKeepsTheBoardInvariant :
    BoardInv (waiting ⟨.ctrl16, [2#8, 0#8]⟩) ∧
    ∃ t, step (waiting ⟨.ctrl16, [2#8, 0#8]⟩) = .next t ∧ t.ext.control = 2#16 := by
  refine ⟨⟨by decide, rfl, rfl, fun sl => ?_, fun arr => ?_, by decide, rfl⟩, ⟨_, rfl, by decide⟩⟩
  · cases sl <;> exact ⟨by decide, rfl, by decide, fun _ => rfl⟩
  · cases arr <;> exact nil_arrayOk (by decide)

theorem witness_RomAndUnreachableRamChangeOnlyByLoading :
    after (fun t => (t.rom, t.ram)) [.wrb 0x3FFF#16 7#8 false] (withRom [(0, 1#8)]) = some ([(0, 1#8)], [(0x3FFF, 7#8)]) ∧
    loadsRom (.wrb 0x3FFF#16 7#8 false) = false ∧ loadsRam (.wrb 0x3FFF#16 7#8 false) = false ∧ ¬ busReaches 0x4000 := by
  refine ⟨by decide, rfl, rfl, ?_⟩
  rintro ⟨a, h, e⟩
  have : a = 0x4000#16 := BitVec.eq_of_toNat_eq e
  subst this
  exact absurd h (by decide)

end Sys2Proof.Tests
end

/-!
PROOF. The board's invariant (R8, R23, R24, R33, R41, R44, R266, R340): what each kind of update needs in order to keep it,
then every operation, then the step.
-/
namespace Sys2Proof.Machine

/-! ### Slots and arrays -/

/-- An image that ATTACH accepts fits the small mask: SMP_MAX lies below the bound of R251. -/
theorem maskForSize_of_le {n : Nat} (h : n ≤ smpMax) : maskForSize n = 0xFFFF#24 := by
  have hmax : smpMax ≤ 65536 := by decide
  exact if_neg (by omega)

theorem Slot.attachedTo_ok {img : List Byte} (h : img.length ≤ smpMax) : SlotOk (Slot.attachedTo img) where
  size_le := h
  mask_eq := maskForSize_of_le h
  cursor_le := Nat.zero_le _
  empty_unless_attached := fun e => by cases e

theorem SlotOk.detached {x : Slot} (h : SlotOk x) : SlotOk x.detached where
  size_le := Nat.zero_le _
  mask_eq := h.mask_eq
  cursor_le := h.cursor_le
  empty_unless_attached := fun _ => rfl

theorem ArrayOk.addEntry {c : Config} {xs : List Word} (h : ArrayOk c xs) (a : Word) : ArrayOk c (addEntry c xs a) := by
  unfold Machine.addEntry
  split
  · next hm => exact addEntry_ok h hm
  · exact h

theorem ArrayOk.withoutTemp {c : Config} {r : Registry} (h : ArrayOk c r.breaks) : ArrayOk c (withoutTemp r) := by
  unfold Machine.withoutTemp
  split
  · exact removeEntry_ok h
  · exact h

theorem setTemporary_ok {c : Config} {r : Registry} (h : ∀ arr, ArrayOk c (getArray r arr)) (a : Word) (arr : BpArray) :
    ArrayOk c (getArray (setTemporary c r a) arr) := by
  have hbreaks : ArrayOk c (withoutTemp r) := (h .breaks).withoutTemp
  unfold setTemporary
  split
  · next hm =>
    cases arr with
    | breaks => exact addEntry_ok hbreaks hm
    | watches => exact h .watches
  · cases arr with
    | breaks => exact hbreaks
    | watches => exact h .watches

/-! ### The invariant under the named updates -/

/-- What every operation but the host's own writes keeps is enough for the invariant. -/
theorem BoardInv.of_execKeeps {s t : State} (h : BoardInv s) (k : ExecKeeps s t) : BoardInv t where
  config_valid := by rw [k.cfg]; exact h.config_valid
  ram_wf := k.ram_wf h.ram_wf
  rom_wf := by rw [k.rom]; exact h.rom_wf
  slot_ok := fun sl => (k.slot sl).ok (h.slot_ok sl)
  array_ok := fun arr => by rw [k.cfg, k.registry]; exact h.array_ok arr
  tonePre_le := k.tonePre h.tonePre_le
  no_frame := k.no_frame h.no_frame

theorem BoardInv.answered {s : State} (h : BoardInv s) (a : Answer) : BoardInv (answered a s) :=
  h.of_execKeeps (answered_keeps a s).exec

theorem BoardInv.emit {s : State} (h : BoardInv s) (g : Signal) : BoardInv (emit g s) :=
  h.of_execKeeps (emit_keeps g s).exec

theorem BoardInv.drawn {s : State} (h : BoardInv s) : BoardInv (drawn s) :=
  h.of_execKeeps (drawn_keeps s).exec

theorem BoardInv.consumed {s : State} (h : BoardInv s) : BoardInv (consumed s) := { h with }

theorem BoardInv.setCpuPc {s : State} (h : BoardInv s) (v : Word) : BoardInv (setCpuPc v s) :=
  h.of_execKeeps ⟨setCpuPc_keeps v s, id⟩

theorem BoardInv.boardReset {s : State} (h : BoardInv s) : BoardInv (boardReset s) := by
  have hblock : BoardInv (blockReset s) := { h with tonePre_le := Nat.zero_le _ }
  have hcpu (x : Cpu) : BoardInv { blockReset s with cpu := x } := { hblock with }
  exact ((hcpu _).emit _).drawn

/-- The elements of the host's setters (R323 to R326) are under no constraint of the invariant. -/
theorem BoardInv.setHostElements {s : State} (h : BoardInv s) (w : Word) (on : Bool) (cb : Option Word) (set : BpRef) :
    BoardInv { s with config := w, soundOn := on, soundCb := cb, bpSet := set } := { h with }

theorem BoardInv.setConfigId {s : State} (h : BoardInv s) (id : Word) : BoardInv (setConfigId id s) := by
  unfold Machine.setConfigId
  split
  · exact h.setHostElements _ _ _ _
  · exact (h.setHostElements _ _ _ _).drawn

theorem BoardInv.loadRomImage {s : State} {img : List Byte} (h : BoardInv s) (hl : img.length = romSize) :
    BoardInv (loadRomImage img s) :=
  { h with rom_wf := Memory.wf_ofBytes hl.le }

theorem BoardInv.loadRamBytes {s : State} {base : Nat} {buf : List Byte} (h : BoardInv s)
    (hl : base + buf.length ≤ ramSize) : BoardInv (loadRamBytes base buf s) :=
  { h with ram_wf := Memory.wf_setBytes h.ram_wf hl }

theorem BoardInv.loadSnapshot {s : State} (h : BoardInv s) (img : List Byte) : BoardInv (loadSnapshot img s) :=
  { h with
    ram_wf := Memory.wf_ofBytes (List.length_take_le _ _)
    rom_wf := Memory.wf_ofBytes (List.length_take_le _ _) }

theorem BoardInv.setSlot {s : State} {x : Slot} (h : BoardInv s) (sl : SlotIx) (hx : SlotOk x) :
    BoardInv (setSlot sl x s) where
  config_valid := by rw [setSlot_cfg]; exact h.config_valid
  ram_wf := by rw [setSlot_ram]; exact h.ram_wf
  rom_wf := by rw [setSlot_rom]; exact h.rom_wf
  slot_ok := fun sl' => by
    rw [getSlot_setSlot_eq]
    split
    · exact hx
    · exact h.slot_ok sl'
  array_ok := by rw [setSlot_cfg, setSlot_registry]; exact h.array_ok
  tonePre_le := by rw [setSlot_snd]; exact h.tonePre_le
  no_frame := by rw [setSlot_frame]; exact h.no_frame

theorem BoardInv.attachSlot {s : State} (h : BoardInv s) (sl : SlotIx) (img : Option (List Byte)) :
    BoardInv (attachSlot sl img s) := by
  unfold Machine.attachSlot
  split
  · exact h.answered _
  · split
    · exact h.answered _
    · next hle => exact (h.setSlot sl (Slot.attachedTo_ok (Nat.le_of_not_lt hle))).answered _

/-- Only the registry's two arrays are under the invariant; the record of the temporary breakpoint is free. -/
theorem BoardInv.setRegistry {s : State} {r : Registry} (h : BoardInv s) (hr : ∀ arr, ArrayOk s.cfg (getArray r arr)) :
    BoardInv { s with registry := r } :=
  { h with array_ok := hr }

theorem BoardInv.setArray {s : State} {xs : List Word} (h : BoardInv s) (arr : BpArray) (hx : ArrayOk s.cfg xs) :
    BoardInv (setArray arr xs s) := by
  have harrays (arr' : BpArray) : ArrayOk s.cfg (getArray (Machine.setArray arr xs s).registry arr') := by
    rw [getArray_setArray_eq]
    split
    · exact hx
    · exact h.array_ok arr'
  cases arr <;> exact h.setRegistry harrays

theorem BoardInv.clearArray {s : State} (h : BoardInv s) (arr : BpArray) : BoardInv (clearArray arr s) := by
  have harrays (arr' : BpArray) : ArrayOk s.cfg (getArray (Machine.clearArray arr s).registry arr') := by
    rw [getArray_clearArray]
    split
    · exact nil_arrayOk h.config_valid
    · exact h.array_ok arr'
  cases arr <;> exact h.setRegistry harrays

/-! ### Operations -/

/-- A completed host action answers the state it was given. -/
theorem BoardInv.of_hostAction {s t u : State} (e : hostAction s t = .next u) (h : BoardInv t) : BoardInv u :=
  (hostAction_next.mp e).2 ▸ h

/-- When a host action with a condition on its operands completes, the condition holds, no FRAME runs and the next state is
the one given. -/
theorem guardedHostAction_next {p : Prop} [Decidable p] {s t u : State} {r : Refusal} :
    (if p then hostAction s t else .refused r) = .next u ↔ p ∧ s.frame = none ∧ t = u := by
  split
  · next hp => rw [hostAction_next, and_iff_right hp]
  · next hp => exact ⟨fun h => (by cases h), fun h => absurd h.1 hp⟩

/-- Every operation with which the host writes state of its own keeps the invariant. -/
theorem BoardInv.exec_hostWrites {i : Instr} {s t : State} (hs : BoardInv s) (hw : hostWrites i = true)
    (h : exec i s = .next t) : BoardInv t := by
  cases i
  all_goals cases hw
  case reset => exact .of_hostAction h (hs.boardReset.answered _)
  case loadRom img =>
    obtain ⟨hl, -, rfl⟩ := guardedHostAction_next.mp h
    exact (hs.loadRomImage hl).answered _
  case loadRam bank buf =>
    obtain ⟨hl, -, rfl⟩ := guardedHostAction_next.mp h
    exact (hs.loadRamBytes hl).answered _
  case load img =>
    obtain ⟨-, -, rfl⟩ := guardedHostAction_next.mp h
    exact ((hs.loadSnapshot img).emit _).answered _
  case setConfig id => exact .of_hostAction h ((hs.setConfigId id).answered _)
  case attach sl img => exact .of_hostAction h (hs.attachSlot sl img)
  case detach sl => exact .of_hostAction h ((hs.setSlot sl (hs.slot_ok sl).detached).answered _)
  case setSoundCb cb => exact .of_hostAction h ((hs.setHostElements _ _ _ _).answered _)
  case setSound on => exact .of_hostAction h ((hs.setHostElements _ _ _ _).answered _)
  case setBp set => exact .of_hostAction h ((hs.setHostElements _ _ _ _).answered _)
  case bpAdd arr a => exact .of_hostAction h ((hs.setArray arr ((hs.array_ok arr).addEntry a)).answered _)
  case bpRemove arr a => exact .of_hostAction h ((hs.setArray arr (removeEntry_ok (hs.array_ok arr))).answered _)
  case bpSetTemp a => exact .of_hostAction h ((hs.setRegistry (setTemporary_ok hs.array_ok a)).answered _)
  case bpClearAll arr => exact .of_hostAction h ((hs.clearArray arr).answered _)

theorem BoardInv.exec {i : Instr} {s t : State} (hs : BoardInv s) (h : exec i s = .next t) : BoardInv t := by
  cases hw : hostWrites i with
  | false => exact hs.of_execKeeps (exec_keeps hw h)
  | true => exact hs.exec_hostWrites hw h

/-- Settles O58: a completed step takes the stimulus and then runs an operation or the host's `CPU.SetPC`. -/
theorem everyStepKeepsTheBoardInvariant : Obligations.EveryStepKeepsTheBoardInvariant := by
  intro s t hs hstep
  obtain ⟨-, st, rest, -, ⟨i, -, -, hexec⟩ | ⟨v, -, hpc⟩⟩ := step_next hstep
  · exact hs.consumed.exec hexec
  · obtain ⟨-, rfl⟩ := hostSetPc_next.mp hpc
    exact (hs.consumed.setCpuPc v).answered _

end Sys2Proof.Machine

/-!
PROOF. The step (R8, R14, R85): what an operation can refuse, that a configuration is refused by the step alone, and that
the step runs what the oldest stimulus decodes to.
-/
namespace Sys2Proof.Machine

/-! ### Refusals -/

/-- An operation that is no host action completes in every state. -/
theorem exec_completes {i : Instr} (hi : isHostAction i = false) (s : State) : ∃ t, exec i s = .next t := by
  cases i
  all_goals cases hi
  all_goals exact ⟨_, rfl⟩

/-- The refusals of a host action for its operands (R321, R322, R327, R352). -/
def operandRefusals : List Refusal := [.badRomLength, .ramPastEnd, .videoPastEnd, .badSnapshotLength]

theorem guardedHostAction_cases {p : Prop} [Decidable p] {s t : State} {r : Refusal} (hr : r ∈ operandRefusals) :
    (∃ u, (if p then hostAction s t else .refused r) = hostAction s u) ∨
    ∃ q ∈ operandRefusals, (if p then hostAction s t else .refused r) = .refused q := by
  split
  · exact .inl ⟨t, rfl⟩
  · exact .inr ⟨r, hr, rfl⟩

/-- A host action is taken between frames, unless its operands are refused. -/
theorem exec_of_isHostAction {i : Instr} (hi : isHostAction i = true) (s : State) :
    (∃ t, exec i s = hostAction s t) ∨ ∃ r ∈ operandRefusals, exec i s = .refused r := by
  cases i
  all_goals cases hi
  case loadRom img => exact guardedHostAction_cases (by decide)
  case loadRam bank buf => exact guardedHostAction_cases (by decide)
  case load img => exact guardedHostAction_cases (by decide)
  case video => exact guardedHostAction_cases (by decide)
  all_goals exact .inl ⟨_, rfl⟩

theorem hostAction_refused {s t : State} {r : Refusal} (h : hostAction s t = .refused r) : r = .hostOverlap := by
  unfold hostAction at h
  split at h <;> cases h
  rfl

/-- All that an operation can refuse: an overlap with a FRAME, or its operands. -/
theorem exec_refused {i : Instr} {s : State} {r : Refusal} (h : exec i s = .refused r) :
    r = .hostOverlap ∨ r ∈ operandRefusals := by
  cases hi : isHostAction i with
  | false =>
    obtain ⟨t, ht⟩ := exec_completes hi s
    cases ht.symm.trans h
  | true =>
    obtain ⟨t, ht⟩ | ⟨q, hq, ht⟩ := exec_of_isHostAction hi s
    · exact .inl (hostAction_refused (ht.symm.trans h))
    · cases ht.symm.trans h
      exact .inr hq

theorem runDecoded_instr {i : Instr} {s : State} (hw : wellFormed s.cfg i = true) :
    runDecoded (.instr i) s = exec i s := if_pos hw

theorem runDecoded_illFormed {i : Instr} {s : State} (hw : ¬ wellFormed s.cfg i = true) :
    runDecoded (.instr i) s = .refused .illFormed := if_neg hw

/-- No decoded stimulus is refused for the configuration. -/
theorem runDecoded_ne_badConfiguration (d : Decoded) (s : State) : runDecoded d s ≠ .refused .badConfiguration := by
  intro h
  cases d with
  | reject why => cases h
  | setPc v =>
    have hpc : hostSetPc v s = .refused .badConfiguration := h
    cases hostAction_refused hpc
  | instr i =>
    by_cases hw : wellFormed s.cfg i = true
    · exact (exec_refused ((runDecoded_instr hw).symm.trans h)).elim (by decide) (by decide)
    · cases (runDecoded_illFormed hw).symm.trans h

/-! ### The step by its cases -/

/-- With a legal configuration and a stimulus waiting, the step runs what that stimulus decodes to, at the state that has
taken it. -/
theorem step_of_inbox {s : State} {st : Stimulus} {rest : List Stimulus} (hc : configValid s.cfg = true)
    (hin : s.inbox = st :: rest) : step s = runDecoded (decode s.cfg st) { s with inbox := rest } := by
  simp only [step, hc, if_true, hin, consumed, List.tail_cons]

theorem step_of_inbox_nil {s : State} (hc : configValid s.cfg = true) (hin : s.inbox = []) :
    step s = .refused .noStimulus := by
  simp only [step, hc, if_true, hin]

/-- The check of the configuration is the step's own: nothing after it refuses for the same reason. -/
theorem step_badConfiguration_iff (s : State) : step s = .refused .badConfiguration ↔ ¬ configValid s.cfg = true := by
  constructor
  · intro h hc
    cases hin : s.inbox with
    | nil => cases (step_of_inbox_nil hc hin).symm.trans h
    | cons st rest => exact runDecoded_ne_badConfiguration _ _ ((step_of_inbox hc hin).symm.trans h)
  · intro hc
    exact if_neg hc

/-- Settles O5: the step refuses by its check, and the check says what R8's last column says. -/
theorem configurationsThatBreakAConstraintTakeNoStep : Obligations.ConfigurationsThatBreakAConstraintTakeNoStep := by
  intro s
  rw [step_badConfiguration_iff, configValid_iff]

/-- Settles O4: the step by its cases; `CPU.SetPC` is a host action. -/
theorem stepRunsTheDecodedOperation : Obligations.StepRunsTheDecodedOperation := by
  intro s st rest hc hin
  have hstep := step_of_inbox hc hin
  constructor
  · intro i hd hw
    rw [hstep, hd]
    exact runDecoded_instr hw
  · rintro v rfl
    have hpc : step s = hostSetPc v { s with inbox := rest } :=
      hstep.trans (congrArg (runDecoded · _) (decode_encodeSetPc s.cfg v))
    exact ⟨fun hf => hpc.trans (hostAction_of_none hf), fun p hf => hpc.trans (hostAction_of_some hf)⟩

end Sys2Proof.Machine

/-!
PROOF. The configuration and the memories (R22, R23, R24, R72): transactions and the events of a frame leave what
`RunKeeps` lists, and of the host's own writes only the loads write a memory.
-/
namespace Sys2Proof.Machine

/-- Whether ATTACH takes the image or refuses it, it writes nothing but its slot and the answer. -/
theorem attachSlot_eq_setSlot (sl : SlotIx) (img : Option (List Byte)) (s : State) :
    ∃ a x, attachSlot sl img s = answered a (setSlot sl x s) := by
  have hkept : answered (.bool false) s = answered (.bool false) (setSlot sl (getSlot s sl) s) := by rw [setSlot_getSlot]
  unfold attachSlot
  split
  · exact ⟨_, _, hkept⟩
  · split
    · exact ⟨_, _, hkept⟩
    · exact ⟨_, _, rfl⟩

/-- The configuration is kept, and so is each memory that the operation does not load. -/
structure KeepsUnloaded (i : Instr) (s t : State) : Prop where
  cfg : t.cfg = s.cfg
  rom : loadsRom i = false → t.rom = s.rom
  ram : loadsRam i = false → t.ram = s.ram

/-- A completed host action that writes neither the configuration nor a memory. -/
theorem KeepsUnloaded.of_hostAction {i : Instr} {s t u : State} (e : hostAction s t = .next u) (hcfg : t.cfg = s.cfg)
    (hrom : t.rom = s.rom) (hram : t.ram = s.ram) : KeepsUnloaded i s u := by
  obtain ⟨-, rfl⟩ := hostAction_next.mp e
  exact ⟨hcfg, fun _ => hrom, fun _ => hram⟩

/-- Of the operations with which the host writes state of its own, LOADROM, LOADRAM and LOAD alone write a memory. -/
theorem exec_hostWrites_keepsUnloaded {i : Instr} {s t : State} (hw : hostWrites i = true) (h : exec i s = .next t) :
    KeepsUnloaded i s t := by
  cases i
  all_goals cases hw
  case loadRom img =>
    obtain ⟨-, -, rfl⟩ := guardedHostAction_next.mp h
    exact ⟨rfl, nofun, fun _ => rfl⟩
  case loadRam bank buf =>
    obtain ⟨-, -, rfl⟩ := guardedHostAction_next.mp h
    exact ⟨rfl, fun _ => rfl, nofun⟩
  case load img =>
    obtain ⟨-, -, rfl⟩ := guardedHostAction_next.mp h
    exact ⟨rfl, nofun, nofun⟩
  case setConfig id => exact .of_hostAction h (setConfigId_cfg id s) (setConfigId_rom id s) (setConfigId_ram id s)
  case attach sl img =>
    obtain ⟨a, x, hx⟩ := attachSlot_eq_setSlot sl img s
    exact .of_hostAction h (by simp [hx]) (by simp [hx]) (by simp [hx])
  case detach sl => exact .of_hostAction h (setSlot_cfg sl _ s) (setSlot_rom sl _ s) (setSlot_ram sl _ s)
  case bpAdd arr a => exact .of_hostAction h (setArray_cfg arr _ s) (setArray_rom arr _ s) (setArray_ram arr _ s)
  case bpRemove arr a => exact .of_hostAction h (setArray_cfg arr _ s) (setArray_rom arr _ s) (setArray_ram arr _ s)
  case bpClearAll arr => exact .of_hostAction h (clearArray_cfg arr s) (clearArray_rom arr s) (clearArray_ram arr s)
  all_goals exact .of_hostAction h rfl rfl rfl

/-- Settles O60: the CPU and the scheduler keep ROM and the RAM out of the bus's reach, and of the host's own writes only
the loads touch a memory. -/
theorem romAndUnreachableRamChangeOnlyByLoading : Obligations.RomAndUnreachableRamChangeOnlyByLoading := by
  intro i s t h
  cases hw : hostWrites i with
  | false =>
    have hkeeps := exec_keeps hw h
    exact ⟨hkeeps.cfg, fun _ => hkeeps.rom, fun k _ hk => hkeeps.ram_unreached k hk⟩
  | true =>
    have hkeeps := exec_hostWrites_keepsUnloaded hw h
    exact ⟨hkeeps.cfg, hkeeps.rom, fun k hram _ => congrArg (Memory.byteAt Config.ramPowerOn · k) (hkeeps.ram hram)⟩

end Sys2Proof.Machine

/-!
PROOF. Memory (R75, R76, R87, R433): what a transaction at RAM does to the one array of bytes, the region of a word's two
bytes, and the host actions during a FRAME.
-/
namespace Sys2Proof.Machine

/-! ### The bytes of RAM after an update -/

@[simp] theorem ramByte_answered (a : Answer) (s : State) (i : Nat) : ramByte (answered a s) i = ramByte s i := rfl

theorem ramByte_setRamByte (k : Nat) (b : Byte) (s : State) (i : Nat) :
    ramByte (setRamByte k b s) i = if i = k then b else ramByte s i := by
  simp only [ramByte, setRamByte_ram, Memory.byteAt_set, eq_comm (a := k)]

@[simp] theorem ramByte_setRamWord_low (o : Nat) (v : Word) (s : State) : ramByte (setRamWord o v s) o = lo8 v := by
  simp [setRamWord, ramByte_setRamByte]

@[simp] theorem ramByte_setRamWord_high (o : Nat) (v : Word) (s : State) :
    ramByte (setRamWord o v s) (o + 1) = hi8 v := by
  simp [setRamWord, ramByte_setRamByte]

/-- A byte stored at the odd index of a word is its high byte, and the low byte stays (R74). -/
theorem ramWord_setRamByte_high (o : Nat) (y : Byte) (s : State) :
    ramWord (setRamByte (o + 1) y s) o = word16 y (ramByte s o) := by
  simp [ramWord, ramByte_setRamByte]

/-! ### Transactions at RAM (R143 to R146) -/

theorem exec_rdw_ram {a o : Word} (h : classify (evenAddr a) = .ram o) (halt : Bool) (s : State) :
    exec (.rdw a halt) s = .next (answered (.word (ramWord s o.toNat)) s) := by
  have hread : busReadWord a halt false s = (some (ramWord s o.toNat), s) := by rw [busReadWord, translateAddr, h]
  exact congrArg (Host.Outcome.next ∘ answerWord) hread

theorem exec_rdb_ram {a o : Word} (h : classify a = .ram o) (halt : Bool) (s : State) :
    exec (.rdb a halt) s = .next (answered (.byte (ramByte s o.toNat)) s) := by
  have hread : busReadByte a halt s = (some (ramByte s o.toNat), s) := by rw [busReadByte, translateAddr, h]
  exact congrArg (Host.Outcome.next ∘ answerByte) hread

theorem exec_wrw_ram {a o : Word} (h : classify (evenAddr a) = .ram o) (v : Word) (halt : Bool) (s : State) :
    exec (.wrw a v halt) s = .next (answered .done (setRamWord o.toNat v s)) := by
  have hwrite : busWriteWord a v halt s = (true, setRamWord o.toNat v s) := by rw [busWriteWord, translateAddr, h]
  exact congrArg (Host.Outcome.next ∘ answerWrite) hwrite

theorem exec_wrb_ram {a o : Word} (h : classify a = .ram o) (b : Byte) (halt : Bool) (s : State) :
    exec (.wrb a b halt) s = .next (answered .done (setRamByte o.toNat b s)) := by
  have hwrite : busWriteByte a b halt s = (true, setRamByte o.toNat b s) := by rw [busWriteByte, translateAddr, h]
  exact congrArg (Host.Outcome.next ∘ answerWrite) hwrite

/-! ### The region of a word -/

/-- The next address of an even one is of the same kind. -/
theorem placeKind_classify_succ {e : Word} (h : e.getLsbD 0 = false) :
    placeKind (classify (e + 1#16)) = placeKind (classify e) := by
  have hsucc := classify_succ h
  cases hc : classify e with
  | ram o => rw [hc] at hsucc; rw [hsucc.1]; rfl
  | rom o => rw [hc] at hsucc; rw [hsucc.1]; rfl
  | io o => rw [hc] at hsucc; rw [hsucc]; rfl
  | denied => rw [hc] at hsucc; rw [hsucc]

/-- An address and the even address of its word are of one kind. -/
theorem placeKind_classify_evenAddr (a : Word) : placeKind (classify (evenAddr a)) = placeKind (classify a) := by
  cases hodd : a.getLsbD 0 with
  | false => rw [evenAddr_of_even hodd]
  | true =>
    have hsucc := placeKind_classify_succ (evenAddr_even a)
    rw [evenAddr_succ_of_odd hodd] at hsucc
    exact hsucc.symm

/-! ### Runs of operations -/

/-- A run goes on from the state after its first operation. -/
theorem runInstrs_cons {i : Instr} {s t : State} (h : exec i s = .next t) (is : List Instr) :
    runInstrs (i :: is) s = runInstrs is t := by
  rw [runInstrs, h]

/-- A run whose last operation answers `a`. -/
theorem runInstrs_last {i : Instr} {s t : State} {a : Answer} (h : exec i s = .next (answered a t)) :
    ∃ u, runInstrs [i] s = some u ∧ u.out.answer = a :=
  ⟨_, runInstrs_cons h [], rfl⟩

/-- After a word write, a byte read at either address of the word answers the byte now in the array. -/
theorem runInstrs_wrw_rdb {a e o p : Word} (h : classify (evenAddr a) = .ram o) (he : classify e = .ram p) (v : Word)
    (halt : Bool) (s : State) : ∃ t, runInstrs [.wrw a v halt, .rdb e halt] s = some t ∧
      t.out.answer = .byte (ramByte (setRamWord o.toNat v s) p.toNat) := by
  rw [runInstrs_cons (exec_wrw_ram h v halt s)]
  exact runInstrs_last (exec_rdb_ram he halt _)

/-- After a byte write at each of a word's addresses, the word read answers the word now in the array. -/
theorem runInstrs_wrb_wrb_rdw {a e f o p q : Word} (h : classify (evenAddr a) = .ram o) (he : classify e = .ram p)
    (hf : classify f = .ram q) (x y : Byte) (halt : Bool) (s : State) :
    ∃ t, runInstrs [.wrb e x halt, .wrb f y halt, .rdw a halt] s = some t ∧
      t.out.answer = .word (ramWord (setRamByte q.toNat y (answered .done (setRamByte p.toNat x s))) o.toNat) := by
  rw [runInstrs_cons (exec_wrb_ram he x halt s), runInstrs_cons (exec_wrb_ram hf y halt _)]
  exact runInstrs_last (exec_rdw_ram h halt _)

/-- Settles O11: both addresses of a word are of one kind, and in RAM they index neighbouring bytes of the one array. -/
theorem wordAndByteAccessesSeeOneArray : Obligations.WordAndByteAccessesSeeOneArray := by
  intro a
  have hkind := placeKind_classify_evenAddr a
  refine ⟨⟨hkind, (placeKind_classify_succ (evenAddr_even a)).trans hkind⟩, fun o v x y halt s h => ?_⟩
  obtain ⟨hsucc, hindex⟩ := classify_even_succ h
  refine ⟨?_, ?_, ?_⟩
  · have hrun := runInstrs_wrw_rdb h h v halt s
    rwa [ramByte_setRamWord_low] at hrun
  · have hrun := runInstrs_wrw_rdb h hsucc v halt s
    rwa [hindex, ramByte_setRamWord_high] at hrun
  · have hrun := runInstrs_wrb_wrb_rdw h h hsucc x y halt s
    rwa [hindex, ramWord_setRamByte_high, ramByte_answered, ramByte_setRamByte, if_pos rfl] at hrun

/-! ### Host actions during a FRAME -/

/-- Settles O55: a host action is refused for its operands, or else for the overlap with the FRAME. -/
theorem hostActionsTakeNoStepDuringAFrame : Obligations.HostActionsTakeNoStepDuringAFrame := by
  intro i s p hi hf
  obtain ⟨t, ht⟩ | ⟨r, -, hr⟩ := exec_of_isHostAction hi s
  · exact ⟨.hostOverlap, ht.trans (hostAction_of_some hf)⟩
  · exact ⟨r, hr⟩

end Sys2Proof.Machine

/-!
PROOF. The decoder and the encoder agree (R100 to R108). Format by format: what the decoder reads from the encoder's bytes,
and that outside format PORT, where bit 0 of an assigned address is ignored, it reads from no others.
-/
namespace Sys2Proof
open Machine

/-- The operation is one the spec admits, and the stimulus is its encoding. -/
structure Encodes (c : Config) (i : Instr) (st : Stimulus) : Prop where
  wellFormed : wellFormed c i = true
  encode : encode c i = st

/-! ### Operand bytes, read backwards -/

theorem boolOfByte_eq_some {b : Byte} {x : Bool} : boolOfByte b = some x ↔ b = boolByte x := by
  refine ⟨fun h => ?_, fun h => h ▸ boolOfByte_boolByte x⟩
  unfold boolOfByte at h
  split_ifs at h with h0 h1
  · cases h; exact h0
  · cases h; exact h1

theorem slotOfByte_eq_some {b : Byte} {sl : SlotIx} : slotOfByte b = some sl ↔ b = slotByte sl := by
  refine ⟨fun h => ?_, fun h => h ▸ slotOfByte_slotByte sl⟩
  unfold slotOfByte at h
  split_ifs at h with h0 h1
  · cases h; exact h0
  · cases h; exact h1

theorem arrayOfByte_eq_some {b : Byte} {arr : BpArray} : arrayOfByte b = some arr ↔ b = arrayByte arr := by
  refine ⟨fun h => ?_, fun h => h ▸ arrayOfByte_arrayByte arr⟩
  unfold arrayOfByte at h
  split_ifs at h with h0 h1
  · cases h; exact h0
  · cases h; exact h1

theorem bytesOfWords_of_wordsOfBytes {bs : List Byte} {ws : List Word} (h : wordsOfBytes bs = some ws) :
    bytesOfWords ws = bs := by
  induction bs using wordsOfBytes.induct generalizing ws with
  | case1 => cases h; rfl
  | case2 => cases h
  | case3 l h' bs ws' hws ih =>
    simp only [wordsOfBytes, hws, Option.some.injEq] at h
    subst h
    simp [bytesOfWords, ih hws]
  | case4 l h' bs hws => simp [wordsOfBytes, hws] at h

theorem wordsOfBytes_eq_some {bs : List Byte} {ws : List Word} : wordsOfBytes bs = some ws ↔ bs = bytesOfWords ws :=
  ⟨fun h => (bytesOfWords_of_wordsOfBytes h).symm, fun h => h ▸ wordsOfBytes_bytesOfWords ws⟩

theorem flagByte_getLsbD {f : Byte} (h : f.toNat < 4) : flagByte (f.getLsbD 0) (f.getLsbD 1) = f := by
  have small : ∀ n < 4, flagByte ((BitVec.ofNat 8 n).getLsbD 0) ((BitVec.ofNat 8 n).getLsbD 1) = BitVec.ofNat 8 n := by
    decide
  simpa using small f.toNat h

theorem ofOption_eq_instr {o : Option Instr} {i : Instr} : ofOption o = .instr i ↔ o = some i := by
  cases o <;> simp [ofOption]

/-- An instruction whose operand bytes are under a condition. -/
theorem guarded_eq_instr {p : Prop} [Decidable p] {i j : Instr} {why : Reject} :
    (if p then .instr j else .reject why) = Decoded.instr i ↔ p ∧ j = i := by
  split
  · next hp => simp [hp]
  · next hp => simp [hp]

theorem ofOption_map_eq_instr {α : Type} {o : Option α} {f : α → Instr} {i : Instr} :
    ofOption (o.map f) = .instr i ↔ ∃ x, o = some x ∧ f x = i := by
  rw [ofOption_eq_instr, Option.map_eq_some_iff]

/-! ### Events (R108, R120): each operand decoder reads exactly the encoder's bytes -/

theorem decodeNoOperand_eq_instr {i j : Instr} {bs : List Byte} :
    decodeNoOperand j bs = .instr i ↔ bs = [] ∧ j = i := by
  cases bs <;> simp [decodeNoOperand]

theorem decodeSlot_eq_instr {f : SlotIx → Instr} {bs : List Byte} {i : Instr} :
    decodeSlot f bs = .instr i ↔ ∃ sl, bs = [slotByte sl] ∧ f sl = i := by
  unfold decodeSlot
  split
  · simp [ofOption_map_eq_instr, slotOfByte_eq_some]
  · next hne => exact ⟨nofun, fun ⟨_, hbs, _⟩ => (hne _ hbs).elim⟩

theorem decodeSlotByte_eq_instr {f : SlotIx → Byte → Instr} {bs : List Byte} {i : Instr} :
    decodeSlotByte f bs = .instr i ↔ ∃ sl b, bs = [slotByte sl, b] ∧ f sl b = i := by
  unfold decodeSlotByte
  split
  · simp [ofOption_map_eq_instr, slotOfByte_eq_some]
  · next hne => exact ⟨nofun, fun ⟨_, _, hbs, _⟩ => (hne _ _ hbs).elim⟩

/-- Two bytes are the bytes of one word, low byte first (R74). -/
theorem pair_eq_bytes_iff {l h : Byte} {w : Word} : l = lo8 w ∧ h = hi8 w ↔ word16 h l = w :=
  ⟨fun ⟨hl, hh⟩ => by simp [hl, hh], fun e => by simp [← e]⟩

theorem decodeWord_eq_instr {f : Word → Instr} {bs : List Byte} {i : Instr} :
    decodeWord f bs = .instr i ↔ ∃ w, bs = [lo8 w, hi8 w] ∧ f w = i := by
  unfold decodeWord
  split
  · simp [pair_eq_bytes_iff]
  · next hne => exact ⟨nofun, fun ⟨_, hbs, _⟩ => (hne _ _ hbs).elim⟩

theorem decodeLoadRam_eq_instr {bs : List Byte} {i : Instr} :
    decodeLoadRam bs = .instr i ↔ ∃ bank buf, bs = lo8 bank :: hi8 bank :: buf ∧ .loadRam bank buf = i := by
  unfold decodeLoadRam
  split
  · simp [← and_assoc, pair_eq_bytes_iff]
  · next hne => exact ⟨nofun, fun ⟨_, _, hbs, _⟩ => (hne _ _ _ hbs).elim⟩

theorem decodeKey_eq_instr {bs : List Byte} {i : Instr} :
    decodeKey bs = .instr i ↔ ∃ sc p, bs = [sc, boolByte p] ∧ .key sc p = i := by
  unfold decodeKey
  split
  · simp [ofOption_map_eq_instr, boolOfByte_eq_some, -Bool.exists_bool]
  · next hne => exact ⟨nofun, fun ⟨_, _, hbs, _⟩ => (hne _ _ hbs).elim⟩

theorem decodeSetSound_eq_instr {bs : List Byte} {i : Instr} :
    decodeSetSound bs = .instr i ↔ ∃ on, bs = [boolByte on] ∧ .setSound on = i := by
  unfold decodeSetSound
  split
  · simp [ofOption_map_eq_instr, boolOfByte_eq_some]
  · next hne => exact ⟨nofun, fun ⟨_, hbs, _⟩ => (hne _ hbs).elim⟩

theorem decodeArrayWord_eq_instr {f : BpArray → Word → Instr} {bs : List Byte} {i : Instr} :
    decodeArrayWord f bs = .instr i ↔ ∃ arr a, bs = [arrayByte arr, lo8 a, hi8 a] ∧ f arr a = i := by
  unfold decodeArrayWord
  split
  · simp [ofOption_map_eq_instr, arrayOfByte_eq_some, pair_eq_bytes_iff]
  · next hne => exact ⟨nofun, fun ⟨_, _, hbs, _⟩ => (hne _ _ _ hbs).elim⟩

theorem decodeArray_eq_instr {f : BpArray → Instr} {bs : List Byte} {i : Instr} :
    decodeArray f bs = .instr i ↔ ∃ arr, bs = [arrayByte arr] ∧ f arr = i := by
  unfold decodeArray
  split
  · simp [ofOption_map_eq_instr, arrayOfByte_eq_some]
  · next hne => exact ⟨nofun, fun ⟨_, hbs, _⟩ => (hne _ hbs).elim⟩

theorem decodeAttach_eq_instr {bs : List Byte} {i : Instr} :
    decodeAttach bs = .instr i ↔ ∃ sl img, bs = slotByte sl :: encImage img ∧ .attach sl img = i := by
  constructor
  · intro h
    unfold decodeAttach at h
    split at h
    · next s k img =>
      split at h
      · cases h
      · next sl hs =>
        obtain rfl := slotOfByte_eq_some.mp hs
        split_ifs at h with h1 h0
        · cases h; exact ⟨sl, some img, by rw [h1]; rfl, rfl⟩
        · cases h; exact ⟨sl, none, by rw [h0.1, h0.2]; rfl, rfl⟩
    · cases h
  · rintro ⟨sl, img, rfl, rfl⟩
    cases img <;> simp [decodeAttach, encImage]

theorem decodeSoundCb_eq_instr {bs : List Byte} {i : Instr} :
    decodeSoundCb bs = .instr i ↔ ∃ cb, bs = encSoundCb cb ∧ .setSoundCb cb = i := by
  constructor
  · intro h
    unfold decodeSoundCb at h
    split at h
    · split_ifs at h with h0
      cases h; exact ⟨none, by rw [h0]; rfl, rfl⟩
    · next k l h' =>
      split_ifs at h with h1
      cases h; exact ⟨some (word16 h' l), by simp [encSoundCb, h1], rfl⟩
    · cases h
  · rintro ⟨cb, rfl, rfl⟩
    cases cb <;> simp [decodeSoundCb, encSoundCb]

theorem decodeSetBp_eq_instr {bs : List Byte} {i : Instr} :
    decodeSetBp bs = .instr i ↔ ∃ set, bs = encBpRef set ∧ .setBp set = i := by
  constructor
  · intro h
    unfold decodeSetBp at h
    split at h
    · next k bs =>
      split_ifs at h with h0 h1 h2
      · cases h; exact ⟨.null, by rw [h0.1, h0.2]; rfl, rfl⟩
      · cases h; exact ⟨.registry, by rw [h1.1, h1.2]; rfl, rfl⟩
      · obtain ⟨ws, hws, rfl⟩ := ofOption_map_eq_instr.mp h
        exact ⟨.listed ws, by rw [h2, wordsOfBytes_eq_some.mp hws]; rfl, rfl⟩
    · cases h
  · rintro ⟨set, rfl, rfl⟩
    cases set <;> simp [decodeSetBp, encBpRef, ofOption]

/-- Every event that decodes is the encoding of the operation read, by the operands its number calls for. -/
theorem encodes_of_decodeEvtOp (c : Config) {n : Nat} {bs : List Byte} {i : Instr} (h : decodeEvtOp n bs = .instr i) :
    Encodes c i (encEvt (BitVec.ofNat 8 n) bs) := by
  match n, h with
  | 0, h | 2, h => obtain ⟨sl, b, rfl, rfl⟩ := decodeSlotByte_eq_instr.mp h; exact ⟨rfl, rfl⟩
  | 1, h | 15, h | 16, h => obtain ⟨sl, rfl, rfl⟩ := decodeSlot_eq_instr.mp h; exact ⟨rfl, rfl⟩
  | 3, h | 4, h | 5, h | 6, h | 7, h | 8, h | 9, h | 20, h | 22, h =>
    obtain ⟨rfl, rfl⟩ := decodeNoOperand_eq_instr.mp h; exact ⟨rfl, rfl⟩
  | 10, h | 21, h => cases h; exact ⟨rfl, rfl⟩
  | 11, h => obtain ⟨bank, buf, rfl, rfl⟩ := decodeLoadRam_eq_instr.mp h; exact ⟨rfl, rfl⟩
  | 12, h | 25, h => obtain ⟨w, rfl, rfl⟩ := decodeWord_eq_instr.mp h; exact ⟨rfl, rfl⟩
  | 13, h => obtain ⟨sc, p, rfl, rfl⟩ := decodeKey_eq_instr.mp h; exact ⟨rfl, rfl⟩
  | 14, h => obtain ⟨sl, img, rfl, rfl⟩ := decodeAttach_eq_instr.mp h; exact ⟨rfl, rfl⟩
  | 17, h => obtain ⟨cb, rfl, rfl⟩ := decodeSoundCb_eq_instr.mp h; exact ⟨rfl, rfl⟩
  | 18, h => obtain ⟨on, rfl, rfl⟩ := decodeSetSound_eq_instr.mp h; exact ⟨rfl, rfl⟩
  | 19, h => obtain ⟨set, rfl, rfl⟩ := decodeSetBp_eq_instr.mp h; exact ⟨rfl, rfl⟩
  | 23, h | 24, h => obtain ⟨arr, a, rfl, rfl⟩ := decodeArrayWord_eq_instr.mp h; exact ⟨rfl, rfl⟩
  | 26, h => obtain ⟨arr, rfl, rfl⟩ := decodeArray_eq_instr.mp h; exact ⟨rfl, rfl⟩
  | n + 27, h => cases h

theorem encodes_of_decodeEvt (c : Config) {bs : List Byte} {i : Instr} (h : decodeEvt bs = .instr i) :
    Encodes c i ⟨.evt, bs⟩ := by
  cases bs with
  | nil => cases h
  | cons op bs =>
    have henc := encodes_of_decodeEvtOp c h
    rwa [encEvt, BitVec.ofNat_toNat, BitVec.setWidth_eq] at henc

/-! ### Regions (R101) -/

theorem encodes_regionInstr (c : Config) (a : Word) (halt exe : Bool) :
    Encodes c (regionInstr a halt exe) (encRegion a halt exe) := by
  unfold regionInstr
  split
  all_goals next hrow => exact ⟨beq_iff_eq.mpr hrow, rfl⟩

theorem encodes_of_decodeAddr16 (c : Config) {bs : List Byte} {i : Instr} (h : decodeAddr16 bs = .instr i) :
    Encodes c i ⟨.addr16, bs⟩ := by
  unfold decodeAddr16 at h
  split at h
  · next l h' f =>
    split_ifs at h with hf
    cases h
    have henc := encodes_regionInstr c (word16 h' l) (f.getLsbD 0) (f.getLsbD 1)
    rwa [encRegion, lo8_word16, hi8_word16, flagByte_getLsbD hf] at henc
  · cases h

/-! ### Bus transactions (R142) -/

theorem encodes_of_decodeBusOp (c : Config) {n : Nat} {a : Word} {vl vh : Byte} {halt : Bool} {i : Instr}
    (h : decodeBusOp n a vl vh halt = .instr i) : Encodes c i (encBus (BitVec.ofNat 8 n) a (word16 vh vl) halt) := by
  match n, h with
  | 0, h | 1, h | 4, h =>
    obtain ⟨⟨rfl, rfl⟩, rfl⟩ := guarded_eq_instr.mp h
    exact ⟨rfl, rfl⟩
  | 2, h => cases h; exact ⟨rfl, rfl⟩
  | 3, h =>
    obtain ⟨rfl, rfl⟩ := guarded_eq_instr.mp h
    exact ⟨rfl, by rw [word16_zero]; rfl⟩
  | 5, h | 6, h =>
    obtain ⟨⟨rfl, rfl, rfl⟩, rfl⟩ := guarded_eq_instr.mp h
    exact ⟨rfl, rfl⟩
  | n + 7, h => cases h

theorem encodes_of_decodeBus (c : Config) {bs : List Byte} {i : Instr} (h : decodeBus bs = .instr i) :
    Encodes c i ⟨.bus, bs⟩ := by
  unfold decodeBus at h
  split at h
  · next op al ah vl vh f =>
    split at h
    · next halt hf =>
      have henc := encodes_of_decodeBusOp c h
      rwa [encBus, BitVec.ofNat_toNat, BitVec.setWidth_eq, lo8_word16, hi8_word16, lo8_word16, hi8_word16,
        ← boolOfByte_eq_some.mp hf] at henc
    · cases h
  · cases h

/-! ### Ports (R102) -/

/-- The port map leads only from the eleven port addresses. -/
theorem mem_portAddrs_of_portMap {c : Config} {e : Word} {r : PortReg} (h : portMap c e = some r) : e ∈ portAddrs c := by
  by_contra hne
  simp only [portAddrs, List.mem_cons, List.not_mem_nil, or_false, not_or] at hne
  simp [portMap, hne] at h

theorem portOk_of_portMap {c : Config} (hc : configValid c = true) {e : Word} {r : PortReg} (h : portMap c e = some r) :
    PortOk e :=
  portOk_of_configValid hc (mem_portAddrs_of_portMap h)

theorem decode_encPortAccess {c : Config} {a : Word} {acc : PortAccess}
    (hw : wellFormed c (.portUnassigned a acc) = true) :
    decode c ⟨.port, lo8 a :: hi8 a :: encPortAccess acc⟩ = .instr (.portUnassigned a acc) := by
  obtain ⟨hio, hnone⟩ := Bool.and_eq_true_iff.mp hw
  have hmap := Option.isNone_iff_eq_none.mp hnone
  cases acc <;> simp [decode, encPortAccess, decodePort, decodePortAccess, hio, hmap]

theorem wellFormed_of_assignedPortInstr {c : Config} {e : Word} {r : PortReg} {acc : PortAccess} {i : Instr}
    (h : assignedPortInstr c e r acc = some i) : wellFormed c i = true := by
  cases acc with
  | readWord => cases h; cases r <;> rfl
  | writeWord v => cases h; cases r <;> rfl
  | readByte => cases h
  | writeByte b => cases h

theorem wellFormed_of_decodePort {c : Config} {bs : List Byte} {i : Instr} (h : decodePort c bs = .instr i) :
    wellFormed c i = true := by
  unfold decodePort at h
  split at h
  · split_ifs at h with hio
    split at h
    · cases h
    · split at h
      · exact wellFormed_of_assignedPortInstr (ofOption_eq_instr.mp h)
      · next hr => cases h; exact Bool.and_eq_true_iff.mpr ⟨hio, Option.isNone_iff_eq_none.mpr hr⟩
  · cases h

/-! ### Device selects (R103, R104) -/

theorem devInstr_of_devMalformed {hi : BitVec 12} {dev : BitVec 4} (h : devMalformed dev = true) :
    devInstr hi dev = .devNone hi dev := by
  simp only [devMalformed, Bool.not_eq_true', Bool.or_eq_false_iff, beq_eq_false_iff_ne] at h
  simp [devInstr, h]

theorem encodes_devInstr (c : Config) (hi : BitVec 12) (dev : BitVec 4) :
    Encodes c (devInstr hi dev) (encCtrl hi dev) := by
  unfold devInstr
  split_ifs with h0 h1 h2 h8 h9
  · exact ⟨rfl, by rw [h0]; rfl⟩
  · exact ⟨rfl, by rw [h1]; rfl⟩
  · exact ⟨rfl, by rw [h2]; rfl⟩
  · exact ⟨rfl, by rw [h8]; rfl⟩
  · exact ⟨rfl, by rw [h9]; rfl⟩
  · exact ⟨by simp [wellFormed, devMalformed, h0, h1, h2, h8, h9], rfl⟩

/-- A control word is put together from its two fields (R103). -/
theorem ctrlWord_ctrlHigh_ctrlDev (v : Word) : ctrlWord (ctrlHigh v) (ctrlDev v) = v :=
  (BitVec.extractLsb'_append_extractLsb'_eq_extractLsb' rfl).trans BitVec.extractLsb'_eq_self

theorem encodes_of_decodeCtrl16 (c : Config) {bs : List Byte} {i : Instr} (h : decodeCtrl16 bs = .instr i) :
    Encodes c i ⟨.ctrl16, bs⟩ := by
  unfold decodeCtrl16 at h
  split at h
  · next l h' =>
    cases h
    have henc := encodes_devInstr c (ctrlHigh (word16 h' l)) (ctrlDev (word16 h' l))
    rwa [encCtrl, ctrlWord_ctrlHigh_ctrlDev, lo8_word16, hi8_word16] at henc
  · cases h

/-! ### Storage commands (R106) -/

/-- A command byte is put together from its two nibbles (R106). -/
theorem cmdByte_cmdNibble (b : Byte) : cmdByte (cmdNibble b) (b.extractLsb' 0 4) = b :=
  (BitVec.extractLsb'_append_extractLsb'_eq_extractLsb' rfl).trans BitVec.extractLsb'_eq_self

theorem encodes_smpInstr (c : Config) (b : Byte) (sl : SlotIx) (nx : NextAccess) :
    Encodes c (smpInstr b sl nx) ⟨.smpcmd8, [b, nextByte sl nx, nextData nx]⟩ := by
  have henc : Encodes c (smpInstr b sl nx) (encSmp (cmdNibble b) (b.extractLsb' 0 4) sl nx) := by
    unfold smpInstr smpOp
    split_ifs with h1 hD hA h2 hC hE
    · exact ⟨rfl, by rw [h1]; rfl⟩
    · exact ⟨rfl, by rw [hD]; rfl⟩
    · exact ⟨rfl, by rw [hA]; rfl⟩
    · exact ⟨rfl, by rw [h2]; rfl⟩
    · exact ⟨rfl, by rw [hC]; rfl⟩
    · exact ⟨rfl, by rw [hE]; rfl⟩
    · exact ⟨by simp [wellFormed, smpOp, h1, hD, hA, h2, hC, hE], rfl⟩
  rwa [encSmp, cmdByte_cmdNibble] at henc

theorem decodeSmp_eq_instr {cmd b : Byte} {n : Nat} {i : Instr} (h : decodeSmp cmd b n = .instr i) :
    ∃ sl nx, smpInstr cmd sl nx = i ∧ BitVec.ofNat 8 n = nextByte sl nx ∧ b = nextData nx := by
  match n, h with
  | 0, h => obtain ⟨rfl, rfl⟩ := guarded_eq_instr.mp h; exact ⟨.s0, .none, rfl, rfl, rfl⟩
  | 1, h => obtain ⟨rfl, rfl⟩ := guarded_eq_instr.mp h; exact ⟨.s1, .none, rfl, rfl, rfl⟩
  | 2, h => obtain ⟨rfl, rfl⟩ := guarded_eq_instr.mp h; exact ⟨.s0, .read, rfl, rfl, rfl⟩
  | 3, h => obtain ⟨rfl, rfl⟩ := guarded_eq_instr.mp h; exact ⟨.s1, .read, rfl, rfl, rfl⟩
  | 4, h => cases h; exact ⟨.s0, .write b, rfl, rfl, rfl⟩
  | 5, h => cases h; exact ⟨.s1, .write b, rfl, rfl, rfl⟩
  | n + 6, h => cases h

theorem encodes_of_decodeSmpcmd8 (c : Config) {bs : List Byte} {i : Instr} (h : decodeSmpcmd8 bs = .instr i) :
    Encodes c i ⟨.smpcmd8, bs⟩ := by
  unfold decodeSmpcmd8 at h
  split at h
  · next cmd sel b =>
    obtain ⟨sl, nx, rfl, hsel, rfl⟩ := decodeSmp_eq_instr h
    rw [BitVec.ofNat_toNat, BitVec.setWidth_eq] at hsel
    exact hsel ▸ encodes_smpInstr c cmd sl nx
  · cases h

/-! ### The decoder and the encoder -/

/-- Settles O2: format by format; in format PORT only well-formedness is left to say. -/
theorem decodedOperationsAreWellFormedAndKeepTheirBytes :
    Obligations.DecodedOperationsAreWellFormedAndKeepTheirBytes := by
  rintro c ⟨fmt, bs⟩ i h
  have of_encodes (henc : Encodes c i ⟨fmt, bs⟩) :
      wellFormed c i = true ∧ (fmt ≠ .port → encode c i = ⟨fmt, bs⟩) := ⟨henc.wellFormed, fun _ => henc.encode⟩
  cases fmt with
  | addr16 => exact of_encodes (encodes_of_decodeAddr16 c h)
  | bus => exact of_encodes (encodes_of_decodeBus c h)
  | port => exact ⟨wellFormed_of_decodePort h, fun hne => absurd rfl hne⟩
  | ctrl16 => exact of_encodes (encodes_of_decodeCtrl16 c h)
  | smpcmd8 => exact of_encodes (encodes_of_decodeSmpcmd8 c h)
  | evt => exact of_encodes (encodes_of_decodeEvt c h)
  | cpu =>
    change decodeCpu bs = .instr i at h
    unfold decodeCpu at h
    split at h <;> cases h

/-- Settles O1: the operations of each format by that format's lemma; the ports need the port map of a legal
configuration. -/
theorem everyWellFormedOperationDecodesFromItsEncoding : Obligations.EveryWellFormedOperationDecodesFromItsEncoding := by
  intro c i hc hw
  have hmap := portMapOk_of_configValid hc
  have hread {e : Word} {r : PortReg} (h : portMap c e = some r) := decode_encPortR (portOk_of_portMap hc h) h
  have hwrite {e : Word} {r : PortReg} (v : Word) (h : portMap c e = some r) :=
    decode_encPortW v (portOk_of_portMap hc h) h
  cases i
  case ramLow a halt exe | denied a halt exe | ioA a halt exe | ioB a halt exe | ioC a halt exe | ioD a halt exe
      | winRam a halt exe | rom a halt exe | ramTop a halt exe =>
    rw [encode, decode_encRegion, regionInstr, eq_of_beq hw]
  case rdw a halt | rdb a halt | fetch a halt => exact decode_encBus c _ a _ halt
  case viewW a | viewB a => exact decode_encBus c _ a _ false
  case wrw a v halt => exact (decode_encBus c _ a v halt).trans (by simp [decodeBusOp])
  case wrb a v halt => exact (decode_encBus c _ a _ halt).trans (by simp [decodeBusOp])
  case lcdAddrR p => exact (hread (hmap.lcdAddr p)).trans (by rw [portReadInstr, lcdAddrAlias_port hc])
  case lcdAddrW p v => exact (hwrite v (hmap.lcdAddr p)).trans (by rw [portWriteInstr, lcdAddrAlias_port hc])
  case lcdConfR p => exact (hread (hmap.lcdConf p)).trans (by rw [portReadInstr, lcdConfAlias_port hc])
  case lcdConfW p v => exact (hwrite v (hmap.lcdConf p)).trans (by rw [portWriteInstr, lcdConfAlias_port hc])
  case extDataR => exact hread hmap.extData
  case extDataW v => exact hwrite v hmap.extData
  case extCsR => exact hread hmap.extCs
  case extCsW v => exact hwrite v hmap.extCs
  case extCmdR => exact hread hmap.extCmd
  case extCmdW v => exact hwrite v hmap.extCmd
  case sndCtlR => exact hread hmap.sndCtl
  case sndCtlW v => exact hwrite v hmap.sndCtl
  case sndReloadR => exact hread hmap.sndReload
  case sndReloadW v => exact hwrite v hmap.sndReload
  case envReloadR => exact hread hmap.envReload
  case envReloadW v => exact hwrite v hmap.envReload
  case lcdIndexR => exact hread hmap.lcdIndex
  case lcdIndexW v => exact hwrite v hmap.lcdIndex
  case portUnassigned a acc => exact decode_encPortAccess hw
  case devSmp0Rd hi | devSmp1Rd hi | devKbdRd hi | devSmp0Wr hi | devSmp1Wr hi => exact decode_encCtrl c hi _
  case devNone hi dev => exact (decode_encCtrl c hi dev).trans (congrArg _ (devInstr_of_devMalformed hw))
  case smpRdDec low sl nx | smpRdInc low sl nx | smpWrAddr low sl nx | smpWr20 low sl nx | smpWrC0 low sl nx
      | smpWrE0 low sl nx =>
    rw [encode, decode_encSmp, smpInstr, cmdNibble_cmdByte, cmdByte_low]
    rfl
  case smpUndef op low sl nx =>
    rw [encode, decode_encSmp, smpInstr, cmdNibble_cmdByte, cmdByte_low, eq_of_beq hw]
  case slotWrCmd sl b | slotWrData sl b => exact decodeSlotByte_eq_instr.mpr ⟨sl, b, rfl, rfl⟩
  case slotRdData sl | detach sl | isAtt sl => exact decodeSlot_eq_instr.mpr ⟨sl, rfl, rfl⟩
  case loadRam bank buf => exact decodeLoadRam_eq_instr.mpr ⟨bank, buf, rfl, rfl⟩
  case setConfig w | bpSetTemp w => exact decodeWord_eq_instr.mpr ⟨w, rfl, rfl⟩
  case key sc p => exact decodeKey_eq_instr.mpr ⟨sc, p, rfl, rfl⟩
  case attach sl img => exact decodeAttach_eq_instr.mpr ⟨sl, img, rfl, rfl⟩
  case setSoundCb cb => exact decodeSoundCb_eq_instr.mpr ⟨cb, rfl, rfl⟩
  case setSound on => exact decodeSetSound_eq_instr.mpr ⟨on, rfl, rfl⟩
  case setBp set => exact decodeSetBp_eq_instr.mpr ⟨set, rfl, rfl⟩
  case bpAdd arr a | bpRemove arr a => exact decodeArrayWord_eq_instr.mpr ⟨arr, a, rfl, rfl⟩
  case bpClearAll arr => exact decodeArray_eq_instr.mpr ⟨arr, rfl, rfl⟩
  case cpuExec | bpChk | tTick | tick50 | doSound | frame | reset | save | video =>
    exact decodeNoOperand_eq_instr.mpr ⟨rfl, rfl⟩
  case loadRom img | load img => rfl

end Sys2Proof

/-!
PROOF. Words of the opcode table, the cursor under SMP.WR_ADDR and the device selects (R101 to R106, R113, R211, R218).
-/
namespace Sys2Proof.Machine

/-- Settles O3: each row by its own evaluation. -/
theorem tableWordsDecodeToTheirRows : Obligations.TableWordsDecodeToTheirRows := by
  refine ⟨?lcdAddr0, ?lcdAddr1, ?extData, ?extCs, ?unassigned, ?smp0Wr, ?kbdRd, ?rdInc, ?rdDec, ?addr16, ?bus, ?evt⟩
  all_goals decide

/-! ### The cursor (R113, R259) -/

theorem Slot.afterWrite_wrAddr {x : Slot} (ha : x.attached = true) (hop : cmdNibble x.command = 0xA#4) (b : Byte) :
    x.afterWrite b = { x with cursor := cursorShift x.cursor x.mask b } := by
  have hsmp : smpOp (cmdNibble x.command) = .wrAddr := by rw [hop]; rfl
  simp only [Slot.afterWrite, ha, if_true, hsmp]

theorem exec_slotWrData_wrAddr {sl : SlotIx} {s : State} (ha : (getSlot s sl).attached = true)
    (hop : cmdNibble (getSlot s sl).command = 0xA#4) (b : Byte) :
    exec (.slotWrData sl b) s = .next (answered .done (setSlot sl
      { getSlot s sl with cursor := cursorShift (getSlot s sl).cursor (getSlot s sl).mask b } s)) :=
  congrArg (fun x => Host.Outcome.next (answered .done (setSlot sl x s))) (Slot.afterWrite_wrAddr ha hop b)

theorem slotWrData_wrAddr_completes {sl : SlotIx} {s : State} (ha : (getSlot s sl).attached = true)
    (hop : cmdNibble (getSlot s sl).command = 0xA#4) (b : Byte) :
    ∃ t, exec (.slotWrData sl b) s = .next t ∧
      getSlot t sl = { getSlot s sl with cursor := cursorShift (getSlot s sl).cursor (getSlot s sl).mask b } :=
  ⟨_, exec_slotWrData_wrAddr ha hop b, by rw [getSlot_answered, getSlot_setSlot]⟩

/-- Under the small mask the new cursor is the word with the old low byte above the data byte (R113). -/
theorem cursorShift_small (cursor : Word24) (b : Byte) :
    cursorShift cursor 0xFFFF#24 b = (cursor.extractLsb' 0 8 ++ b).setWidth 24 := by
  apply BitVec.eq_of_getLsbD_eq; intro i hi
  simp only [cursorShift, BitVec.getLsbD_and, BitVec.getLsbD_or, BitVec.getLsbD_shiftLeft, BitVec.getLsbD_setWidth,
    BitVec.getLsbD_append, BitVec.getLsbD_extractLsb']
  interval_cases i <;> simp

/-- The first of two data bytes is the high byte of the word, and nothing of the old cursor is left (R113). -/
theorem cursorShift_cursorShift_small (cursor : Word24) (h l : Byte) :
    cursorShift (cursorShift cursor 0xFFFF#24 h) 0xFFFF#24 l = (h ++ l).setWidth 24 := by
  have hlow : ((cursor.extractLsb' 0 8 ++ h).setWidth 24).extractLsb' 0 8 = h := by
    rw [BitVec.extractLsb'_setWidth_of_le (by decide), BitVec.extractLsb'_append_eq_right]
  rw [cursorShift_small, cursorShift_small, hlow]

/-- Settles O8: a second data byte meets the slot the first one left, which has the same cartridge, command and mask. -/
theorem cursorAssemblyShiftsDataBytesHighFirst : Obligations.CursorAssemblyShiftsDataBytesHighFirst := by
  intro sl s ha hop
  refine ⟨exec_slotWrData_wrAddr ha hop, fun hmask => ⟨fun h l => ?_, fun b => ?_⟩⟩
  · obtain ⟨t, ht, hslot⟩ := slotWrData_wrAddr_completes ha hop h
    obtain ⟨u, hu, hslot'⟩ := slotWrData_wrAddr_completes (s := t) (sl := sl) (by rw [hslot]; exact ha)
      (by rw [hslot]; exact hop) l
    refine ⟨u, (runInstrs_cons ht _).trans (runInstrs_cons hu []), ?_⟩
    simp only [hslot', hslot, hmask]
    exact cursorShift_cursorShift_small _ h l
  · obtain ⟨t, ht, hslot⟩ := slotWrData_wrAddr_completes ha hop b
    refine ⟨t, runInstrs_cons ht [], ?_⟩
    simp only [hslot, hmask]
    exact cursorShift_small _ b

/-! ### The device selects (R103, R104, R211, R218) -/

theorem readTarget_of_devMalformed {dev : BitVec 4} (h : devMalformed dev = true) : readTarget dev = .nothing := by
  simp only [devMalformed, Bool.not_eq_true', Bool.or_eq_false_iff, beq_eq_false_iff_ne] at h
  simp [readTarget, h]

theorem writeTarget_of_devMalformed {dev : BitVec 4} (h : devMalformed dev = true) : writeTarget dev = none := by
  simp only [devMalformed, Bool.not_eq_true', Bool.or_eq_false_iff, beq_eq_false_iff_ne] at h
  simp [writeTarget, h]

/-- Settles O27: each row runs the control write of its word, whose nibble is the row's. -/
theorem deviceSelectsRouteAsTheirRowsSay : Obligations.DeviceSelectsRouteAsTheirRowsSay := by
  intro hi dev s i n rt wt hrow hw
  have hnibble : ctrlDev (hi ++ n) = n := ctrlDev_ctrlWord hi n
  rw [hnibble]
  simp only [List.mem_cons, List.not_mem_nil, or_false, Prod.mk.injEq] at hrow
  obtain ⟨rfl, rfl, rfl, rfl⟩ | ⟨rfl, rfl, rfl, rfl⟩ | ⟨rfl, rfl, rfl, rfl⟩ | ⟨rfl, rfl, rfl, rfl⟩ |
    ⟨rfl, rfl, rfl, rfl⟩ | ⟨rfl, rfl, rfl, rfl⟩ := hrow
  case inr.inr.inr.inr.inr => exact ⟨rfl, readTarget_of_devMalformed hw, writeTarget_of_devMalformed hw⟩
  all_goals exact ⟨rfl, rfl, rfl⟩

end Sys2Proof.Machine

/-!
PROOF. The bus (R82, R101, R140 to R149): the fixed map by its bounds, the region rows that tile it, and what the reads,
the writes and the debug views do at RAM and ROM.
-/
namespace Sys2Proof.Machine

/-! ### The map by its bounds (R82, R140) -/

/-- The I/O sub-ranges as inequalities (R7). -/
theorem isIo_iff (a : Word) :
    isIo a = true ↔ (0xE800 ≤ a.toNat ∧ a.toNat ≤ 0xE807) ∨ (0xE810 ≤ a.toNat ∧ a.toNat ≤ 0xE817) ∨
      (0xE81A ≤ a.toNat ∧ a.toNat ≤ 0xE81D) ∨ (0xEA00 ≤ a.toNat ∧ a.toNat ≤ 0xEA7F) := by
  simp only [isIo, Bool.or_eq_true, Bool.and_eq_true, decide_eq_true_eq, or_assoc]

theorem inWindow_iff (a : Word) : inWindow a = true ↔ 0xE800 ≤ a.toNat ∧ a.toNat ≤ 0xEBFF := by
  simp only [inWindow, Bool.and_eq_true, decide_eq_true_eq]; omega

theorem classify_ramLow {a : Word} (h : a.toNat ≤ 0x3FFF) : classify a = .ram a := by
  rw [classify, if_pos (by omega)]

theorem classify_denied {a : Word} (h : 0x4000 ≤ a.toNat ∧ a.toNat ≤ 0x7FFF) : classify a = .denied := by
  rw [classify, if_neg (by omega), if_pos (by omega)]

theorem classify_windowRam {a : Word} (h : 0xE800 ≤ a.toNat ∧ a.toNat ≤ 0xEBFF) (hio : ¬ isIo a = true) :
    classify a = .ram a := by
  rw [classify, if_neg (by omega), if_neg (by omega), if_pos ((inWindow_iff a).mpr h), if_neg hio]

/-- The port window stands before the ROM test, so ROM is the two pieces around it. -/
theorem classify_rom {a : Word}
    (h : (0x8000 ≤ a.toNat ∧ a.toNat ≤ 0xE7FF) ∨ (0xEC00 ≤ a.toNat ∧ a.toNat ≤ 0xF9B5)) :
    classify a = .rom (a - 0x8000#16) := by
  have hw : ¬ inWindow a = true := by rw [inWindow_iff]; omega
  rw [classify, if_neg (by omega), if_neg (by omega), if_neg hw, if_pos (by omega)]

theorem classify_ramTop {a : Word} (h : 0xF9B6 ≤ a.toNat) : classify a = .ram a := by
  have hw : ¬ inWindow a = true := by rw [inWindow_iff]; omega
  rw [classify, if_neg (by omega), if_neg (by omega), if_neg hw, if_neg (by omega)]

/-- A ROM offset as the difference of the numbers (R110). -/
theorem romOffset_eq_ofNat {a : Word} (h : 0x8000 ≤ a.toNat) : a - 0x8000#16 = BitVec.ofNat 16 (a.toNat - 0x8000) := by
  bv_omega

/-- A ROM offset as the address without its top bit (R110). -/
theorem romOffset_eq_and {a : Word} (h : 0x8000 ≤ a.toNat) : a - 0x8000#16 = a &&& 0x7FFF#16 := by
  have hlow : (a &&& 0x7FFF#16).toNat = a.toNat % 2 ^ 15 := by
    rw [BitVec.toNat_and]; exact Nat.and_two_pow_sub_one_eq_mod a.toNat 15
  apply BitVec.eq_of_toNat_eq
  rw [hlow]
  bv_omega

/-- Settles O7: the regions by their bounds, in address order. -/
theorem translationIsTheFixedMap : Obligations.TranslationIsTheFixedMap := by
  intro a halt exe
  rw [translateAddr]
  have io := fun h => classify_of_isIo ((isIo_iff a).mpr h)
  have windowRam := fun h hio => classify_windowRam (a := a) h (hio ∘ (isIo_iff a).mp)
  have rom (h : (0x8000 ≤ a.toNat ∧ a.toNat ≤ 0xE7FF) ∨ (0xEC00 ≤ a.toNat ∧ a.toNat ≤ 0xF9B5)) :
      classify a = .rom (BitVec.ofNat 16 (a.toNat - 0x8000)) := by
    rw [classify_rom h, romOffset_eq_ofNat (by omega)]
  exact ⟨rfl, classify_ramLow, classify_denied, fun h => rom (by omega), fun h => io (by omega),
    fun h => windowRam (by omega) (by omega), fun h => io (by omega), fun h => windowRam (by omega) (by omega),
    fun h => io (by omega), fun h => windowRam (by omega) (by omega), fun h => io (by omega),
    fun h => windowRam (by omega) (by omega), fun h => rom (by omega), classify_ramTop⟩

/-! ### The region rows (R101) -/

/-- A mask of the bits from `k` up selects the block of `2 ^ k` addresses that begins at the row's value (R101). -/
theorem maskMatch_block (a v : Word) {mask : Word} (k : Nat) (hmask : mask = BitVec.allOnes 16 <<< k)
    (hv : 2 ^ k ∣ v.toNat) : maskMatch a mask v = true ↔ v.toNat ≤ a.toNat ∧ a.toNat < v.toNat + 2 ^ k := by
  obtain ⟨q, hq⟩ := hv
  have hpos : 0 < 2 ^ k := Nat.two_pow_pos k
  rw [hmask, maskMatch_high, decide_eq_true_iff, hq, Nat.mul_comm (2 ^ k) q, Nat.mul_left_inj (by omega),
    Nat.div_eq_iff hpos]
  omega

/-- Where a region row leads an address: the row's kind, and the offset of its meaning (R101, R110). -/
def rowPlace (a : Word) : RegionRow → Place
  | .ramLow | .winRam | .ramTop => .ram a
  | .denied => .denied
  | .ioA | .ioB | .ioC | .ioD => .io a
  | .rom => .rom (a &&& 0x7FFF#16)

/-- The rows of R101, taken in order, and the comparisons of R140 lead every address to the same place. -/
theorem classify_eq_rowPlace (a : Word) : classify a = rowPlace a (regionRow a) := by
  have ramLow : maskMatch a 0xC000#16 0x0000#16 = true ↔ _ := maskMatch_block a _ 14 (by decide) (by decide)
  have denied : maskMatch a 0xC000#16 0x4000#16 = true ↔ _ := maskMatch_block a _ 14 (by decide) (by decide)
  have ioA : maskMatch a 0xFFF8#16 0xE800#16 = true ↔ _ := maskMatch_block a _ 3 (by decide) (by decide)
  have ioB : maskMatch a 0xFFF8#16 0xE810#16 = true ↔ _ := maskMatch_block a _ 3 (by decide) (by decide)
  have ioCLow : maskMatch a 0xFFFE#16 0xE81A#16 = true ↔ _ := maskMatch_block a _ 1 (by decide) (by decide)
  have ioCHigh : maskMatch a 0xFFFE#16 0xE81C#16 = true ↔ _ := maskMatch_block a _ 1 (by decide) (by decide)
  have ioD : maskMatch a 0xFF80#16 0xEA00#16 = true ↔ _ := maskMatch_block a _ 7 (by decide) (by decide)
  have window : maskMatch a 0xFC00#16 0xE800#16 = true ↔ _ := maskMatch_block a _ 10 (by decide) (by decide)
  have io := isIo_iff a
  simp only [regionRow, Bool.or_eq_true, ramLow, denied, ioA, ioB, ioCLow, ioCHigh, ioD, window, BitVec.reduceToNat]
  split_ifs
  · exact classify_ramLow (by omega)
  · exact classify_denied (by omega)
  · exact classify_of_isIo (io.mpr (by omega))
  · exact classify_of_isIo (io.mpr (by omega))
  · exact classify_of_isIo (io.mpr (by omega))
  · exact classify_of_isIo (io.mpr (by omega))
  · exact classify_windowRam (by omega) (by rw [io]; omega)
  · exact (classify_rom (by omega)).trans (congrArg Place.rom (romOffset_eq_and (by omega)))
  · exact classify_ramTop (by omega)

theorem exec_regionInstr (a : Word) (halt exe : Bool) (s : State) :
    exec (regionInstr a halt exe) s =
      .next (answered (.region (placeKind (classify a)) (placeOffset (classify a))) s) := by
  rw [classify_eq_rowPlace, regionInstr]
  cases regionRow a <;> rfl

/-- Settles O6: a well-formed region row is the one its address decodes to. -/
theorem regionRowsGiveTheTranslatorsAnswer : Obligations.RegionRowsGiveTheTranslatorsAnswer := by
  intro c a halt exe s i hi hw
  have hrow : i = regionInstr a halt exe := by
    simp only [List.mem_cons, List.not_mem_nil, or_false] at hi
    obtain rfl | rfl | rfl | rfl | rfl | rfl | rfl | rfl | rfl := hi
    all_goals rw [regionInstr, eq_of_beq hw]
  rw [hrow, translateAddr]
  exact exec_regionInstr a halt exe s

/-! ### Reads of memory (R143, R144, R147) -/

/-- The translator ignores `forExecution`, the one difference between the two (R141, R147). -/
theorem exec_fetch (a : Word) (halt : Bool) (s : State) : exec (.fetch a halt) s = exec (.rdw a halt) s := rfl

theorem exec_rdw_rom {a o : Word} (h : classify (evenAddr a) = .rom o) (halt : Bool) (s : State) :
    exec (.rdw a halt) s = .next (answered (.word (romWord s o.toNat)) s) := by
  have hread : busReadWord a halt false s = (some (romWord s o.toNat), s) := by rw [busReadWord, translateAddr, h]
  exact congrArg (Host.Outcome.next ∘ answerWord) hread

theorem exec_rdb_rom {a o : Word} (h : classify a = .rom o) (halt : Bool) (s : State) :
    exec (.rdb a halt) s = .next (answered (.byte (romByte s o.toNat)) s) := by
  have hread : busReadByte a halt s = (some (romByte s o.toNat), s) := by rw [busReadByte, translateAddr, h]
  exact congrArg (Host.Outcome.next ∘ answerByte) hread

/-- Settles O9: the four reads at RAM and ROM, a fetch being the word read. -/
theorem memoryReadsAnswerTheStoredBytes : Obligations.MemoryReadsAnswerTheStoredBytes := by
  intro a o halt s
  rw [exec_fetch]
  exact ⟨rfl, fun h => ⟨exec_rdw_ram h halt s, exec_rdw_ram h halt s⟩,
    fun h => ⟨exec_rdw_rom h halt s, exec_rdw_rom h halt s⟩, fun h => exec_rdb_ram h halt s,
    fun h => exec_rdb_rom h halt s⟩

/-! ### Writes to RAM (R145, R146) -/

theorem ramByte_setRamWord (o : Nat) (v : Word) (s : State) (i : Nat) :
    ramByte (setRamWord o v s) i = if i = o then lo8 v else if i = o + 1 then hi8 v else ramByte s i := by
  rw [setRamWord, ramByte_setRamByte, ramByte_setRamByte]
  by_cases hlow : i = o
  · rw [if_pos hlow, if_pos hlow, if_neg (by omega)]
  · rw [if_neg hlow, if_neg hlow]

/-- Settles O10: the state a write leaves is the one with its bytes set in RAM, read at every index. -/
theorem ramWritesStoreTheirBytesAlone : Obligations.RamWritesStoreTheirBytesAlone := by
  intro a o v b halt s
  exact ⟨fun h => ⟨(setRamWord o.toNat v s).ram, exec_wrw_ram h v halt s, ramByte_setRamWord o.toNat v s⟩,
    fun h => ⟨(setRamByte o.toNat b s).ram, exec_wrb_ram h b halt s, ramByte_setRamByte o.toNat b s⟩⟩

/-! ### The debug views (R148, R149) -/

@[simp] theorem lo8_ramWord (s : State) (o : Nat) : lo8 (ramWord s o) = ramByte s o := lo8_word16 _ _
@[simp] theorem hi8_ramWord (s : State) (o : Nat) : hi8 (ramWord s o) = ramByte s (o + 1) := hi8_word16 _ _
@[simp] theorem lo8_romWord (s : State) (o : Nat) : lo8 (romWord s o) = romByte s o := lo8_word16 _ _
@[simp] theorem hi8_romWord (s : State) (o : Nat) : hi8 (romWord s o) = romByte s (o + 1) := hi8_word16 _ _

/-- The byte the debug view shows of a place: the stored one, and 0 where nothing is stored (R148, R149). -/
def viewedByte (s : State) : Place → Byte
  | .ram o => ramByte s o.toNat
  | .rom o => romByte s o.toNat
  | .io _ => 0#8
  | .denied => 0#8

theorem viewByte_even {a : Word} (h : a.getLsbD 0 = false) (s : State) : viewByte a s = viewedByte s (classify a) := by
  rw [viewByte, laneOf, h, if_neg Bool.false_ne_true, viewWord, evenAddr_of_even h]
  cases classify a with
  | ram o => exact lo8_ramWord s o.toNat
  | rom o => exact lo8_romWord s o.toNat
  | io _ => rfl
  | denied => rfl

/-- The odd address of a word lies one index on from the even one, where the word's high byte is (R76). -/
theorem viewByte_odd {a : Word} (h : a.getLsbD 0 = true) (s : State) : viewByte a s = viewedByte s (classify a) := by
  have hsucc := classify_succ (evenAddr_even a)
  rw [evenAddr_succ_of_odd h] at hsucc
  have hzero : hi8 0#16 = 0#8 := by decide
  rw [viewByte, laneOf, if_pos h, viewWord]
  generalize classify (evenAddr a) = place at hsucc ⊢
  cases place with
  | ram o =>
    obtain ⟨hodd, hindex⟩ := hsucc
    rw [hodd, viewedByte, hindex]
    exact hi8_ramWord s o.toNat
  | rom o =>
    obtain ⟨hodd, hindex⟩ := hsucc
    rw [hodd, viewedByte, hindex]
    exact hi8_romWord s o.toNat
  | io o => rw [show classify a = _ from hsucc]; exact hzero
  | denied => rw [show classify a = _ from hsucc]; exact hzero

/-- Settles O15: the word view is the map's four cases, the byte view the lane of it that the address selects. -/
theorem debugViewsAnswerWithoutFaultOrEffect : Obligations.DebugViewsAnswerWithoutFaultOrEffect := by
  intro a s
  have hbyte : viewByte a s = viewedByte s (classify a) := by
    cases h : a.getLsbD 0 with
    | false => exact viewByte_even h s
    | true => exact viewByte_odd h s
  exact ⟨rfl, congrArg (fun b => Host.Outcome.next (answered (.byte b) s)) hbyte⟩

end Sys2Proof.Machine

/-!
PROOF. The port registers (R171 to R191, R431): what the plain operations answer and store, that a bus transaction at an
I/O address is an access of the containing word's register, and what follows for the plain registers, the two aliases and
the unassigned addresses.
-/
namespace Sys2Proof.Machine

/-! ### The plain operations (R175 to R188) -/

/-- Settles O16: the meanings of the six reads, the same at both addresses of an LCD register. -/
theorem plainRegisterReadsAnswerTheStoredWord : Obligations.PlainRegisterReadsAnswerTheStoredWord :=
  fun _ _ => ⟨rfl, rfl, rfl, rfl, rfl, rfl⟩

/-- Settles O17: the meanings of the six writes, the same at both addresses of an LCD register. -/
theorem plainRegisterWritesStoreAllSixteenBits : Obligations.PlainRegisterWritesStoreAllSixteenBits :=
  fun _ _ _ => ⟨rfl, rfl, rfl, rfl, rfl, rfl⟩

/-! ### The bus at an I/O address (R143 to R146) -/

theorem classify_evenAddr_of_isIo {a : Word} (h : isIo a = true) : classify (evenAddr a) = .io (evenAddr a) :=
  classify_of_isIo ((isIo_evenAddr a).trans h)

theorem busReadWord_io {a : Word} (h : isIo a = true) (halt exe : Bool) (s : State) :
    busReadWord a halt exe s = portReadWord ⟨a, .word, .read⟩ (evenAddr a) s := by
  rw [busReadWord, translateAddr, classify_evenAddr_of_isIo h]

theorem busReadByte_io {a : Word} (h : isIo a = true) (halt : Bool) (s : State) :
    busReadByte a halt s = portReadByte ⟨a, .byte, .read⟩ a s := by
  rw [busReadByte, translateAddr, classify_of_isIo h]

theorem busWriteWord_io {a : Word} (h : isIo a = true) (v : Word) (halt : Bool) (s : State) :
    busWriteWord a v halt s = portWriteWord ⟨a, .word, .write⟩ (evenAddr a) v s := by
  rw [busWriteWord, translateAddr, classify_evenAddr_of_isIo h]

theorem busWriteByte_io {a : Word} (h : isIo a = true) (b : Byte) (halt : Bool) (s : State) :
    busWriteByte a b halt s = portWriteByte ⟨a, .byte, .write⟩ a b s := by
  rw [busWriteByte, translateAddr, classify_of_isIo h]

/-! ### Transactions at an assigned port (R171 to R174) -/

/-- A legal configuration places its ports inside the I/O sub-ranges, the odd addresses of their words too (R8). -/
theorem isIo_of_portMap {c : Config} (hc : configValid c = true) {a : Word} {r : PortReg}
    (h : portMap c (evenAddr a) = some r) : isIo a = true :=
  (isIo_evenAddr a).symm.trans (portOk_of_portMap hc h).io

section Assigned
variable {a : Word} {r : PortReg} {s : State}

theorem exec_rdw_port (hio : isIo a = true) (hr : portMap s.cfg (evenAddr a) = some r) (halt : Bool) :
    exec (.rdw a halt) s = .next (answered (.word (portValue r s)) (portAfterRead r s)) := by
  have hread : busReadWord a halt false s = (some (portValue r s), portAfterRead r s) := by
    rw [busReadWord_io hio, portReadWord, hr]
  exact congrArg (Host.Outcome.next ∘ answerWord) hread

theorem exec_wrw_port (hio : isIo a = true) (hr : portMap s.cfg (evenAddr a) = some r) (v : Word) (halt : Bool) :
    exec (.wrw a v halt) s = .next (answered .done (portAfterWrite r v s)) := by
  have hwrite : busWriteWord a v halt s = (true, portAfterWrite r v s) := by
    rw [busWriteWord_io hio, portWriteWord, hr]
  exact congrArg (Host.Outcome.next ∘ answerWrite) hwrite

theorem exec_rdb_port (hio : isIo a = true) (hr : portMap s.cfg (evenAddr a) = some r) (halt : Bool) :
    exec (.rdb a halt) s = .next (answered (.byte (laneOf a (portValue r s))) (portAfterRead r s)) := by
  have hread : busReadByte a halt s = (some (laneOf a (portValue r s)), portAfterRead r s) := by
    rw [busReadByte_io hio, portReadByte, portReadWord, hr]
  exact congrArg (Host.Outcome.next ∘ answerByte) hread

/-- The read half leaves the port map, so the write half finds the same register. -/
theorem exec_wrb_port (hio : isIo a = true) (hr : portMap s.cfg (evenAddr a) = some r) (b : Byte) (halt : Bool) :
    exec (.wrb a b halt) s =
      .next (answered .done (portAfterWrite r (laneMerge a (portValue r s) b) (portAfterRead r s))) := by
  have hcfg : (portAfterRead r s).cfg = s.cfg := (portAfterRead_keeps r s).cfg
  have hwrite : busWriteByte a b halt s =
      (true, portAfterWrite r (laneMerge a (portValue r s) b) (portAfterRead r s)) := by
    rw [busWriteByte_io hio, portWriteByte, portReadWord, hr]
    simp only [portWriteWord, hcfg, hr]
  exact congrArg (Host.Outcome.next ∘ answerWrite) hwrite

end Assigned

/-- Settles O21: the two byte transactions at an assigned port. -/
theorem portByteAccessGoesThroughTheContainingWord : Obligations.PortByteAccessGoesThroughTheContainingWord :=
  fun _ b _ halt _ hio hr => ⟨exec_rdb_port hio hr halt, exec_wrb_port hio hr b halt⟩

/-- The word transactions at a port are any operations that read and write its register as the port's own do. -/
theorem wordAccess_eq_of_portMap {a e v : Word} {reg : PortReg} {s : State} {r w : Instr}
    (hc : configValid s.cfg = true) (he : evenAddr a = e) (hmap : portMap s.cfg e = some reg)
    (hr : exec r s = .next (answered (.word (portValue reg s)) (portAfterRead reg s)))
    (hw : exec w s = .next (answered .done (portAfterWrite reg v s))) (halt : Bool) :
    exec (.rdw a halt) s = exec r s ∧ exec (.fetch a halt) s = exec r s ∧ exec (.wrw a v halt) s = exec w s := by
  subst he
  have hio := isIo_of_portMap hc hmap
  rw [exec_fetch, exec_rdw_port hio hmap, exec_wrw_port hio hmap, hr, hw]
  exact ⟨rfl, rfl, rfl⟩

/-- Settles O18: at each of the eleven addresses the port map names the register of the row's operations. -/
theorem wordAccessAtAPortIsThePortOperation : Obligations.WordAccessAtAPortIsThePortOperation := by
  intro a e v halt s r w hc he hrow
  have ports := portMapOk_of_configValid hc
  simp only [List.mem_cons, List.not_mem_nil, or_false, Prod.mk.injEq] at hrow
  obtain ⟨rfl, rfl, rfl⟩ | ⟨rfl, rfl, rfl⟩ | ⟨rfl, rfl, rfl⟩ | ⟨rfl, rfl, rfl⟩ | ⟨rfl, rfl, rfl⟩ | ⟨rfl, rfl, rfl⟩ |
    ⟨rfl, rfl, rfl⟩ | ⟨rfl, rfl, rfl⟩ | ⟨rfl, rfl, rfl⟩ | ⟨rfl, rfl, rfl⟩ | ⟨rfl, rfl, rfl⟩ := hrow
  · exact wordAccess_eq_of_portMap hc he (ports.lcdAddr .a0) rfl rfl halt
  · exact wordAccess_eq_of_portMap hc he (ports.lcdAddr .a1) rfl rfl halt
  · exact wordAccess_eq_of_portMap hc he (ports.lcdConf .a0) rfl rfl halt
  · exact wordAccess_eq_of_portMap hc he (ports.lcdConf .a1) rfl rfl halt
  · exact wordAccess_eq_of_portMap hc he ports.lcdIndex rfl rfl halt
  · exact wordAccess_eq_of_portMap hc he ports.extData rfl rfl halt
  · exact wordAccess_eq_of_portMap hc he ports.extCs rfl rfl halt
  · exact wordAccess_eq_of_portMap hc he ports.extCmd rfl rfl halt
  · exact wordAccess_eq_of_portMap hc he ports.sndCtl rfl rfl halt
  · exact wordAccess_eq_of_portMap hc he ports.sndReload rfl rfl halt
  · exact wordAccess_eq_of_portMap hc he ports.envReload rfl rfl halt

/-! ### The aliases (R190) -/

/-- A byte address selects a lane by its lowest bit alone (R73, R111). -/
theorem laneOf_congr {a a' : Word} (h : a.getLsbD 0 = a'.getLsbD 0) (w : Word) : laneOf a w = laneOf a' w := by
  rw [laneOf, laneOf, h]

theorem laneMerge_congr {a a' : Word} (h : a.getLsbD 0 = a'.getLsbD 0) (w : Word) (b : Byte) :
    laneMerge a w b = laneMerge a' w b := by
  rw [laneMerge, laneMerge, h]

/-- The two addresses of an even address's word. -/
theorem evenAddr_add_lane {e k : Word} (he : e.getLsbD 0 = false) (hk : k = 0#16 ∨ k = 1#16) :
    evenAddr (e + k) = e ∧ (e + k).getLsbD 0 = k.getLsbD 0 := by
  obtain rfl | rfl := hk
  · rw [BitVec.add_zero]
    exact ⟨evenAddr_of_even he, he⟩
  · obtain ⟨heven, hodd, -⟩ := succ_of_even he
    exact ⟨heven, hodd⟩

/-- No transaction tells two addresses apart that select one lane of one register. -/
theorem transactions_eq_of_same_port {a a' : Word} {r : PortReg} {s : State} (hc : configValid s.cfg = true)
    (hr : portMap s.cfg (evenAddr a) = some r) (hr' : portMap s.cfg (evenAddr a') = some r)
    (hlane : a.getLsbD 0 = a'.getLsbD 0) (v : Word) (b : Byte) (halt : Bool) :
    exec (.rdw a halt) s = exec (.rdw a' halt) s ∧ exec (.rdb a halt) s = exec (.rdb a' halt) s ∧
    exec (.wrw a v halt) s = exec (.wrw a' v halt) s ∧ exec (.wrb a b halt) s = exec (.wrb a' b halt) s ∧
    exec (.fetch a halt) s = exec (.fetch a' halt) s := by
  have hio := isIo_of_portMap hc hr
  have hio' := isIo_of_portMap hc hr'
  have hrdw : exec (.rdw a halt) s = exec (.rdw a' halt) s := by
    rw [exec_rdw_port hio hr, exec_rdw_port hio' hr']
  refine ⟨hrdw, ?_, ?_, ?_, hrdw⟩
  · rw [exec_rdb_port hio hr, exec_rdb_port hio' hr', laneOf_congr hlane]
  · rw [exec_wrw_port hio hr, exec_wrw_port hio' hr']
  · rw [exec_wrb_port hio hr, exec_wrb_port hio' hr', laneMerge_congr hlane]

/-- Settles O19: the port map names one register at both aliases. -/
theorem lcdAliasesAreInterchangeable : Obligations.LcdAliasesAreInterchangeable := by
  intro k v b halt s hc hk e e' halias
  have ports := portMapOk_of_configValid hc
  obtain ⟨r, hr, hr'⟩ : ∃ r, portMap s.cfg e = some r ∧ portMap s.cfg e' = some r := by
    obtain ⟨rfl, rfl⟩ | ⟨rfl, rfl⟩ := halias
    · exact ⟨.lcdAddr, ports.lcdAddr .a0, ports.lcdAddr .a1⟩
    · exact ⟨.lcdConf, ports.lcdConf .a0, ports.lcdConf .a1⟩
  obtain ⟨heven, hlane⟩ := evenAddr_add_lane (portOk_of_portMap hc hr).even hk
  obtain ⟨heven', hlane'⟩ := evenAddr_add_lane (portOk_of_portMap hc hr').even hk
  exact transactions_eq_of_same_port hc (by rw [heven, hr]) (by rw [heven', hr']) (hlane.trans hlane'.symm) v b halt

/-! ### The plain registers (R191) -/

/-- The six registers whose reads have no side effect and answer the word last written. -/
def PortReg.isPlain : PortReg → Bool
  | .lcdAddr | .lcdConf | .lcdIndex | .sndCtl | .sndReload | .envReload => true
  | .extData | .extCs | .extCmd => false

theorem portAfterRead_of_isPlain {r : PortReg} (h : r.isPlain = true) (s : State) : portAfterRead r s = s := by
  cases r
  case extData | extCs | extCmd => cases h
  all_goals rfl

theorem portValue_write_of_isPlain {r : PortReg} (h : r.isPlain = true) (a : Answer) (v : Word) (s : State) :
    portValue r (answered a (portAfterWrite r v s)) = v := by
  cases r
  case extData | extCs | extCmd => cases h
  all_goals rfl

theorem exists_isPlain_of_mem_plainPorts {c : Config} (hc : configValid c = true) {e : Word} (he : e ∈ plainPorts c) :
    ∃ r, portMap c e = some r ∧ r.isPlain = true := by
  have ports := portMapOk_of_configValid hc
  simp only [plainPorts, List.mem_cons, List.not_mem_nil, or_false] at he
  obtain rfl | rfl | rfl | rfl | rfl | rfl | rfl | rfl := he
  · exact ⟨_, ports.lcdAddr .a0, rfl⟩
  · exact ⟨_, ports.lcdAddr .a1, rfl⟩
  · exact ⟨_, ports.lcdConf .a0, rfl⟩
  · exact ⟨_, ports.lcdConf .a1, rfl⟩
  · exact ⟨_, ports.lcdIndex, rfl⟩
  · exact ⟨_, ports.sndCtl, rfl⟩
  · exact ⟨_, ports.sndReload, rfl⟩
  · exact ⟨_, ports.envReload, rfl⟩

/-- An address at either half of a plain register's word. -/
structure PlainAt (c : Config) (r : PortReg) (a : Word) : Prop where
  io : isIo a = true
  map : portMap c (evenAddr a) = some r
  plain : r.isPlain = true

section Plain
variable {a e f : Word} {r : PortReg} {s : State}

theorem exec_rdw_plain (h : PlainAt s.cfg r a) (halt : Bool) :
    exec (.rdw a halt) s = .next (answered (.word (portValue r s)) s) := by
  rw [exec_rdw_port h.io h.map, portAfterRead_of_isPlain h.plain]

theorem exec_wrw_plain (h : PlainAt s.cfg r a) (v : Word) (halt : Bool) :
    ∃ t, exec (.wrw a v halt) s = .next t ∧ t.cfg = s.cfg ∧ portValue r t = v :=
  ⟨_, exec_wrw_port h.io h.map v halt, (portAfterWrite_keeps r v s).cfg, portValue_write_of_isPlain h.plain _ v s⟩

theorem exec_wrb_plain (h : PlainAt s.cfg r a) (b : Byte) (halt : Bool) :
    ∃ t, exec (.wrb a b halt) s = .next t ∧ t.cfg = s.cfg ∧ portValue r t = laneMerge a (portValue r s) b := by
  rw [exec_wrb_port h.io h.map, portAfterRead_of_isPlain h.plain]
  exact ⟨_, rfl, (portAfterWrite_keeps r _ s).cfg, portValue_write_of_isPlain h.plain _ _ s⟩

theorem runInstrs_wrw_rdw_plain (h : PlainAt s.cfg r a) (v : Word) (halt : Bool) :
    ∃ t, runInstrs [.wrw a v halt, .rdw a halt] s = some t ∧ t.out.answer = .word v := by
  obtain ⟨t, hrun, hcfg, hvalue⟩ := exec_wrw_plain h v halt
  rw [runInstrs_cons hrun, ← hvalue]
  exact runInstrs_last (exec_rdw_plain (hcfg ▸ h) halt)

/-- After two byte writes to a plain register, the word read answers both merges, in their order. -/
theorem runInstrs_wrb_wrb_rdw_plain (ha : PlainAt s.cfg r a) (he : PlainAt s.cfg r e) (hf : PlainAt s.cfg r f)
    (x y : Byte) (halt : Bool) :
    ∃ t, runInstrs [.wrb e x halt, .wrb f y halt, .rdw a halt] s = some t ∧
      t.out.answer = .word (laneMerge f (laneMerge e (portValue r s) x) y) := by
  obtain ⟨t, hfirst, hcfg, hvalue⟩ := exec_wrb_plain he x halt
  rw [← hcfg] at ha hf
  obtain ⟨u, hsecond, hcfg', hvalue'⟩ := exec_wrb_plain hf y halt
  rw [← hcfg'] at ha
  rw [runInstrs_cons hfirst, runInstrs_cons hsecond, ← hvalue, ← hvalue']
  exact runInstrs_last (exec_rdw_plain ha halt)

end Plain

/-- Settles O20: the byte writes to both lanes of a plain register replace its whole word, in either order. -/
theorem plainPortsReadBackWhatWasWritten : Obligations.PlainPortsReadBackWhatWasWritten := by
  intro e v x y halt s hc he
  obtain ⟨r, hr, hplain⟩ := exists_isPlain_of_mem_plainPorts hc he
  obtain ⟨heven, hio⟩ := portOk_of_portMap hc hr
  obtain ⟨hword, hodd, -⟩ := succ_of_even heven
  have hlow : PlainAt s.cfg r e := ⟨hio, by rw [evenAddr_of_even heven, hr], hplain⟩
  have hhigh : PlainAt s.cfg r (e + 1#16) := ⟨by rw [← isIo_evenAddr, hword, hio], by rw [hword, hr], hplain⟩
  refine ⟨runInstrs_wrw_rdw_plain hlow v halt, ?_, ?_⟩
  · have hrun := runInstrs_wrb_wrb_rdw_plain hlow hlow hhigh x y halt
    rwa [laneMerge_odd hodd, laneMerge_even heven, lo8_word16] at hrun
  · have hrun := runInstrs_wrb_wrb_rdw_plain hlow hhigh hlow y x halt
    rwa [laneMerge_even heven, laneMerge_odd hodd, hi8_word16] at hrun

/-! ### The unassigned ports (R174, R185, R371) -/

/-- Every transaction at an I/O address without a register is PORT.UNASSIGNED; a byte write faults in its read half. -/
theorem transactions_unassigned {a : Word} {s : State} (hio : isIo a = true) (hr : portMap s.cfg (evenAddr a) = none)
    (v : Word) (b : Byte) (halt : Bool) :
    exec (.rdw a halt) s = exec (.portUnassigned a .readWord) s ∧
    exec (.fetch a halt) s = exec (.portUnassigned a .readWord) s ∧
    exec (.rdb a halt) s = exec (.portUnassigned a .readByte) s ∧
    exec (.wrw a v halt) s = exec (.portUnassigned a (.writeWord v)) s ∧
    exec (.wrb a b halt) s = exec (.portUnassigned a (.writeByte b)) s := by
  have hrdw : busReadWord a halt false s = (none, raiseBusFault .fPort ⟨a, .word, .read⟩ s) := by
    rw [busReadWord_io hio, portReadWord, hr]
  have hrdb : busReadByte a halt s = (none, raiseBusFault .fPort ⟨a, .byte, .read⟩ s) := by
    rw [busReadByte_io hio, portReadByte, portReadWord, hr]
  have hwrw : busWriteWord a v halt s = (false, raiseBusFault .fPort ⟨a, .word, .write⟩ s) := by
    rw [busWriteWord_io hio, portWriteWord, hr]
  have hwrb : busWriteByte a b halt s = (false, raiseBusFault .fPort ⟨a, .byte, .write⟩ s) := by
    rw [busWriteByte_io hio, portWriteByte, portReadWord, hr]
  have hword : exec (.rdw a halt) s = exec (.portUnassigned a .readWord) s :=
    congrArg (Host.Outcome.next ∘ answerWord) hrdw
  exact ⟨hword, hword, congrArg (Host.Outcome.next ∘ answerByte) hrdb,
    congrArg (Host.Outcome.next ∘ answerWrite) hwrw, congrArg (Host.Outcome.next ∘ answerWrite) hwrb⟩

/-- Settles O13: the four accesses by their meaning, the five transactions by `transactions_unassigned`. -/
theorem unassignedPortsRaiseBusFault : Obligations.UnassignedPortsRaiseBusFault := by
  intro a v b s hw
  obtain ⟨hio, hnone⟩ := Bool.and_eq_true_iff.mp hw
  exact ⟨rfl, rfl, rfl, rfl, transactions_unassigned hio (Option.isNone_iff_eq_none.mp hnone) v b⟩

end Sys2Proof.Machine

/-!
PROOF. The external-device controller (R210 to R222): what its operations do to the control word, the command, the keyboard
latch and the slots; the effects a bus transaction can have; and the operations that leave the latch alone.
-/
namespace Sys2Proof.Machine

/-! ### Completion (R219) -/

theorem extComplete_eq (s : State) : extComplete s = { s with out := { s.out with signals := extSignals s } } := by
  unfold extComplete extSignals ctrlImask
  split <;> rfl

/-- Completion follows a slot operation, and neither looks at what the other writes. -/
theorem extComplete_setSlot (sl : SlotIx) (x : Slot) (s : State) :
    extComplete (setSlot sl x s) = setSlot sl x { s with out := { s.out with signals := extSignals s } } := by
  rw [extComplete_eq, extSignals_setSlot]
  cases sl <;> rfl

/-! ### The controller's operations by their routes (R211 to R217) -/

/-- Settles O22: the control write deselects at most. -/
theorem controlWriteStoresTheWordAndMayDeselect : Obligations.ControlWriteStoresTheWordAndMayDeselect := by
  intro v s
  have hselected : (s.ext.selected && !ctrlWriteEnds s.cfg s.ext.control v) =
      if s.ext.selected = true ∧ ctrlWriteEnds s.cfg s.ext.control v = true then false else s.ext.selected := by
    cases s.ext.selected <;> cases ctrlWriteEnds s.cfg s.ext.control v <;> rfl
  rw [← hselected]
  rfl

/-- Settles O23: the meanings of the two reads. -/
theorem statusAndCommandReadsAnswerTheirWords : Obligations.StatusAndCommandReadsAnswerTheirWords :=
  fun _ => ⟨rfl, rfl⟩

theorem extCommandWrite_unrouted {s : State} (h : writeTarget (ctrlDev s.ext.control) = none) (c : Byte) :
    extCommandWrite c s = { s with ext := { s.ext with command := c, selected := true } } := by
  rw [extCommandWrite, h]

theorem extCommandWrite_slot {s : State} {sl : SlotIx} (h : writeTarget (ctrlDev s.ext.control) = some sl) (c : Byte) :
    extCommandWrite c s = setSlot sl ((getSlot s sl).writeCommand c) { s with
      ext := { s.ext with command := c, selected := true }
      out := { s.out with signals := extSignals s } } := by
  have hslot : getSlot { s with ext := { s.ext with command := c, selected := true } } sl = getSlot s sl :=
    getSlot_congr rfl rfl sl
  rw [extCommandWrite, h]
  show extComplete (slotWriteCommand sl c _) = _
  rw [slotWriteCommand, extComplete_setSlot, hslot]
  rfl

/-- Settles O24: the command write by its two routes. -/
theorem commandWriteSelectsAndReachesTheSlot : Obligations.CommandWriteSelectsAndReachesTheSlot :=
  fun v _ => ⟨fun h => congrArg (Host.Outcome.next ∘ answered .done) (extCommandWrite_unrouted h (lo8 v)),
    fun _ h => congrArg (Host.Outcome.next ∘ answered .done) (extCommandWrite_slot h (lo8 v))⟩

theorem exec_extDataR (s : State) : exec .extDataR s = .next (answered (.word (zext16 (extDataByte s))) (extDataRead s)) :=
  rfl

theorem extDataRead_slot {s : State} {sl : SlotIx} (h : readTarget (ctrlDev s.ext.control) = .slot sl) :
    extDataRead s = setSlot sl (getSlot s sl).afterRead { s with out := { s.out with signals := extSignals s } } := by
  rw [extDataRead, h]
  exact extComplete_setSlot sl _ s

/-- Settles O25: the data read by its three routes, each with its byte. -/
theorem dataReadIsRoutedByTheDeviceNibble : Obligations.DataReadIsRoutedByTheDeviceNibble := by
  intro s
  refine ⟨fun h => ?keyboard, fun h => ?nothing, fun sl h => ?slot⟩
  case slot => rw [exec_extDataR, extDataByte, h, extDataRead_slot h]
  all_goals
    rw [exec_extDataR, extDataByte, extDataRead, h]
    rfl

theorem extDataWrite_unrouted {s : State} (h : writeTarget (ctrlDev s.ext.control) = none) (b : Byte) :
    extDataWrite b s = s := by
  rw [extDataWrite, h]

theorem extDataWrite_slot {s : State} {sl : SlotIx} (h : writeTarget (ctrlDev s.ext.control) = some sl) (b : Byte) :
    extDataWrite b s =
      setSlot sl ((getSlot s sl).afterWrite b) { s with out := { s.out with signals := extSignals s } } := by
  rw [extDataWrite, h]
  exact extComplete_setSlot sl _ s

/-- Settles O26: the data write by its two routes. -/
theorem dataWriteIsRoutedByTheDeviceNibble : Obligations.DataWriteIsRoutedByTheDeviceNibble :=
  fun v _ => ⟨fun h => congrArg (Host.Outcome.next ∘ answered .done) (extDataWrite_unrouted h (lo8 v)),
    fun _ h => congrArg (Host.Outcome.next ∘ answered .done) (extDataWrite_slot h (lo8 v))⟩

/-- Settles O28: between frames the key event is taken, and only a press calls the CPU. -/
theorem keyEventsLatchTheCodeAndInterruptOnPress : Obligations.KeyEventsLatchTheCodeAndInterruptOnPress := by
  intro sc pressed s hframe
  refine (hostAction_of_none hframe).trans ?_
  cases pressed with
  | false => rfl
  | true => rfl

/-! ### The keyboard latch under the controller's operations (R222) -/

theorem readTarget_eq_keyboard {dev : BitVec 4} (h : readTarget dev = .keyboard) : dev = 2#4 := by
  unfold readTarget at h
  split_ifs at h with h0 h1 h2
  exact h2

theorem extDataWrite_ext (b : Byte) (s : State) : (extDataWrite b s).ext = s.ext := by
  cases h : writeTarget (ctrlDev s.ext.control) with
  | none => rw [extDataWrite_unrouted h]
  | some sl => rw [extDataWrite_slot h, setSlot_ext]

theorem extCommandWrite_shift (c : Byte) (s : State) : (extCommandWrite c s).ext.shift = s.ext.shift := by
  cases h : writeTarget (ctrlDev s.ext.control) with
  | none => rw [extCommandWrite_unrouted h]
  | some sl => rw [extCommandWrite_slot h, setSlot_ext]

/-- A data read clears the latch under the keyboard's nibble alone. -/
theorem extDataRead_ext {s : State} (h : ctrlDev s.ext.control ≠ 2#4) : (extDataRead s).ext = s.ext := by
  cases hr : readTarget (ctrlDev s.ext.control) with
  | slot sl => rw [extDataRead_slot hr, setSlot_ext]
  | keyboard => exact absurd (readTarget_eq_keyboard hr) h
  | nothing => rw [extDataRead, hr]

theorem portAfterWrite_shift (r : PortReg) (v : Word) (s : State) : (portAfterWrite r v s).ext.shift = s.ext.shift := by
  cases r
  case extData => exact congrArg ExtDev.shift (extDataWrite_ext (lo8 v) s)
  case extCmd => exact extCommandWrite_shift (lo8 v) s
  all_goals rfl

theorem portAfterRead_shift {r : PortReg} {s : State} (h : ctrlDev s.ext.control ≠ 2#4 ∨ r ≠ .extData) :
    (portAfterRead r s).ext.shift = s.ext.shift := by
  cases r
  case extData => exact congrArg ExtDev.shift (extDataRead_ext (h.resolve_right fun hne => hne rfl))
  all_goals rfl

theorem portMap_eq_extData {c : Config} {e : Word} (h : portMap c e = some .extData) : e = c.aExtData := by
  by_contra hne
  simp only [portMap, if_neg hne, ite_eq_iff, reduceCtorEq, Option.some.injEq, and_false, or_self] at h

/-! ### The effects of a bus transaction -/

/-- What a transaction can do, up to the answer it leaves: access a memory, raise BusFault, or read a port register, write
one, or both (R174). `dataRead` says whether the transaction reads the data port. -/
inductive BusEffect (dataRead : Prop) (s : State) : State → Prop
  | memory (m : Memory) : BusEffect dataRead s { s with ram := m }
  | fault (c : FaultCause) (acc : Access) : BusEffect dataRead s (raiseBusFault c acc s)
  | read {r : PortReg} (hr : r = .extData → dataRead) : BusEffect dataRead s (portAfterRead r s)
  | write (r : PortReg) (v : Word) : BusEffect dataRead s (portAfterWrite r v s)
  | readWrite {r : PortReg} (hr : r = .extData → dataRead) (v : Word) :
      BusEffect dataRead s (portAfterWrite r v (portAfterRead r s))
  | answered {t : State} (a : Answer) (h : BusEffect dataRead s t) : BusEffect dataRead s (answered a t)
  | drawn {t : State} (h : BusEffect dataRead s t) : BusEffect dataRead s (drawn t)

namespace BusEffect
variable {dataRead : Prop} {s : State}

theorem of_portReadWord {e : Word} (hdata : e = s.cfg.aExtData → dataRead) (acc : Access) :
    BusEffect dataRead s (portReadWord acc e s).2 := by
  unfold portReadWord
  cases hr : portMap s.cfg e with
  | none => exact fault _ _
  | some r => exact read fun h => hdata (portMap_eq_extData (h ▸ hr))

theorem of_portWriteWord (acc : Access) (e v : Word) : BusEffect dataRead s (portWriteWord acc e v s).2 := by
  unfold portWriteWord
  cases portMap s.cfg e with
  | none => exact fault _ _
  | some r => exact write r v

theorem of_portReadByte {a : Word} (hdata : evenAddr a = s.cfg.aExtData → dataRead) (acc : Access) :
    BusEffect dataRead s (portReadByte acc a s).2 := by
  have hread := of_portReadWord hdata acc
  unfold portReadByte
  split <;> next hp => rwa [hp] at hread

/-- The read half of a byte write leaves the port map, so its write half finds the same register. -/
theorem of_portWriteByte {a : Word} (hdata : evenAddr a = s.cfg.aExtData → dataRead) (acc : Access) (b : Byte) :
    BusEffect dataRead s (portWriteByte acc a b s).2 := by
  cases hr : portMap s.cfg (evenAddr a) with
  | none =>
    rw [portWriteByte, portReadWord, hr]
    exact fault _ _
  | some r =>
    have hcfg : (portAfterRead r s).cfg = s.cfg := (portAfterRead_keeps r s).cfg
    simp only [portWriteByte, portReadWord, hr, portWriteWord, hcfg]
    exact readWrite (fun h => hdata (portMap_eq_extData (h ▸ hr))) _

theorem of_busReadWord {a : Word} (hdata : evenAddr a = s.cfg.aExtData → dataRead) (halt exe : Bool) :
    BusEffect dataRead s (busReadWord a halt exe s).2 := by
  unfold busReadWord
  split
  · exact memory s.ram
  · exact memory s.ram
  · exact of_portReadWord hdata _
  · exact fault _ _

theorem of_busReadByte {a : Word} (hdata : evenAddr a = s.cfg.aExtData → dataRead) (halt : Bool) :
    BusEffect dataRead s (busReadByte a halt s).2 := by
  unfold busReadByte
  split
  · exact memory s.ram
  · exact memory s.ram
  · exact of_portReadByte hdata _
  · exact fault _ _

theorem of_busWriteWord (a v : Word) (halt : Bool) : BusEffect dataRead s (busWriteWord a v halt s).2 := by
  unfold busWriteWord
  split
  · exact memory _
  · exact fault _ _
  · exact of_portWriteWord _ _ _
  · exact fault _ _

theorem of_busWriteByte {a : Word} (hdata : evenAddr a = s.cfg.aExtData → dataRead) (b : Byte) (halt : Bool) :
    BusEffect dataRead s (busWriteByte a b halt s).2 := by
  unfold busWriteByte
  split
  · exact memory _
  · exact fault _ _
  · exact of_portWriteByte hdata _ b
  · exact fault _ _

theorem answerWord {r : Option Word × State} (h : BusEffect dataRead s r.2) : BusEffect dataRead s (answerWord r) := by
  obtain ⟨_ | _, t⟩ := r
  · exact (h.answered _).drawn
  · exact h.answered _

theorem answerByte {r : Option Byte × State} (h : BusEffect dataRead s r.2) : BusEffect dataRead s (answerByte r) := by
  obtain ⟨_ | _, t⟩ := r
  · exact (h.answered _).drawn
  · exact h.answered _

theorem answerWrite {r : Bool × State} (h : BusEffect dataRead s r.2) : BusEffect dataRead s (answerWrite r) := by
  obtain ⟨_ | _, t⟩ := r
  · exact h.answered _
  · exact h.answered _

theorem of_busTransaction (op : BusOp) (halt : Bool) (s : State) :
    BusEffect (readsDataPort s.cfg (busInstr op halt) = true) s (busTransaction op halt s) := by
  cases op with
  | readWord a => exact (of_busReadWord beq_iff_eq.mpr halt false).answerWord
  | readByte a => exact (of_busReadByte beq_iff_eq.mpr halt).answerByte
  | writeWord a v => exact (of_busWriteWord a v halt).answerWrite
  | writeByte a b => exact (of_busWriteByte beq_iff_eq.mpr b halt).answerWrite
  | fetchWord a => exact (of_busReadWord beq_iff_eq.mpr halt true).answerWord

theorem of_unassignedAccess (a : Word) (acc : PortAccess) (s : State) :
    BusEffect dataRead s (unassignedAccess a acc s) := by
  cases acc with
  | readWord => exact answerWord (r := (none, _)) (fault _ _)
  | readByte => exact answerByte (r := (none, _)) (fault _ _)
  | writeWord v => exact answerWrite (r := (false, _)) (fault _ _)
  | writeByte b => exact answerWrite (r := (false, _)) (fault _ _)

/-- A transaction makes no call, calls `MemoryError` once, or makes the one request of `ExtComplete`. -/
theorem signals {t : State} (h : BusEffect dataRead s t) : t.out.signals = s.out.signals ∨
    t.out.signals = .memoryError :: s.out.signals ∨ t.out.signals = extSignals s := by
  induction h with
  | memory m => exact .inl rfl
  | fault c acc => exact .inr (.inl rfl)
  | read hr => exact (portAfterRead_signals _ s).imp_right .inr
  | write r v => exact (portAfterWrite_signals r v s).imp_right .inr
  | readWrite hr v => exact (portAfterWrite_portAfterRead_signals _ v s).imp_right .inr
  | answered a h ih => exact ih
  | drawn h ih => exact ih

/-- Only a read of the data port under the keyboard's nibble changes the latch. -/
theorem shift {t : State} (h : BusEffect dataRead s t) (hkeep : ctrlDev s.ext.control ≠ 2#4 ∨ ¬ dataRead) :
    t.ext.shift = s.ext.shift := by
  have hread {r : PortReg} (hr : r = .extData → dataRead) : (portAfterRead r s).ext.shift = s.ext.shift :=
    portAfterRead_shift (hkeep.imp_right fun hn hd => hn (hr hd))
  induction h with
  | memory m => rfl
  | fault c acc => rfl
  | read hr => exact hread hr
  | write r v => exact portAfterWrite_shift r v s
  | readWrite hr v => exact (portAfterWrite_shift _ v _).trans (hread hr)
  | answered a h ih => exact ih
  | drawn h ih => exact ih

end BusEffect

/-! ### The keyboard latch under every operation (R222) -/

theorem slotAccess_ext (sl : SlotIx) (nx : NextAccess) (s : State) : (slotAccess sl nx s).ext = s.ext := by
  cases nx with
  | none => rfl
  | read => exact setSlot_ext sl _ s
  | write b => exact setSlot_ext sl _ s

theorem smpCommand_ext (sl : SlotIx) (c : Byte) (nx : NextAccess) (s : State) : (smpCommand sl c nx s).ext = s.ext :=
  (slotAccess_ext sl nx _).trans (setSlot_ext sl _ s)

theorem timerTick_ext (s : State) : (timerTick s).ext = s.ext := by unfold timerTick; split <;> rfl

theorem tick50Event_ext (s : State) : (tick50Event s).ext = s.ext := by unfold tick50Event; split <;> rfl

theorem doSoundEvent_ext (s : State) : (doSoundEvent s).ext = s.ext := by unfold doSoundEvent; split <;> rfl

/-- A completed host action leaves the latch as the state it was given has it. -/
theorem shift_of_hostAction {s t u : State} (h : hostAction s t = .next u) (he : t.ext = s.ext) :
    u.ext.shift = s.ext.shift := by
  obtain ⟨-, rfl⟩ := hostAction_next.mp h
  rw [he]

/-- Of the host actions, FRAME, KEY and RESET alone reach the controller. -/
theorem exec_hostAction_shift {i : Instr} {s t : State} (hi : isHostAction i = true) (h : exec i s = .next t)
    (hcpu : runsCpu i = false) (hkey : ∀ sc p, i ≠ .key sc p) (hreset : i ≠ .reset) : t.ext.shift = s.ext.shift := by
  cases i
  all_goals cases hi
  case frame => cases hcpu
  case key sc p => exact absurd rfl (hkey sc p)
  case reset => exact absurd rfl hreset
  case loadRom img =>
    obtain ⟨-, -, rfl⟩ := guardedHostAction_next.mp h
    rfl
  case loadRam bank buf =>
    obtain ⟨-, -, rfl⟩ := guardedHostAction_next.mp h
    rfl
  case load img =>
    obtain ⟨-, -, rfl⟩ := guardedHostAction_next.mp h
    rfl
  case video =>
    obtain ⟨-, -, rfl⟩ := guardedHostAction_next.mp h
    rfl
  case setConfig id => exact shift_of_hostAction h (setConfigId_ext id s)
  case attach sl img =>
    obtain ⟨a, x, hx⟩ := attachSlot_eq_setSlot sl img s
    exact shift_of_hostAction h (by rw [hx]; exact setSlot_ext sl x s)
  case detach sl => exact shift_of_hostAction h (setSlot_ext sl _ s)
  case bpAdd arr a => exact shift_of_hostAction h (setArray_ext arr _ s)
  case bpRemove arr a => exact shift_of_hostAction h (setArray_ext arr _ s)
  case bpClearAll arr => exact shift_of_hostAction h (clearArray_ext arr s)
  all_goals exact shift_of_hostAction h rfl

/-- The transactions, the controller's operations, the slots' and the scheduler's single events change the latch by a read
of the data port alone. -/
theorem exec_shift {i : Instr} {s t : State} (hi : isHostAction i = false) (h : exec i s = .next t)
    (hcpu : runsCpu i = false) (hkeep : ctrlDev s.ext.control ≠ 2#4 ∨ readsDataPort s.cfg i = false) :
    t.ext.shift = s.ext.shift := by
  have hbus (op : BusOp) (halt : Bool) (hop : i = busInstr op halt) :
      (busTransaction op halt s).ext.shift = s.ext.shift :=
    (BusEffect.of_busTransaction op halt s).shift (hkeep.imp_right fun hn => by rw [← hop, hn]; exact Bool.false_ne_true)
  have hslot (sl : SlotIx) (nx : NextAccess) : (slotAccess sl nx s).ext.shift = s.ext.shift := by rw [slotAccess_ext]
  have hsmp (sl : SlotIx) (c : Byte) (nx : NextAccess) : (smpCommand sl c nx s).ext.shift = s.ext.shift := by
    rw [smpCommand_ext]
  cases i
  all_goals cases hi
  case cpuExec => cases hcpu
  all_goals cases h
  case rdw a halt => exact hbus (.readWord a) halt rfl
  case rdb a halt => exact hbus (.readByte a) halt rfl
  case wrw a v halt => exact hbus (.writeWord a v) halt rfl
  case wrb a b halt => exact hbus (.writeByte a b) halt rfl
  case fetch a halt => exact hbus (.fetchWord a) halt rfl
  case portUnassigned a acc => exact (BusEffect.of_unassignedAccess (dataRead := False) a acc s).shift (.inr id)
  case extDataR => exact portAfterRead_shift (r := .extData) (.inl (hkeep.resolve_right nofun))
  case extDataW v => exact portAfterWrite_shift .extData v s
  case extCmdW v => exact portAfterWrite_shift .extCmd v s
  case smpRdDec low sl nx => exact hsmp sl _ nx
  case smpRdInc low sl nx => exact hsmp sl _ nx
  case smpWrAddr low sl nx => exact hsmp sl _ nx
  case smpWr20 low sl nx => exact hsmp sl _ nx
  case smpWrC0 low sl nx => exact hsmp sl _ nx
  case smpWrE0 low sl nx => exact hsmp sl _ nx
  case smpUndef op low sl nx => exact hsmp sl _ nx
  case slotWrCmd sl c => exact congrArg ExtDev.shift (setSlot_ext sl _ s)
  case slotRdData sl => exact hslot sl _
  case slotWrData sl b => exact hslot sl _
  case tTick => exact congrArg ExtDev.shift (timerTick_ext s)
  case tick50 => exact congrArg ExtDev.shift (tick50Event_ext s)
  case doSound => exact congrArg ExtDev.shift (doSoundEvent_ext s)
  all_goals rfl

/-- Settles O29: masked, the one request of `ExtComplete` is no call; and the latch is kept by every host action but KEY and
RESET, and by every other operation unless it reads the data port. -/
theorem maskSilencesTheControllerAndTheLatchKeeps : Obligations.MaskSilencesTheControllerAndTheLatchKeeps := by
  constructor
  · intro op halt s hmask
    obtain hnone | hfault | hext := (BusEffect.of_busTransaction op halt s).signals
    · exact .inl hnone
    · exact .inr hfault
    · exact .inl (hext.trans (extSignals_of_masked hmask))
  · intro i s t h hcpu hkeep hkey hreset
    cases hi : isHostAction i with
    | true => exact exec_hostAction_shift hi h hcpu hkey hreset
    | false => exact exec_shift hi h hcpu hkeep

end Sys2Proof.Machine

/-!
PROOF. The storage slots (R250 to R266): what a slot answers to its two data accesses by the command in force, the
storage commands on an attached and on an empty slot, the host's ATTACH, DETACH and ISATT, the image read back in order,
and the operations that leave the images alone.
-/
namespace Sys2Proof.Machine

/-! ### The two data accesses of a slot, by the command in force (R255 to R263) -/

/-- The data accesses of a slot: a read returns `r` and leaves `y`, a write of `b` leaves `z`. -/
structure Slot.Accesses (x : Slot) (b r : Byte) (y z : Slot) : Prop where
  readByte : x.readByte = r
  afterRead : x.afterRead = y
  afterWrite : x.afterWrite b = z

/-- Without a cartridge nothing is read and nothing is written. -/
theorem Slot.accesses_empty {x : Slot} (ha : x.attached = false) (b : Byte) : x.Accesses b smpEmpty x x where
  readByte := by rw [Slot.readByte, ha]; rfl
  afterRead := by rw [Slot.afterRead, ha]; rfl
  afterWrite := by rw [Slot.afterWrite, ha]; rfl

theorem Slot.accesses_rdDec {x : Slot} (ha : x.attached = true) (hop : cmdNibble x.command = 0x1#4) (b : Byte) :
    x.Accesses b x.byteAtCursor { x with cursor := x.cursorDown } x where
  readByte := by rw [Slot.readByte, ha, hop]; rfl
  afterRead := by rw [Slot.afterRead, ha, hop]; rfl
  afterWrite := by rw [Slot.afterWrite, ha, hop]; rfl

theorem Slot.accesses_rdInc {x : Slot} (ha : x.attached = true) (hop : cmdNibble x.command = 0xD#4) (b : Byte) :
    x.Accesses b x.byteAtCursor { x with cursor := x.cursorUp } x where
  readByte := by rw [Slot.readByte, ha, hop]; rfl
  afterRead := by rw [Slot.afterRead, ha, hop]; rfl
  afterWrite := by rw [Slot.afterWrite, ha, hop]; rfl

theorem Slot.accesses_wrAddr {x : Slot} (ha : x.attached = true) (hop : cmdNibble x.command = 0xA#4) (b : Byte) :
    x.Accesses b smpEmpty x { x with cursor := cursorShift x.cursor x.mask b } where
  readByte := by rw [Slot.readByte, ha, hop]; rfl
  afterRead := by rw [Slot.afterRead, ha, hop]; rfl
  afterWrite := Slot.afterWrite_wrAddr ha hop b

/-- Of the sixteen nibbles three are of a command that acts. -/
theorem smpOp_inert {n : BitVec 4} (hn : n ∉ [0x1#4, 0xD#4, 0xA#4]) :
    smpOp n = .wr20 ∨ smpOp n = .wrC0 ∨ smpOp n = .wrE0 ∨ smpOp n = .undef := by
  revert n; decide

/-- Under a reserved or undefined command a data access does nothing. -/
theorem Slot.accesses_inert {x : Slot} (ha : x.attached = true) (hop : cmdNibble x.command ∉ [0x1#4, 0xD#4, 0xA#4])
    (b : Byte) : x.Accesses b smpEmpty x x := by
  obtain h | h | h | h := smpOp_inert hop
  all_goals
    constructor
    · rw [Slot.readByte, ha, h]; rfl
    · rw [Slot.afterRead, ha, h]; rfl
    · rw [Slot.afterWrite, ha, h]; rfl

/-! ### The slot operations on the state (R254 to R256) -/

theorem exec_slotData {sl : SlotIx} {s t u : State} {b r : Byte} {y z : Slot} (h : (getSlot s sl).Accesses b r y z)
    (ht : setSlot sl y s = t) (hu : setSlot sl z s = u) :
    exec (.slotRdData sl) s = .next (answered (.byte r) t) ∧ exec (.slotWrData sl b) s = .next (answered .done u) := by
  rw [← ht, ← hu, ← h.readByte, ← h.afterRead, ← h.afterWrite]
  exact ⟨rfl, rfl⟩

/-- Settles O30: each clause is one row of the accesses. -/
theorem slotOperationsFollowTheCommandInForce : Obligations.SlotOperationsFollowTheCommandInForce := by
  rintro sl c b s _ rfl
  have hkept : setSlot sl (getSlot s sl) s = s := setSlot_getSlot sl s
  refine ⟨rfl, fun ha => ?empty, fun ha hop => ?rdDec, fun ha hop => ?rdInc, fun ha hop => ?wrAddr,
    fun ha hop => ?inert⟩
  case empty => exact exec_slotData (Slot.accesses_empty ha b) hkept hkept
  case rdDec => exact exec_slotData (Slot.accesses_rdDec ha hop b) rfl hkept
  case rdInc => exact exec_slotData (Slot.accesses_rdInc ha hop b) rfl hkept
  case wrAddr => exact exec_slotData (Slot.accesses_wrAddr ha hop b) hkept rfl
  case inert => exact exec_slotData (Slot.accesses_inert ha hop b) hkept hkept

/-! ### The storage commands (R106, R257 to R263) -/

theorem Slot.writeCommand_attached {x : Slot} (ha : x.attached = true) (c : Byte) :
    x.writeCommand c = { x with command := c } := if_pos ha

theorem Slot.writeCommand_empty {x : Slot} (ha : x.attached = false) (c : Byte) : x.writeCommand c = x :=
  if_neg (by rw [ha]; exact Bool.false_ne_true)

/-- The seven storage commands with their top nibbles (R106, R119). -/
def smpRows (op low : BitVec 4) (sl : SlotIx) : List ((NextAccess → Instr) × BitVec 4) :=
  [(.smpRdDec low sl, 0x1#4), (.smpRdInc low sl, 0xD#4), (.smpWrAddr low sl, 0xA#4), (.smpWr20 low sl, 0x2#4),
    (.smpWrC0 low sl, 0xC#4), (.smpWrE0 low sl, 0xE#4), (.smpUndef op low sl, op)]

theorem smpRdDec_mem_smpRows (op low : BitVec 4) (sl : SlotIx) : (Instr.smpRdDec low sl, 0x1#4) ∈ smpRows op low sl :=
  .head _

theorem smpRdInc_mem_smpRows (op low : BitVec 4) (sl : SlotIx) : (Instr.smpRdInc low sl, 0xD#4) ∈ smpRows op low sl :=
  .tail _ (.head _)

theorem smpWrAddr_mem_smpRows (op low : BitVec 4) (sl : SlotIx) : (Instr.smpWrAddr low sl, 0xA#4) ∈ smpRows op low sl :=
  .tail _ (.tail _ (.head _))

theorem exec_smpRow {op low n : BitVec 4} {sl : SlotIx} {i : NextAccess → Instr} (h : (i, n) ∈ smpRows op low sl)
    (nx : NextAccess) (s : State) : exec (i nx) s = .next (smpCommand sl (n ++ low) nx s) := by
  simp only [smpRows, List.mem_cons, List.not_mem_nil, or_false, Prod.mk.injEq] at h
  obtain ⟨rfl, rfl⟩ | ⟨rfl, rfl⟩ | ⟨rfl, rfl⟩ | ⟨rfl, rfl⟩ | ⟨rfl, rfl⟩ | ⟨rfl, rfl⟩ | ⟨rfl, rfl⟩ := h
  all_goals rfl

/-- What a command stimulus does is what the slot's data accesses do once it holds the command. -/
theorem exec_smpRow_accesses {op low n : BitVec 4} {sl : SlotIx} {i : NextAccess → Instr} {s : State} {b r : Byte}
    {w y z : Slot} (hi : (i, n) ∈ smpRows op low sl) (hw : (getSlot s sl).writeCommand (n ++ low) = w)
    (h : w.Accesses b r y z) :
    exec (i .none) s = .next (answered .done (setSlot sl w s)) ∧
    exec (i .read) s = .next (answered (.byte r) (setSlot sl y s)) ∧
    exec (i (.write b)) s = .next (answered .done (setSlot sl z s)) := by
  have hread : slotAccess sl .read (setSlot sl w s) = answered (.byte r) (setSlot sl y s) := by
    rw [slotAccess, slotReadData, getSlot_setSlot, setSlot_setSlot, h.readByte, h.afterRead]
  have hwrite : slotAccess sl (.write b) (setSlot sl w s) = answered .done (setSlot sl z s) := by
    rw [slotAccess, slotWriteData, getSlot_setSlot, setSlot_setSlot, h.afterWrite]
  simp only [exec_smpRow hi, smpCommand, slotWriteCommand, hw, hread, hwrite, and_self, and_true]
  rfl

theorem cmdNibble_append (n low : BitVec 4) : cmdNibble (n ++ low) = n := cmdNibble_cmdByte n low

/-- Settles O31: the three rows that act, each under its own nibble. -/
theorem readAndAddressCommandsActAtTheCursor : Obligations.ReadAndAddressCommandsActAtTheCursor := by
  rintro low sl b s _ rfl ha
  have hw (c : Byte) := Slot.writeCommand_attached ha c
  obtain ⟨hd, hdRead, hdWrite⟩ := exec_smpRow_accesses (smpRdDec_mem_smpRows 0#4 low sl) (hw _)
    (Slot.accesses_rdDec (x := { getSlot s sl with command := 0x1#4 ++ low }) ha (cmdNibble_append _ _) b)
  obtain ⟨hu, huRead, huWrite⟩ := exec_smpRow_accesses (smpRdInc_mem_smpRows 0#4 low sl) (hw _)
    (Slot.accesses_rdInc (x := { getSlot s sl with command := 0xD#4 ++ low }) ha (cmdNibble_append _ _) b)
  obtain ⟨hc, hcRead, hcWrite⟩ := exec_smpRow_accesses (smpWrAddr_mem_smpRows 0#4 low sl) (hw _)
    (Slot.accesses_wrAddr (x := { getSlot s sl with command := 0xA#4 ++ low }) ha (cmdNibble_append _ _) b)
  exact ⟨hd, hdRead, hdWrite, hu, huRead, huWrite, hc, hcRead, hcWrite⟩

/-- A nibble of SMP.UNDEF is not that of a command that acts (R119, R263). -/
theorem not_mem_of_smpOp_undef {n : BitVec 4} (h : smpOp n = .undef) : n ∉ [0x1#4, 0xD#4, 0xA#4] := by
  revert n; decide

/-- Settles O32: the four rows are rows of the table, and none of their nibbles acts. -/
theorem reservedAndUndefinedCommandsDoNothing : Obligations.ReservedAndUndefinedCommandsDoNothing := by
  rintro c op low sl b s _ i n rfl ha hrow hwf
  have hmem : (i, n) ∈ smpRows op low sl := .tail _ (.tail _ (.tail _ hrow))
  have hn : n ∉ [0x1#4, 0xD#4, 0xA#4] := by
    simp only [List.mem_cons, List.not_mem_nil, or_false, Prod.mk.injEq] at hrow
    obtain ⟨-, rfl⟩ | ⟨-, rfl⟩ | ⟨-, rfl⟩ | ⟨rfl, rfl⟩ := hrow
    case inr.inr.inr => exact not_mem_of_smpOp_undef (eq_of_beq hwf)
    all_goals decide
  exact exec_smpRow_accesses hmem (Slot.writeCommand_attached ha _)
    (Slot.accesses_inert (x := { getSlot s sl with command := n ++ low }) ha (by rwa [cmdNibble_append]) b)

/-- Settles O33: an empty slot drops the command, and its accesses do nothing. -/
theorem commandsToAnEmptySlotAreDropped : Obligations.CommandsToAnEmptySlotAreDropped := by
  intro op low sl b s i ha hi
  obtain ⟨⟨i, n⟩, hrow, rfl⟩ := List.mem_map.mp (show i ∈ (smpRows op low sl).map Prod.fst from hi)
  have hrun := exec_smpRow_accesses hrow (Slot.writeCommand_empty ha _) (Slot.accesses_empty ha b)
  rwa [setSlot_getSlot] at hrun

/-! ### The host's operations on a slot (R251 to R253) -/

theorem exec_attach_of_le {s : State} (hf : s.frame = none) {img : List Byte} (hl : img.length ≤ smpMax) (sl : SlotIx) :
    exec (.attach sl (some img)) s =
      .next (answered (.bool true) (setSlot sl ⟨true, img, 0xFFFF#24, 0#24, 0#8⟩ s)) := by
  rw [← maskForSize_of_le hl]
  exact (hostAction_of_none hf).trans (congrArg _ (if_neg (Nat.not_lt.mpr hl)))

/-- Settles O36: the image by its length, and the file that cannot be opened. -/
theorem attachReplacesTheSlotOrChangesNothing : Obligations.AttachReplacesTheSlotOrChangesNothing := by
  intro sl img s hf
  refine ⟨fun hl => exec_attach_of_le hf hl sl, fun hl => ?_, hostAction_of_none hf⟩
  exact (hostAction_of_none hf).trans (congrArg _ (if_pos hl))

/-- Settles O37: between frames both host actions are taken. -/
theorem detachEmptiesTheSlotAndQueryAnswers : Obligations.DetachEmptiesTheSlotAndQueryAnswers :=
  fun _ _ hf => ⟨hostAction_of_none hf, hostAction_of_none hf⟩

/-! ### An image read back in order (R264) -/

theorem runInstrs_append {is : List Instr} {s t : State} (h : runInstrs is s = some t) (js : List Instr) :
    runInstrs (is ++ js) s = runInstrs js t := by
  induction is generalizing s with
  | nil => cases h; rfl
  | cons i is ih =>
    rw [runInstrs] at h
    rw [List.cons_append, runInstrs]
    split at h
    · exact ih h
    · cases h
    · cases h

theorem slotWrCmd_completes {sl : SlotIx} {s : State} (ha : (getSlot s sl).attached = true) (c : Byte) :
    ∃ t, exec (.slotWrCmd sl c) s = .next t ∧ getSlot t sl = { getSlot s sl with command := c } :=
  ⟨_, rfl, by rw [getSlot_answered, slotWriteCommand, getSlot_setSlot, Slot.writeCommand_attached ha]⟩

/-- One command and data pair shifts the data byte into the cursor (R113, R259). -/
theorem addressPair_completes {sl : SlotIx} {s : State} (ha : (getSlot s sl).attached = true) (b : Byte) :
    ∃ t, runInstrs [.slotWrCmd sl 0xA0#8, .slotWrData sl b] s = some t ∧ getSlot t sl = { getSlot s sl with
      command := 0xA0#8, cursor := cursorShift (getSlot s sl).cursor (getSlot s sl).mask b } := by
  obtain ⟨t, ht, hslot⟩ := slotWrCmd_completes ha 0xA0#8
  obtain ⟨u, hu, hslot'⟩ := slotWrData_wrAddr_completes (s := t) (sl := sl) (by rw [hslot]; exact ha)
    (by rw [hslot]; exact cmdNibble_append 0xA#4 0x0#4) b
  exact ⟨u, (runInstrs_cons ht _).trans (runInstrs_cons hu []), by rw [hslot', hslot]⟩

/-- A slot that holds `img` under the small mask, stands at byte `n` and is read upwards (R258). -/
def readingAt (img : List Byte) (n : Nat) : Slot := ⟨true, img, 0xFFFF#24, BitVec.ofNat 24 n, 0xD0#8⟩

theorem readingAt_cursor_toNat (img : List Byte) {n : Nat} (hn : n ≤ 0xFFFF) : (readingAt img n).cursor.toNat = n :=
  Nat.mod_eq_of_lt (by omega)

/-- The cursor does not wrap under the small mask below 0xFFFF. -/
theorem readingAt_cursorUp (img : List Byte) {n : Nat} (hn : n < 0xFFFF) :
    (readingAt img n).cursorUp = BitVec.ofNat 24 (n + 1) := by
  have hsucc : (readingAt img n).cursor + 1#24 = BitVec.ofNat 24 (n + 1) := (BitVec.ofNat_add n 1).symm
  have hmask : (n + 1) &&& (2 ^ 16 - 1) = n + 1 := by
    rw [Nat.and_two_pow_sub_one_eq_mod, Nat.mod_eq_of_lt (by omega)]
  rw [Slot.cursorUp, hsucc]
  exact BitVec.ofNat_and.symm.trans (congrArg _ hmask)

theorem readingAt_accesses (img : List Byte) {n : Nat} (hn : n < 0xFFFF) (b : Byte) :
    (readingAt img n).Accesses b (img.getD n 0xFF#8) (readingAt img (n + 1)) (readingAt img n) := by
  have h := Slot.accesses_rdInc (x := readingAt img n) rfl (cmdNibble_append 0xD#4 0x0#4) b
  rw [readingAt_cursorUp img hn] at h
  have hbyte : (readingAt img n).byteAtCursor = img.getD n 0xFF#8 :=
    congrArg (img.getD · 0xFF#8) (readingAt_cursor_toNat img (Nat.le_of_lt hn))
  rwa [hbyte] at h

theorem slotRdData_completes {sl : SlotIx} {s : State} {img : List Byte} {n : Nat} (h : getSlot s sl = readingAt img n)
    (hn : n < 0xFFFF) : ∃ t, exec (.slotRdData sl) s = .next t ∧ t.out.answer = .byte (img.getD n 0xFF#8) ∧
      getSlot t sl = readingAt img (n + 1) :=
  ⟨_, (exec_slotData (h ▸ readingAt_accesses img hn 0#8) rfl rfl).1, rfl, by rw [getSlot_answered, getSlot_setSlot]⟩

/-- From byte `n` on, the read number `k` answers byte `n + k`. -/
theorem runInstrs_replicate_slotRdData {sl : SlotIx} {s : State} {img : List Byte} {n : Nat} (k : Nat)
    (h : getSlot s sl = readingAt img n) (hn : n + k < 0xFFFF) :
    ∃ t, runInstrs (List.replicate (k + 1) (.slotRdData sl)) s = some t ∧
      t.out.answer = .byte (img.getD (n + k) 0xFF#8) ∧ getSlot t sl = readingAt img (n + k + 1) := by
  induction k generalizing n s with
  | zero =>
    obtain ⟨t, ht, hans, hslot⟩ := slotRdData_completes h hn
    exact ⟨t, runInstrs_cons ht [], hans, hslot⟩
  | succ k ih =>
    obtain ⟨t, ht, -, hslot⟩ := slotRdData_completes h (by omega)
    rw [List.replicate_succ, runInstrs_cons ht, show n + (k + 1) = n + 1 + k by omega]
    exact ih hslot (by omega)

/-- The prelude of R264 leaves the slot at byte 0, to be read upwards. -/
theorem attachAtZero_completes {s : State} (hf : s.frame = none) {img : List Byte} (hl : img.length ≤ smpMax)
    (sl : SlotIx) : ∃ t, runInstrs [.attach sl (some img), .slotWrCmd sl 0xA0#8, .slotWrData sl 0x00#8,
      .slotWrCmd sl 0xA0#8, .slotWrData sl 0x00#8, .slotWrCmd sl 0xD0#8] s = some t ∧
      getSlot t sl = readingAt img 0 := by
  rw [runInstrs_cons (exec_attach_of_le hf hl sl)]
  obtain ⟨t, ht, hslot⟩ := addressPair_completes (sl := sl)
    (s := answered (.bool true) (setSlot sl ⟨true, img, 0xFFFF#24, 0#24, 0#8⟩ s)) (by simp) 0#8
  obtain ⟨u, hu, hslot'⟩ := addressPair_completes (s := t) (sl := sl) (by simp [hslot]) 0#8
  obtain ⟨v, hv, hslot''⟩ := slotWrCmd_completes (s := u) (sl := sl) (by simp [hslot', hslot]) 0xD0#8
  refine ⟨v, (runInstrs_append ht _).trans ((runInstrs_append hu _).trans (runInstrs_cons hv [])), ?_⟩
  simp [hslot'', hslot', hslot, readingAt, cursorShift]

/-- Settles O34: the prelude, then the reads by induction on their number. -/
theorem cartridgeReadsBackItsImageInOrder : Obligations.CartridgeReadsBackItsImageInOrder := by
  intro img sl s k hf hl hk
  obtain ⟨t, ht, hslot⟩ := attachAtZero_completes hf hl sl
  obtain ⟨u, hu, hans, hslot'⟩ := runInstrs_replicate_slotRdData k hslot (by omega)
  rw [Nat.zero_add] at hans hslot'
  exact ⟨u, (runInstrs_append ht _).trans hu, hans, by rw [hslot', readingAt_cursor_toNat img (by omega)],
    by rw [hslot']; rfl⟩

/-! ### The operations that leave the images alone (R250, R266) -/

/-- A completed host action leaves a slot as the state it was given has it. -/
theorem getSlot_of_hostAction {s t u : State} {sl : SlotIx} (e : hostAction s t = .next u)
    (h : getSlot t sl = getSlot s sl) : getSlot u sl = getSlot s sl :=
  (hostAction_next.mp e).2 ▸ h

theorem getSlot_setArray (arr : BpArray) (xs : List Word) (s : State) (sl : SlotIx) :
    getSlot (setArray arr xs s) sl = getSlot s sl :=
  getSlot_congr (setArray_slot0 arr xs s) (setArray_slot1 arr xs s) sl

theorem getSlot_clearArray (arr : BpArray) (s : State) (sl : SlotIx) : getSlot (clearArray arr s) sl = getSlot s sl :=
  getSlot_congr (clearArray_slot0 arr s) (clearArray_slot1 arr s) sl

/-- Of the operations with which the host writes state of its own, ATTACH and DETACH alone write a slot. -/
theorem exec_hostWrites_getSlot {i : Instr} {s t : State} (hw : hostWrites i = true) (hi : changesImages i = false)
    (h : exec i s = .next t) (sl : SlotIx) : getSlot t sl = getSlot s sl := by
  cases i
  all_goals cases hw
  case attach => cases hi
  case detach => cases hi
  case loadRom img =>
    obtain ⟨-, -, rfl⟩ := guardedHostAction_next.mp h
    exact getSlot_loadRomImage img s sl
  case loadRam bank buf =>
    obtain ⟨-, -, rfl⟩ := guardedHostAction_next.mp h
    exact getSlot_loadRamBytes (ramBankBase s.cfg bank) buf s sl
  case load img =>
    obtain ⟨-, -, rfl⟩ := guardedHostAction_next.mp h
    exact getSlot_congr rfl rfl sl
  case setConfig id => exact getSlot_of_hostAction h (getSlot_setConfigId id s sl)
  case bpAdd arr a => exact getSlot_of_hostAction h (getSlot_setArray arr _ s sl)
  case bpRemove arr a => exact getSlot_of_hostAction h (getSlot_setArray arr _ s sl)
  case bpClearAll arr => exact getSlot_of_hostAction h (getSlot_clearArray arr s sl)
  all_goals exact getSlot_of_hostAction h (getSlot_congr rfl rfl sl)

/-- Settles O35: transactions and the events of a frame move the cursor and the command at most, and the host's other
writes leave the slots. -/
theorem imagesChangeOnlyByAttachAndDetach : Obligations.ImagesChangeOnlyByAttachAndDetach := by
  intro i s t sl h hi
  cases hw : hostWrites i with
  | false =>
    have hkeeps := (exec_keeps hw h).slot sl
    exact ⟨hkeeps.buf, hkeeps.attached, hkeeps.mask⟩
  | true =>
    rw [exec_hostWrites_getSlot hw hi h sl]
    exact ⟨rfl, rfl, rfl⟩

end Sys2Proof.Machine

/-!
PROOF. The events of the scheduler, each run alone (R282, R283, R285 to R287): the timer's prescaler and primary counter
and their arithmetic over many ticks, the 50 Hz event, the sound event, the breakpoint compare, one Execute of the CPU.
-/
namespace Sys2Proof.Machine

/-! ### The timer (R285, R116) -/

/-- The decrement of R285 ends at zero exactly from 1 and from an expired prescaler. -/
theorem preStep_eq_zero_iff (x : Sound) : preStep x = 0#8 ↔ x.tonePre = 0#8 ∨ x.tonePre = 1#8 := by
  unfold preStep
  split
  · next h => simp [h]
  · next h =>
    rw [or_iff_right h]
    constructor <;> intro h' <;> bv_omega

theorem timerTick_of_expiring {s : State} (h : s.snd.tonePre = 0#8 ∨ s.snd.tonePre = 1#8) :
    timerTick s = { s with snd := { s.snd with
      tonePre := prescalerReload (octave s.cfg s.snd.ctl), toneCnt := toneStep s.snd } } :=
  if_pos ((preStep_eq_zero_iff s.snd).mpr h)

theorem timerTick_of_running {s : State} (h : ¬ (s.snd.tonePre = 0#8 ∨ s.snd.tonePre = 1#8)) :
    timerTick s = { s with snd := { s.snd with tonePre := s.snd.tonePre - 1#8 } } := by
  have hpre : preStep s.snd = s.snd.tonePre - 1#8 := if_neg fun e => h (.inl e)
  rw [timerTick, if_neg fun e => h ((preStep_eq_zero_iff s.snd).mp e), hpre]

theorem prescalerReload_eq_ofNat {n : Nat} (h : n < 8) : prescalerReload n = BitVec.ofNat 8 (2 ^ n) := by
  rw [← prescalerReload_toNat h, BitVec.ofNat_toNat, BitVec.setWidth_eq]

/-- Settles O38: the prescaler expires in this tick, or runs on. -/
theorem timerTickStepsThePrescalerAndCounter : Obligations.TimerTickStepsThePrescalerAndCounter := by
  intro s
  have hexec : exec .tTick s = .next (answered .done (timerTick s)) := rfl
  rw [hexec]
  by_cases h : s.snd.tonePre = 0#8 ∨ s.snd.tonePre = 1#8
  · rw [timerTick_of_expiring h, prescalerReload_eq_ofNat (octave_lt _ _), if_pos h, if_pos h]
    rfl
  · rw [timerTick_of_running h, if_neg h, if_neg h]

/-- One step of the primary counter's cycle: down to 0, then the reload value (R285). -/
def counterStep (reload x : Word) : Word := if x = 0#16 then reload else x - 1#16

/-- `t` is `s`, whose prescaler had expired, after `n + 1` ticks: where its prescaler and counter stand, and what they
read that no tick changes. -/
structure TickedFrom (s t : State) (n : Nat) : Prop where
  cfg : t.cfg = s.cfg
  ctl : t.snd.ctl = s.snd.ctl
  reload : t.snd.reload = s.snd.reload
  tonePre : t.snd.tonePre.toNat = 2 ^ octave s.cfg s.snd.ctl - n % 2 ^ octave s.cfg s.snd.ctl
  toneCnt : t.snd.toneCnt = (counterStep s.snd.reload)^[n / 2 ^ octave s.cfg s.snd.ctl + 1] s.snd.toneCnt

theorem TickedFrom.zero {s : State} (h : s.snd.tonePre = 0#8) : TickedFrom s (timerTick s) 0 := by
  rw [timerTick_of_expiring (.inl h)]
  exact ⟨rfl, rfl, rfl, by rw [Nat.zero_mod]; exact prescalerReload_toNat (octave_lt _ _), by rw [Nat.zero_div]; rfl⟩

/-- The last tick of a period carries into the quotient, every other one counts the remainder up. -/
theorem succ_div_mod_cases {p : Nat} (hp : 0 < p) (n : Nat) :
    (p - n % p = 1 ∧ (n + 1) % p = 0 ∧ (n + 1) / p = n / p + 1) ∨
    (p - n % p ≠ 1 ∧ (n + 1) % p = n % p + 1 ∧ (n + 1) / p = n / p) := by
  have hlt := Nat.mod_lt n hp
  have hn := Nat.div_add_mod n p
  by_cases h : n % p + 1 = p
  · have hmul : n + 1 = p * (n / p + 1) := by rw [Nat.mul_succ]; omega
    exact .inl ⟨by omega, by rw [hmul, Nat.mul_mod_right], by rw [hmul, Nat.mul_div_cancel_left _ hp]⟩
  · have hadd : n + 1 = p * (n / p) + (n % p + 1) := by omega
    have hlt' : n % p + 1 < p := by omega
    refine .inr ⟨by omega, ?_, ?_⟩
    · rw [hadd, Nat.mul_add_mod, Nat.mod_eq_of_lt hlt']
    · rw [hadd, Nat.mul_add_div hp, Nat.div_eq_of_lt hlt', Nat.add_zero]

theorem TickedFrom.succ {s t : State} {n : Nat} (h : TickedFrom s t n) : TickedFrom s (timerTick t) (n + 1) := by
  have hpos : 0 < 2 ^ octave s.cfg s.snd.ctl := Nat.two_pow_pos _
  have hlt := Nat.mod_lt n hpos
  have hpre := h.tonePre
  obtain ⟨hone, hmod, hdiv⟩ | ⟨hone, hmod, hdiv⟩ := succ_div_mod_cases hpos n
  · have hexp : t.snd.tonePre = 1#8 := BitVec.eq_of_toNat_eq (hpre.trans hone)
    rw [timerTick_of_expiring (.inr hexp)]
    refine ⟨h.cfg, h.ctl, h.reload, ?_, ?_⟩
    · rw [hmod]
      change (prescalerReload (octave t.cfg t.snd.ctl)).toNat = _
      rw [h.cfg, h.ctl, prescalerReload_toNat (octave_lt _ _), Nat.sub_zero]
    · rw [hdiv, Function.iterate_succ_apply', ← h.toneCnt, ← h.reload]
      rfl
  · have hrun : ¬ (t.snd.tonePre = 0#8 ∨ t.snd.tonePre = 1#8) := by
      rintro (e | e) <;> rw [e] at hpre <;> simp only [BitVec.toNat_ofNat] at hpre <;> omega
    rw [timerTick_of_running hrun]
    refine ⟨h.cfg, h.ctl, h.reload, ?_, by rw [hdiv]; exact h.toneCnt⟩
    have hdec : (t.snd.tonePre - 1#8).toNat = t.snd.tonePre.toNat - 1 := by bv_omega
    rw [hmod]
    exact hdec.trans (by omega)

theorem tickedFrom_iterate {s : State} (h : s.snd.tonePre = 0#8) (n : Nat) : TickedFrom s (timerTick^[n + 1] s) n := by
  induction n with
  | zero => exact .zero h
  | succ n ih => rw [Function.iterate_succ_apply']; exact ih.succ

/-- Settles O39, by induction on the ticks after the first. -/
theorem primaryCounterStepsOnceEveryPrescalerPeriod : Obligations.PrimaryCounterStepsOnceEveryPrescalerPeriod :=
  fun n _ h => ⟨(tickedFrom_iterate h n).tonePre, (tickedFrom_iterate h n).toneCnt⟩

/-! ### The 50 Hz event (R286) -/

/-- Settles O40: with the gate of EVNT open, and with it closed. -/
theorem tick50RaisesEvntAndStepsTheSecondaryCounter : Obligations.Tick50RaisesEvntAndStepsTheSecondaryCounter := by
  intro s
  have hexec : exec .tick50 s = .next (answered .done (tick50Event s)) := rfl
  rw [hexec, tick50Event, gen50]
  split <;> rfl

/-! ### The sound event (R287, R115) -/

theorem doSoundEvent_of_none {s : State} (h : s.soundCb = none) : doSoundEvent s = s := by
  rw [doSoundEvent, h]

theorem doSoundEvent_of_some {s : State} {cb : Word} (h : s.soundCb = some cb) :
    doSoundEvent s = emit (.soundCb cb (soundOut s) (soundOut s)) s := by
  rw [doSoundEvent, h]

/-- The gate of R287: the sound on, neither field 0, and the counter below half the reload value. -/
theorem soundActive_iff (s : State) : soundActive s = true ↔
    s.soundOn = true ∧ volume s.cfg s.snd.ctl ≠ 0 ∧ octave s.cfg s.snd.ctl ≠ 0 ∧
      s.snd.toneCnt.toNat < s.snd.reload.toNat / 2 := by
  simp [soundActive, Nat.shiftRight_eq_div_pow, and_assoc]

theorem soundOut_of_active {s : State} (h : soundActive s = true) : soundOut s = soundLevel (volume s.cfg s.snd.ctl) :=
  if_pos h

theorem soundOut_of_silent {s : State} (h : ¬ soundActive s = true) : soundOut s = 0#16 := if_neg h

/-- Settles O41: without a callback, and with one by the gate. -/
theorem doSoundCallsTheCallbackWithTheGatedLevel : Obligations.DoSoundCallsTheCallbackWithTheGatedLevel := by
  intro s
  have hexec : exec .doSound s = .next (answered .done (doSoundEvent s)) := rfl
  rw [hexec]
  refine ⟨fun hnone => by rw [doSoundEvent_of_none hnone], fun cb hcb => ⟨fun hsilent => ?_, fun hon hvol hoct hlt => ?_⟩⟩
  · have hgate : ¬ soundActive s = true := by
      rw [soundActive_iff]
      rintro ⟨hon, hvol, hoct, hlt⟩
      obtain h | h | h | h := hsilent
      · exact absurd (h.symm.trans hon) Bool.false_ne_true
      · exact hvol h
      · exact hoct h
      · exact h hlt
    rw [doSoundEvent_of_some hcb, soundOut_of_silent hgate]
  · rw [doSoundEvent_of_some hcb, soundOut_of_active ((soundActive_iff s).mpr ⟨hon, hvol, hoct, hlt⟩)]
    rfl

/-! ### The breakpoint compare (R283) -/

theorem breakpointHit_iff (s : State) :
    breakpointHit s = true ↔ s.cpu.pc ≠ 0xFFFF#16 ∧ s.cpu.pc ∈ breakpointSet s := by
  simp [breakpointHit, bpSentinel]

/-- Settles O42. -/
theorem breakpointCheckComparesTheProgramCounter : Obligations.BreakpointCheckComparesTheProgramCounter := by
  intro s
  have hhit : breakpointHit s = decide (s.cpu.pc ≠ 0xFFFF#16 ∧ s.cpu.pc ∈ breakpointSet s) :=
    Bool.eq_iff_iff.mpr ((breakpointHit_iff s).trans (decide_eq_true_iff).symm)
  exact congrArg (fun b => Host.Outcome.next (answered (.bool b) s)) hhit

/-! ### One Execute of the CPU (R282, R45) -/

theorem cpuExecute_of_script {s : State} {x : CpuExec} {xs : List CpuExec} (h : s.cpu.script = x :: xs) :
    cpuExecute s = setCpuAfter x
      (x.txns.foldl cpuTransaction (emit .cpuExecute { s with cpu := { s.cpu with script := xs } })) := by
  simp only [cpuExecute, nextExec, takeExec, h]

theorem cpuExecute_of_drawn {s : State} (h : s.cpu.script = []) :
    cpuExecute s = setCpuAfter (Config.cpuExecute s.out.draws)
      ((Config.cpuExecute s.out.draws).txns.foldl cpuTransaction (emit .cpuExecute (drawn s))) := by
  simp only [cpuExecute, nextExec, takeExec, h]

theorem exec_busInstr (op : BusOp) (halt : Bool) (s : State) :
    exec (busInstr op halt) s = .next (busTransaction op halt s) := by
  cases op <;> rfl

/-- Settles O43: the script's head, a free value past its end, and each transaction the operation of its kind. -/
theorem execRunsOneExecuteOfTheCpu : Obligations.ExecRunsOneExecuteOfTheCpu := by
  intro s x xs
  have hexec : exec .cpuExec s = .next (answered .done (cpuExecute s)) := rfl
  rw [hexec]
  refine ⟨fun hscript => ⟨_, rfl, ?_⟩, fun hscript => ⟨_, _, rfl, rfl, ?_⟩, fun op => ⟨_, exec_busInstr op _ s, rfl⟩⟩
  · rw [cpuExecute_of_script hscript]
    rfl
  · rw [cpuExecute_of_drawn hscript]
    rfl

end Sys2Proof.Machine

/-!
PROOF. The frame (R281, R288 to R290): the loop against its list of events, the list's counts, where a stopped frame
ends, and the Executes of a frame without breakpoints.
-/
namespace Sys2Proof.Machine

/-! ### The loop runs the list (R281, R289) -/

/-- The events of frametick `t` after its subticks (R289). -/
def closingEvents (c : Config) (t : Nat) : List Event :=
  (if t = 0 ∨ t = tick50Second then [.tick50] else []) ++ (if t % audioPeriod c = 0 then [.dosound] else [])

theorem tickEvents_eq (c : Config) (t : Nat) : tickEvents c t = subtickEvents t ++ closingEvents c t :=
  List.append_assoc _ _ _

theorem runEvents_of_stop {e : Event} {s : State} (h : (runEvent e s).1 = true) (es : List Event) :
    runEvents (e :: es) s = (true, [e], (runEvent e s).2) := if_pos h

theorem runEvents_of_go {e : Event} {s : State} (h : (runEvent e s).1 = false) (es : List Event) :
    runEvents (e :: es) s = ((runEvents es (runEvent e s).2).1, e :: (runEvents es (runEvent e s).2).2.1,
      (runEvents es (runEvent e s).2).2.2) := by
  rw [runEvents, h]
  rfl

theorem runEvents_append_of_stop {l : List Event} {s : State} (h : (runEvents l s).1 = true) (m : List Event) :
    runEvents (l ++ m) s = runEvents l s := by rw [runEvents_append, if_pos h]

theorem runEvents_append_of_go {l : List Event} {s : State} (h : (runEvents l s).1 = false) (m : List Event) :
    runEvents (l ++ m) s = ((runEvents m (runEvents l s).2.2).1,
      (runEvents l s).2.1 ++ (runEvents m (runEvents l s).2.2).2.1, (runEvents m (runEvents l s).2.2).2.2) := by
  rw [runEvents_append, h]
  rfl

/-- The events after the subticks never stop the frame, and do what the loop does there. -/
theorem runEvents_closingEvents (t : Nat) (s : State) :
    runEvents (closingEvents s.cfg t) s = (false, closingEvents s.cfg t, afterSubticks t s) := by
  have hcfg : (tick50Event s).cfg = s.cfg := (tick50Event_keeps s).cfg
  unfold closingEvents afterSubticks
  by_cases h50 : t = 0 ∨ t = tick50Second <;> by_cases haudio : t % audioPeriod s.cfg = 0 <;>
    simp [h50, haudio, hcfg, runEvents, runEvent]

theorem runEvents_subtickEvents (t : Nat) (s : State) :
    (runEvents (subtickEvents t) s).1 = (runSubticks subTicks t 0 s).1 ∧
    (runEvents (subtickEvents t) s).2.2 = (runSubticks subTicks t 0 s).2 := by
  rw [subtickEvents, List.range_eq_range']
  exact runEvents_subticks subTicks t 0 s

/-- A frametick that runs on leaves what the loop hands to the next one. -/
theorem runEvents_tickEvents_of_go {t : Nat} {s : State} (h : (runEvents (subtickEvents t) s).1 = false) :
    (runEvents (tickEvents s.cfg t) s).1 = false ∧
    (runEvents (tickEvents s.cfg t) s).2.2 = afterSubticks t (runSubticks subTicks t 0 s).2 := by
  have hcfg : (runSubticks subTicks t 0 s).2.cfg = s.cfg := (runSubticks_keeps _ _ _ s).cfg
  rw [tickEvents_eq, runEvents_append_of_go h, (runEvents_subtickEvents t s).2, ← hcfg, runEvents_closingEvents]
  exact ⟨rfl, rfl⟩

theorem runEvents_tickEvents_of_stop {c : Config} {t : Nat} {s : State} (h : (runEvents (subtickEvents t) s).1 = true) :
    runEvents (tickEvents c t) s = runEvents (subtickEvents t) s := by
  rw [tickEvents_eq, runEvents_append_of_stop h]

theorem runTicks_succ_of_stop {t : Nat} {s : State} (h : (runSubticks subTicks t 0 s).1 = true) (n : Nat) :
    runTicks (n + 1) t s = (true, (runSubticks subTicks t 0 s).2) := by
  rw [runTicks]
  split
  · next e => rw [e]
  · next e => rw [e] at h; cases h

theorem runTicks_succ_of_go {t : Nat} {s : State} (h : (runSubticks subTicks t 0 s).1 = false) (n : Nat) :
    runTicks (n + 1) t s = runTicks n (t + 1) (afterSubticks t (runSubticks subTicks t 0 s).2) := by
  rw [runTicks]
  split
  · next e => rw [e] at h; cases h
  · next e => rw [e]

/-- The outer loop is the run of its frameticks. -/
theorem runEvents_ticks (n t : Nat) (s : State) :
    (runEvents ((List.range' t n).flatMap (tickEvents s.cfg)) s).1 = (runTicks n t s).1 ∧
    (runEvents ((List.range' t n).flatMap (tickEvents s.cfg)) s).2.2 = (runTicks n t s).2 := by
  induction n generalizing t s with
  | zero => exact ⟨rfl, rfl⟩
  | succ n ih =>
    obtain ⟨hstop, hstate⟩ := runEvents_subtickEvents t s
    rw [List.range'_succ, List.flatMap_cons]
    cases hrun : (runEvents (subtickEvents t) s).1 with
    | true =>
      have htick := runEvents_tickEvents_of_stop (c := s.cfg) hrun
      rw [runEvents_append_of_stop (by rw [htick, hrun]), htick, runTicks_succ_of_stop (hstop ▸ hrun)]
      exact ⟨hrun, hstate⟩
    | false =>
      obtain ⟨hgo, hnext⟩ := runEvents_tickEvents_of_go hrun
      have hcfg : (afterSubticks t (runSubticks subTicks t 0 s).2).cfg = s.cfg :=
        ((runSubticks_keeps _ _ _ s).trans (afterSubticks_keeps t _)).cfg
      rw [runEvents_append_of_go hgo, hnext, runTicks_succ_of_go (hstop ▸ hrun), ← hcfg]
      exact ih (t + 1) _

/-- FRAME between frames, by the run of its events. -/
theorem exec_frame {s : State} (h : s.frame = none) :
    exec .frame s = .next (answered (.bool (!(runEvents (frameEvents s.cfg) s).1))
      (setFrame none (runEvents (frameEvents s.cfg) s).2.2)) := by
  obtain ⟨hstop, hstate⟩ := runEvents_ticks frameTicks 0 s
  rw [frameEvents, List.range_eq_range', hstop, hstate]
  exact hostAction_of_none h

/-- Settles O44: the loops are the run of the list. -/
theorem framePerformsItsEventsInOrder : Obligations.FramePerformsItsEventsInOrder := fun _ h => exec_frame h

/-! ### Counting a frame's events (R288, R284) -/

/-- Lists that count as often as `q` holds of their index count together as often as `q` holds. -/
theorem countP_flatMap_eq_countP {α β : Type} {p : β → Bool} {q : α → Bool} {f : α → List β}
    (h : ∀ a, (f a).countP p = if q a then 1 else 0) (l : List α) : (l.flatMap f).countP p = l.countP q := by
  induction l with
  | nil => rfl
  | cons a l ih => rw [List.flatMap_cons, List.countP_append, ih, h, List.countP_cons, Nat.add_comm]

theorem countP_flatMap_const {α β : Type} {p : β → Bool} {f : α → List β} {k : Nat}
    (h : ∀ a, (f a).countP p = k) (l : List α) : (l.flatMap f).countP p = l.length * k := by
  induction l with
  | nil => exact (Nat.zero_mul k).symm
  | cons a l ih => rw [List.flatMap_cons, List.countP_append, ih, h, List.length_cons, Nat.succ_mul, Nat.add_comm]

/-- The multiples of `p` from 0 to `n`. -/
theorem countP_mod_range_succ {p : Nat} (hp : 0 < p) (n : Nat) :
    (List.range (n + 1)).countP (fun t => decide (t % p = 0)) = n / p + 1 := by
  induction n with
  | zero => simp [List.range_succ]
  | succ n ih =>
    rw [List.range_succ, List.countP_append, ih, List.countP_singleton]
    obtain ⟨-, hmod, hdiv⟩ | ⟨-, hmod, hdiv⟩ := succ_div_mod_cases hp n <;> simp [hmod, hdiv]

/-- Two numbers below `n`. -/
theorem countP_pair_range {a b n : Nat} (hab : a ≠ b) (ha : a < n) (hb : b < n) :
    (List.range n).countP (fun t => decide (t = a ∨ t = b)) = 2 := by
  have hperm : ((List.range n).filter (fun t => decide (t = a ∨ t = b))).Perm [a, b] := by
    refine (List.perm_ext_iff_of_nodup (List.nodup_range.filter _) (by simpa using hab)).mpr fun t => ?_
    simp only [List.mem_filter, List.mem_range, decide_eq_true_eq, List.mem_cons, List.not_mem_nil, or_false]
    exact and_iff_right_of_imp fun h => h.elim (· ▸ ha) (· ▸ hb)
  rw [List.countP_eq_length_filter, hperm.length_eq]
  rfl

theorem countP_closingEvents (p : Event → Bool) (c : Config) (t : Nat) : (closingEvents c t).countP p =
    (if t = 0 ∨ t = tick50Second then [Event.tick50].countP p else 0) +
      (if t % audioPeriod c = 0 then [Event.dosound].countP p else 0) := by
  rw [closingEvents, List.countP_append, apply_ite (List.countP p), apply_ite (List.countP p), List.countP_nil]

/-- What is counted once in each subtick and not after the subticks is counted 16 times in a frametick. -/
theorem countP_tickEvents {p : Event → Bool} (hsub : ∀ t k, (subtick t k).countP p = 1) (h50 : p .tick50 = false)
    (hsound : p .dosound = false) (c : Config) (t : Nat) : (tickEvents c t).countP p = 16 := by
  have hclosing : (closingEvents c t).countP p = 0 := by simp [countP_closingEvents, h50, hsound]
  rw [tickEvents_eq, List.countP_append, hclosing, subtickEvents, countP_flatMap_const (hsub t), List.length_range]
  rfl

theorem isExecEvent_subtick (t k : Nat) : (subtick t k).countP isExecEvent = 1 := rfl

theorem ttick_subtick (t k : Nat) : (subtick t k).countP (· == .ttick) = 1 := rfl

theorem isExecEvent_tickEvents (c : Config) (t : Nat) : (tickEvents c t).countP isExecEvent = 16 :=
  countP_tickEvents isExecEvent_subtick rfl rfl c t

theorem ttick_tickEvents (c : Config) (t : Nat) : (tickEvents c t).countP (· == .ttick) = 16 :=
  countP_tickEvents ttick_subtick rfl rfl c t

/-- A frame's EXECs, whatever the configuration. -/
theorem isExecEvent_frameEvents (c : Config) : (frameEvents c).countP isExecEvent = 320000 := by
  rw [frameEvents, countP_flatMap_const (isExecEvent_tickEvents c), List.length_range]
  rfl

theorem ttick_frameEvents (c : Config) : (frameEvents c).count .ttick = 320000 := by
  rw [List.count_eq_countP, frameEvents, countP_flatMap_const (ttick_tickEvents c), List.length_range]
  rfl

/-- What is in no subtick is counted after them. -/
theorem countP_tickEvents_eq_closing {p : Event → Bool} (hsub : ∀ t k, (subtick t k).countP p = 0) (c : Config)
    (t : Nat) : (tickEvents c t).countP p = (closingEvents c t).countP p := by
  rw [tickEvents_eq, List.countP_append, subtickEvents, countP_flatMap_const (hsub t), Nat.mul_zero, Nat.zero_add]

theorem tick50_tickEvents (c : Config) (t : Nat) :
    (tickEvents c t).countP (· == .tick50) = if decide (t = 0 ∨ t = tick50Second) then 1 else 0 := by
  rw [countP_tickEvents_eq_closing (fun _ _ => rfl), countP_closingEvents]
  simp

theorem dosound_tickEvents (c : Config) (t : Nat) :
    (tickEvents c t).countP (· == .dosound) = if decide (t % audioPeriod c = 0) then 1 else 0 := by
  rw [countP_tickEvents_eq_closing (fun _ _ => rfl), countP_closingEvents]
  simp

theorem tick50_frameEvents (c : Config) : (frameEvents c).count .tick50 = 2 := by
  rw [List.count_eq_countP, frameEvents, countP_flatMap_eq_countP (tick50_tickEvents c)]
  exact countP_pair_range (by decide) (by decide) (by decide)

theorem dosound_frameEvents {c : Config} (h : 0 < audioPeriod c) :
    (frameEvents c).count .dosound = 19999 / audioPeriod c + 1 := by
  rw [List.count_eq_countP, frameEvents, countP_flatMap_eq_countP (dosound_tickEvents c)]
  exact countP_mod_range_succ h 19999

theorem audioPeriod_pos {c : Config} (h : configValid c = true) : 0 < audioPeriod c := by
  obtain ⟨hge, hle⟩ := (sampleRateValid_iff c).mp (sampleRateValid_of_configValid h)
  exact Nat.div_pos hle (Nat.div_pos hge (by decide))

/-- Settles O46. -/
theorem frameHasTheCountedEvents : Obligations.FrameHasTheCountedEvents := fun c h =>
  ⟨isExecEvent_frameEvents c, ttick_frameEvents c, tick50_frameEvents c, dosound_frameEvents (audioPeriod_pos h), rfl,
    audioPeriod_pos h⟩

/-! ### Where a stopped frame ends (R290) -/

/-- A run that does not stop performs the whole list. -/
theorem runEvents_performed_of_go {l : List Event} {s : State} (h : (runEvents l s).1 = false) :
    (runEvents l s).2.1 = l := by
  induction l generalizing s with
  | nil => rfl
  | cons e es ih =>
    cases he : (runEvent e s).1 with
    | true => rw [runEvents_of_stop he] at h; cases h
    | false =>
      rw [runEvents_of_go he] at h ⊢
      exact congrArg (e :: ·) (ih h)

/-- A run of blocks that stops has performed whole blocks and then stopped inside one, begun in some state `u`. -/
theorem runEvents_flatMap_stop {f : Nat → List Event} {a n : Nat} {s : State}
    (h : (runEvents ((List.range' a n).flatMap f) s).1 = true) :
    ∃ i u, i < n ∧ (runEvents (f (a + i)) u).1 = true ∧
      (runEvents ((List.range' a n).flatMap f) s).2.1 = (List.range' a i).flatMap f ++ (runEvents (f (a + i)) u).2.1 ∧
      (runEvents ((List.range' a n).flatMap f) s).2.2 = (runEvents (f (a + i)) u).2.2 := by
  induction n generalizing a s with
  | zero => cases h
  | succ n ih =>
    rw [List.range'_succ, List.flatMap_cons] at h ⊢
    cases hrun : (runEvents (f a) s).1 with
    | true =>
      rw [runEvents_append_of_stop hrun]
      exact ⟨0, s, Nat.succ_pos n, hrun, rfl, rfl⟩
    | false =>
      rw [runEvents_append_of_go hrun] at h ⊢
      obtain ⟨i, u, hi, hstop, hperf, hstate⟩ := ih h
      have hidx : a + 1 + i = a + (i + 1) := by omega
      rw [hidx] at hstop hperf hstate
      refine ⟨i + 1, u, Nat.succ_lt_succ hi, hstop, ?_, hstate⟩
      rw [runEvents_performed_of_go hrun, List.range'_succ, List.flatMap_cons, List.append_assoc]
      exact congrArg (f a ++ ·) hperf

/-- A subtick stops at its BPCHK alone, where the program counter is a breakpoint. -/
theorem runEvents_subtick_stop {t k : Nat} {s : State} (h : (runEvents (subtick t k) s).1 = true) :
    (runEvents (subtick t k) s).2.1 = [.exec t k, .bpchk] ∧ breakpointHit (runEvents (subtick t k) s).2.2 = true := by
  rw [runEvents_subtick] at h ⊢
  split at h
  · next hhit => rw [if_pos hhit]; exact ⟨rfl, hhit⟩
  · cases h

/-- The events after the subticks never stop, under whichever configuration they are listed. -/
theorem runEvents_closingEvents_go (c : Config) (t : Nat) (s : State) :
    (runEvents (closingEvents c t) s).1 = false := by
  unfold closingEvents
  split <;> split <;> rfl

/-- A frametick that stops has performed whole subticks, then an EXEC and the BPCHK that hit. -/
theorem runEvents_tickEvents_stop {c : Config} {t : Nat} {s : State} (h : (runEvents (tickEvents c t) s).1 = true) :
    ∃ j, j < subTicks ∧
      (runEvents (tickEvents c t) s).2.1 = (List.range j).flatMap (subtick t) ++ [.exec t j, .bpchk] ∧
      breakpointHit (runEvents (tickEvents c t) s).2.2 = true := by
  cases hrun : (runEvents (subtickEvents t) s).1 with
  | true =>
    rw [runEvents_tickEvents_of_stop hrun, subtickEvents, List.range_eq_range']
    rw [subtickEvents, List.range_eq_range'] at hrun
    obtain ⟨j, u, hj, hstop, hperf, hstate⟩ := runEvents_flatMap_stop hrun
    rw [Nat.zero_add] at hstop hperf hstate
    obtain ⟨hlast, hhit⟩ := runEvents_subtick_stop hstop
    exact ⟨j, hj, by rw [hperf, hlast, List.range_eq_range'], by rw [hstate]; exact hhit⟩
  | false =>
    rw [tickEvents_eq, runEvents_append_of_go hrun] at h
    exact absurd h (Bool.eq_false_iff.mp (runEvents_closingEvents_go c t _))

/-- A frame that stops has performed whole frameticks, whole subticks of the next one, then an EXEC and the BPCHK that
hit. -/
theorem runEvents_frameEvents_stop {c : Config} {s : State} (h : (runEvents (frameEvents c) s).1 = true) :
    ∃ q j, q < frameTicks ∧ j < subTicks ∧
      (runEvents (frameEvents c) s).2.1 =
        (List.range q).flatMap (tickEvents c) ++ (List.range j).flatMap (subtick q) ++ [.exec q j, .bpchk] ∧
      breakpointHit (runEvents (frameEvents c) s).2.2 = true := by
  rw [frameEvents, List.range_eq_range'] at h ⊢
  obtain ⟨q, u, hq, hstop, hperf, hstate⟩ := runEvents_flatMap_stop h
  rw [Nat.zero_add] at hstop hperf hstate
  obtain ⟨j, hj, hlast, hhit⟩ := runEvents_tickEvents_stop hstop
  exact ⟨q, j, hq, hj, by rw [hperf, hlast, List.append_assoc, List.range_eq_range' (n := q)],
    by rw [hstate]; exact hhit⟩

/-- Counting over the whole frameticks and subticks of a stopped frame what each subtick counts once. -/
theorem countP_stoppedPrefix {p : Event → Bool} {c : Config} (htick : ∀ t, (tickEvents c t).countP p = 16)
    (hsub : ∀ t k, (subtick t k).countP p = 1) (q j : Nat) (last : List Event) :
    ((List.range q).flatMap (tickEvents c) ++ (List.range j).flatMap (subtick q) ++ last).countP p =
      16 * q + j + last.countP p := by
  rw [List.countP_append, List.countP_append, countP_flatMap_const htick, countP_flatMap_const (hsub q),
    List.length_range, List.length_range, Nat.mul_one, Nat.mul_comm]

/-- Settles O45. -/
theorem stoppedFramePerformsAPrefixEndingInTheHit : Obligations.StoppedFramePerformsAPrefixEndingInTheHit := by
  intro s h
  obtain ⟨q, j, hq, hj, hperf, hhit⟩ := runEvents_frameEvents_stop h
  refine ⟨q, j, hq, hj, hperf, ⟨?_, ?_⟩, hhit⟩
  · rw [hperf, countP_stoppedPrefix (isExecEvent_tickEvents s.cfg) isExecEvent_subtick]
    rfl
  · rw [hperf, List.count_eq_countP, countP_stoppedPrefix (ttick_tickEvents s.cfg) ttick_subtick]
    rfl

/-! ### The Executes of a frame (R288) -/

/-- How often `CPU.Execute` has been called. -/
def executes (s : State) : Nat := s.out.signals.count .cpuExecute

theorem executes_emit_of_ne {g : Signal} (h : g ≠ .cpuExecute) (s : State) : executes (emit g s) = executes s :=
  List.count_cons_of_ne h

theorem executes_emit_cpuExecute (s : State) : executes (emit .cpuExecute s) = executes s + 1 := List.count_cons_self

theorem executes_answered (a : Answer) (s : State) : executes (answered a s) = executes s := rfl

theorem executes_setFrame (p : Option FramePos) (s : State) : executes (setFrame p s) = executes s := rfl

/-- A bus transaction calls no Execute: it makes no call, `MemoryError`, or the request of `ExtComplete`. -/
theorem executes_busTransaction (op : BusOp) (halt : Bool) (s : State) :
    executes (busTransaction op halt s) = executes s := by
  unfold executes
  obtain h | h | h := (BusEffect.of_busTransaction op halt s).signals
  · rw [h]
  · rw [h, List.count_cons_of_ne (by simp)]
  · rw [h, extSignals]
    split
    · rfl
    · rw [List.count_cons_of_ne (by simp)]

theorem executes_cpuTransaction (s : State) (op : BusOp) : executes (cpuTransaction s op) = executes s :=
  (executes_emit_of_ne (by simp) _).trans (executes_busTransaction op _ s)

theorem executes_foldl_cpuTransaction (ops : List BusOp) (s : State) :
    executes (ops.foldl cpuTransaction s) = executes s := by
  induction ops generalizing s with
  | nil => rfl
  | cons op ops ih => exact (ih _).trans (executes_cpuTransaction s op)

theorem executes_takeExec (s : State) : executes (takeExec s) = executes s := by
  unfold takeExec
  split <;> rfl

theorem executes_cpuExecute (s : State) : executes (cpuExecute s) = executes s + 1 := by
  have hfold := executes_foldl_cpuTransaction (nextExec s).txns (emit .cpuExecute (takeExec s))
  rw [executes_emit_cpuExecute, executes_takeExec] at hfold
  exact hfold

theorem executes_timerTick (s : State) : executes (timerTick s) = executes s := by
  unfold timerTick
  split <;> rfl

theorem executes_tick50Event (s : State) : executes (tick50Event s) = executes s := by
  unfold tick50Event
  split
  · exact executes_emit_of_ne (by simp) s
  · rfl

theorem executes_doSoundEvent (s : State) : executes (doSoundEvent s) = executes s := by
  cases hcb : s.soundCb with
  | none => rw [doSoundEvent_of_none hcb]
  | some cb => rw [doSoundEvent_of_some hcb, executes_emit_of_ne (by simp)]

/-- EXEC is the one event that calls Execute. -/
theorem executes_runEvent (e : Event) (s : State) :
    executes (runEvent e s).2 = executes s + if isExecEvent e then 1 else 0 := by
  cases e with
  | exec t k => exact (executes_cpuExecute _).trans (congrArg (· + 1) (executes_setFrame _ s))
  | bpchk => rfl
  | ttick => exact executes_timerTick s
  | tick50 => exact executes_tick50Event s
  | dosound => exact executes_doSoundEvent s

/-- A run calls Execute once for each EXEC it performs. -/
theorem executes_runEvents (l : List Event) (s : State) :
    executes (runEvents l s).2.2 = executes s + (runEvents l s).2.1.countP isExecEvent := by
  induction l generalizing s with
  | nil => rfl
  | cons e es ih =>
    cases he : (runEvent e s).1 with
    | true => rw [runEvents_of_stop he, executes_runEvent, List.countP_singleton]
    | false =>
      rw [runEvents_of_go he, ih, executes_runEvent, List.countP_cons]
      omega

theorem runEvent_keeps (e : Event) (s : State) : RunKeeps s (runEvent e s).2 := by
  cases e with
  | exec t k => exact (setFrame_keeps _ s).trans (cpuExecute_keeps _)
  | bpchk => exact .refl s
  | ttick => exact timerTick_keeps s
  | tick50 => exact tick50Event_keeps s
  | dosound => exact doSoundEvent_keeps s

/-- BPCHK is the one event that can stop, and it needs a breakpoint. -/
theorem runEvent_go_of_empty {s : State} (h : breakpointSet s = []) (e : Event) : (runEvent e s).1 = false := by
  cases e with
  | bpchk => exact breakpointHit_of_empty h
  | exec t k | ttick | tick50 | dosound => rfl

theorem runEvents_go_of_empty {s : State} (h : breakpointSet s = []) (l : List Event) : (runEvents l s).1 = false := by
  induction l generalizing s with
  | nil => rfl
  | cons e es ih =>
    rw [runEvents_of_go (runEvent_go_of_empty h e)]
    exact ih ((runEvent_keeps e s).breakpointSet.trans h)

/-- Settles O47: the run performs the whole list, and the list has 320000 EXEC. -/
theorem frameWithoutBreakpointsRunsEveryExecute : Obligations.FrameWithoutBreakpointsRunsEveryExecute := by
  intro s hframe hempty
  have hgo := runEvents_go_of_empty hempty (frameEvents s.cfg)
  refine ⟨_, exec_frame hframe, by rw [hgo]; rfl, rfl, ?_⟩
  have hcount := executes_runEvents (frameEvents s.cfg) s
  rw [runEvents_performed_of_go hgo, isExecEvent_frameEvents] at hcount
  exact (executes_answered _ _).trans ((executes_setFrame none _).trans hcount)

end Sys2Proof.Machine

/-!
PROOF. The host's loading and configuration actions (R321 to R327), each taken between frames: what it writes, and the
bounds at which its operands are refused.
-/
namespace Sys2Proof.Machine

/-! ### Host actions with a condition on their operands -/

theorem guardedHostAction_of_holds {p : Prop} [Decidable p] {s t : State} {r : Refusal} (hf : s.frame = none) (hp : p) :
    (if p then hostAction s t else .refused r) = .next t := by
  rw [if_pos hp, hostAction_of_none hf]

/-! ### The memories after a load (R321, R322) -/

theorem romByte_loadRomImage {img : List Byte} {i : Nat} (h : i < img.length) (s : State) :
    romByte (loadRomImage img s) i = img.getD i 0#8 := Memory.byteAt_ofBytes _ img i h

theorem ramByte_loadRamBytes (base : Nat) (buf : List Byte) (s : State) (i : Nat) :
    ramByte (loadRamBytes base buf s) i =
      if base ≤ i ∧ i < base + buf.length then buf.getD (i - base) 0#8 else ramByte s i :=
  Memory.byteAt_setBytes _ s.ram base buf i

/-- Settles O49: each load by whether its image fits. -/
theorem loadingReplacesRomAndCopiesIntoRam : Obligations.LoadingReplacesRomAndCopiesIntoRam := by
  intro img buf bank s hf
  refine ⟨fun hlen => ?_, fun hlen => if_neg hlen, fun hfit => ?_, fun hpast => if_neg (Nat.not_le.mpr hpast)⟩
  · exact ⟨_, guardedHostAction_of_holds hf hlen, fun i hi => romByte_loadRomImage (hlen ▸ hi) s⟩
  · exact ⟨_, guardedHostAction_of_holds hf hfit, ramByte_loadRamBytes (ramBankBase s.cfg bank) buf s⟩

/-! ### The setters (R323 to R326) -/

theorem exec_setConfig {s : State} (hf : s.frame = none) (id : Word) :
    exec (.setConfig id) s = .next (answered .done (setConfigId id s)) := hostAction_of_none hf

/-- Settles O50: the setters are host actions, and SETCONFIG writes by whether it knows the id. -/
theorem hostSettersWriteTheirElementOnly : Obligations.HostSettersWriteTheirElementOnly := by
  intro id cb on set s hf
  refine ⟨fun hid => ?_, fun hid => ?_, hostAction_of_none hf, hostAction_of_none hf, hostAction_of_none hf⟩
  · rw [exec_setConfig hf, setConfigId_of_mem hid]
  · rw [exec_setConfig hf, setConfigId_of_not_mem hid]
    rfl

/-! ### The bitmap (R327) -/

/-- Settles O51: the bitmap by whether it ends inside RAM. -/
theorem videoShowsRamFromTheLcdAddress : Obligations.VideoShowsRamFromTheLcdAddress := by
  intro s hf
  refine ⟨fun hfit => ?_, fun hpast => if_neg (Nat.not_le.mpr hpast)⟩
  exact ⟨_, guardedHostAction_of_holds hf hfit, length_ramBytes s _ _, fun i hi => getD_ramBytes hi⟩

end Sys2Proof.Machine

/-!
PROOF. The snapshot (R350 to R353): which field the image holds at which offset, what a field's bytes read back as, and
LOAD as the reading of those fields.
-/
namespace Sys2Proof.Machine

/-! ### A field of an image -/

/-- The image holds the field's bytes from the offset on (R350). -/
def FieldAt (img : List Byte) (o : Nat) (f : List Byte) : Prop :=
  ∀ i, i < f.length → imgByte img (o + i) = f.getD i 0#8

theorem fieldAt_self (img : List Byte) : FieldAt img 0 img := fun i _ => congrArg (imgByte img) (Nat.zero_add i)

/-- Fields one after the other lie at offsets one after the other. -/
theorem fieldAt_append_iff {img f g : List Byte} {o : Nat} :
    FieldAt img o (f ++ g) ↔ FieldAt img o f ∧ FieldAt img (o + f.length) g := by
  constructor
  · intro h
    refine ⟨fun i hi => ?_, fun i hi => ?_⟩
    · rw [h i (by rw [List.length_append]; omega), List.getD_append _ _ _ _ hi]
    · rw [Nat.add_assoc, h _ (by rw [List.length_append]; omega),
        List.getD_append_right _ _ _ _ (Nat.le_add_right _ _), Nat.add_sub_cancel_left]
  · rintro ⟨hf, hg⟩ i hi
    rw [List.length_append] at hi
    by_cases hlt : i < f.length
    · rw [hf i hlt, List.getD_append _ _ _ _ hlt]
    · have hle := Nat.le_of_not_lt hlt
      rw [List.getD_append_right _ _ _ _ hle, ← hg _ (by omega), Nat.add_assoc, Nat.add_sub_cancel' hle]

theorem FieldAt.imgWord_eq {img : List Byte} {o : Nat} {w : Word} (h : FieldAt img o (le16 w)) : imgWord img o = w := by
  have hlo : imgByte img o = lo8 w := h 0 (by simp)
  have hhi : imgByte img (o + 1) = hi8 w := h 1 (by simp)
  rw [imgWord, hlo, hhi, word16_hi8_lo8]

theorem FieldAt.imgByte_zero {img : List Byte} {o n : Nat} (h : FieldAt img o (zeros n)) {i : Nat} (hle : o ≤ i)
    (hlt : i < o + n) : imgByte img i = 0#8 := by
  rw [← Nat.add_sub_cancel' hle, h _ (by rw [length_zeros]; omega), getD_zeros]

/-- Two neighbouring bytes of a 32-bit value make the word between their outer bounds. -/
theorem word16_extractLsb' (w : Word32) (k : Nat) :
    word16 (w.extractLsb' (k + 8) 8) (w.extractLsb' k 8) = w.extractLsb' k 16 := by
  apply BitVec.eq_of_toNat_eq
  rw [word16_toNat, BitVec.extractLsb'_toNat, BitVec.extractLsb'_toNat, BitVec.extractLsb'_toNat, Nat.shiftRight_add]
  simp only [Nat.shiftRight_eq_div_pow]
  omega

theorem FieldAt.imgWord_low {img : List Byte} {o : Nat} {w : Word32} (h : FieldAt img o (le32 w)) :
    imgWord img o = w.extractLsb' 0 16 := by
  have h0 : imgByte img o = w.extractLsb' 0 8 := h 0 (by simp)
  have h1 : imgByte img (o + 1) = w.extractLsb' 8 8 := h 1 (by simp)
  rw [imgWord, h0, h1, ← word16_extractLsb']

theorem FieldAt.imgWord_high {img : List Byte} {o : Nat} {w : Word32} (h : FieldAt img o (le32 w)) :
    imgWord img (o + 2) = w.extractLsb' 16 16 := by
  have h2 : imgByte img (o + 2) = w.extractLsb' 16 8 := h 2 (by simp)
  have h3 : imgByte img (o + 3) = w.extractLsb' 24 8 := h 3 (by simp)
  rw [imgWord, h2, h3, ← word16_extractLsb']

/-- The two words of a 32-bit field hold the number modulo 2^32. -/
theorem extractLsb'_halves_toNat (n : Nat) :
    ((BitVec.ofNat 32 n).extractLsb' 0 16).toNat + 65536 * ((BitVec.ofNat 32 n).extractLsb' 16 16).toNat = n % 2 ^ 32 := by
  simp only [BitVec.extractLsb'_toNat, BitVec.toNat_ofNat, Nat.shiftRight_eq_div_pow]
  omega

/-! ### The layout (R350) -/

/-- Where the image of a state holds each field below the memories, and the zeros above them. -/
structure SnapshotLayout (img : List Byte) (s : State) : Prop where
  magic1 : FieldAt img 0 (le32 (snapMagic1 s.cfg))
  magic2 : FieldAt img 4 (le32 (snapMagic2 s.cfg))
  version : FieldAt img 8 (le32 (snapVersion s.cfg))
  size : FieldAt img 12 (le32 (BitVec.ofNat 32 snapSize))
  uptime : FieldAt img 16 (le32 (BitVec.ofNat 32 s.uptime))
  headerPad : FieldAt img 20 (zeros 12)
  config : FieldAt img 32 (le16 s.config)
  configPad : FieldAt img 34 (zeros 12)
  lcdAddr : FieldAt img 46 (le16 s.lcd.addr)
  lcdConf : FieldAt img 48 (le16 s.lcd.conf)
  lcdIndex : FieldAt img 50 (le16 s.lcd.index)
  soundOn : FieldAt img 52 (le16 (soundWord s.soundOn))
  regsPad : FieldAt img 54 (zeros 106)
  cpu : FieldAt img 160 s.cpu.image.toList
  cpuPad : FieldAt img 192 (zeros 3904)
  tail : FieldAt img 102400 (zeros 45056)

theorem snapshot_layout (s : State) : SnapshotLayout (snapshot s) s := by
  have h : FieldAt (snapshot s) 0
      (snapHeader s ++ snapRegs s ++ s.cpu.image.toList ++ zeros 3904 ++ romBytes s 0 romSize ++ ramBytes s 0 ramSize ++
        zeros 45056) := fieldAt_self (snapshot s)
  simp only [fieldAt_append_iff, snapHeader, snapRegs, List.length_append, length_le16, length_le32, length_zeros,
    length_romBytes, length_ramBytes, Vector.length_toList, romSize, ramSize, Nat.reduceAdd] at h
  obtain ⟨⟨⟨⟨⟨⟨hheader, hregs⟩, hcpu⟩, hcpuPad⟩, -⟩, -⟩, htail⟩ := h
  obtain ⟨⟨⟨⟨⟨hmagic1, hmagic2⟩, hversion⟩, hsize⟩, huptime⟩, hheaderPad⟩ := hheader
  obtain ⟨⟨⟨⟨⟨⟨hconfig, hconfigPad⟩, haddr⟩, hconf⟩, hindex⟩, hsound⟩, hregsPad⟩ := hregs
  exact ⟨hmagic1, hmagic2, hversion, hsize, huptime, hheaderPad, hconfig, hconfigPad, haddr, hconf, hindex, hsound,
    hregsPad, hcpu, hcpuPad, htail⟩

theorem imgByte_snapshot_cpu (s : State) (i : Fin 32) : imgByte (snapshot s) (160 + i) = s.cpu.image[i] := by
  rw [(snapshot_layout s).cpu i (by simp), List.getD_eq_getElem _ _ (by simp)]
  simp

/-! ### SAVE (R351) -/

theorem exec_save {s : State} (hf : s.frame = none) :
    exec .save s = .next (answered (.bytes (snapshot s)) (emit .cpuSave s)) := hostAction_of_none hf

/-- Settles O52: each clause reads one field of the layout. -/
theorem saveWritesTheSnapshotLayout : Obligations.SaveWritesTheSnapshotLayout := by
  intro s hf
  have hl := snapshot_layout s
  exact ⟨snapshot s, exec_save hf, length_snapshot s,
    hl.magic1.imgWord_low, hl.magic1.imgWord_high, hl.magic2.imgWord_low, hl.magic2.imgWord_high,
    hl.version.imgWord_low, hl.version.imgWord_high, hl.size.imgWord_low, hl.size.imgWord_high,
    by rw [hl.uptime.imgWord_low, hl.uptime.imgWord_high, extractLsb'_halves_toNat],
    fun i hi => hl.headerPad.imgByte_zero hi.1 hi.2,
    hl.config.imgWord_eq, fun i hi => hl.configPad.imgByte_zero hi.1 hi.2,
    hl.lcdAddr.imgWord_eq, hl.lcdConf.imgWord_eq, hl.lcdIndex.imgWord_eq,
    hl.soundOn.imgWord_eq, fun i hi => hl.regsPad.imgByte_zero hi.1 hi.2,
    imgByte_snapshot_cpu s, fun i hi => hl.cpuPad.imgByte_zero hi.1 hi.2,
    fun i hi => imgByte_rom hi, fun i hi => imgByte_ram hi,
    fun i hi => hl.tail.imgByte_zero hi.1 hi.2⟩

/-! ### LOAD (R352) -/

theorem exec_load_of_length {img : List Byte} {s : State} (hf : s.frame = none) (h : img.length = 147456) :
    exec (.load img) s = .next (answered .done (emit (.cpuLoad (imgCpu img)) (loadSnapshot img s))) :=
  guardedHostAction_of_holds hf h

/-- The memory made of a piece of an image holds the image's bytes. -/
theorem byteAt_ofBytes_piece (init : Nat → Byte) {img : List Byte} {o n i : Nat} (hn : o + n ≤ img.length) (hi : i < n) :
    (Memory.ofBytes 0 ((img.drop o).take n)).byteAt init i = imgByte img (o + i) := by
  rw [Memory.byteAt_ofBytes _ _ _ (by rw [List.length_take, List.length_drop]; omega), imgByte]
  simp only [List.getD_eq_getElem?_getD, List.getElem?_take_of_lt hi, List.getElem?_drop]

theorem ramByte_loadSnapshot {img : List Byte} (h : img.length = 147456) {i : Nat} (hi : i < 65536) (s : State) :
    ramByte (loadSnapshot img s) i = imgByte img (36864 + i) :=
  byteAt_ofBytes_piece _ (by unfold ramSize; omega) hi

theorem romByte_loadSnapshot {img : List Byte} (h : img.length = 147456) {i : Nat} (hi : i < 32768) (s : State) :
    romByte (loadSnapshot img s) i = imgByte img (4096 + i) :=
  byteAt_ofBytes_piece _ (by unfold romSize; omega) hi

theorem soundOfWord_of_eq_zero {w : Word} (h : w = 0#16) : soundOfWord w = false := if_pos h

theorem soundOfWord_of_eq_one {w : Word} (h : w = 1#16) : soundOfWord w = true := by
  subst h
  rfl

theorem getElem_imgCpu (img : List Byte) (i : Fin 32) : (imgCpu img)[i] = imgByte img (160 + i) := by simp [imgCpu]

/-- Settles O53: the image by its length. -/
theorem loadSetsTheElementsTheImageCarries : Obligations.LoadSetsTheElementsTheImageCarries := by
  intro img s hf
  refine ⟨fun hlen => ?_, fun hlen => if_neg hlen⟩
  exact ⟨_, _, _, exec_load_of_length hf hlen, soundOfWord_of_eq_zero, soundOfWord_of_eq_one, getElem_imgCpu img,
    fun i hi => ramByte_loadSnapshot hlen hi s, fun i hi => romByte_loadSnapshot hlen hi s⟩

/-! ### LOAD of a SAVE (R353) -/

theorem soundOfWord_soundWord (on : Bool) : soundOfWord (soundWord on) = on := by
  cases on with
  | false => exact soundOfWord_of_eq_zero rfl
  | true => exact soundOfWord_of_eq_one rfl

theorem imgCpu_snapshot (s : State) : imgCpu (snapshot s) = s.cpu.image := by
  refine Vector.ext fun i hi => ?_
  exact (getElem_imgCpu (snapshot s) ⟨i, hi⟩).trans (imgByte_snapshot_cpu s ⟨i, hi⟩)

/-- What a completed LOAD leaves of the image and of the state it is taken in. -/
structure LoadedFrom (img : List Byte) (u v : State) : Prop where
  ram : ∀ i, i < 65536 → ramByte v i = imgByte img (36864 + i)
  rom : ∀ i, i < 32768 → romByte v i = imgByte img (4096 + i)
  config : v.config = imgWord img 32
  lcd : v.lcd = ⟨imgWord img 46, imgWord img 48, imgWord img 50⟩
  soundOn : v.soundOn = soundOfWord (imgWord img 52)
  image : v.cpu.image = imgCpu img
  rest : v = { u with config := v.config, lcd := v.lcd, soundOn := v.soundOn, ram := v.ram, rom := v.rom, cpu := v.cpu
                      out := v.out }

theorem loadedFrom_of_exec_load {img : List Byte} {u v : State} (h : exec (.load img) u = .next v) :
    LoadedFrom img u v := by
  obtain ⟨hlen, -, rfl⟩ := guardedHostAction_next.mp h
  exact ⟨fun i hi => ramByte_loadSnapshot hlen hi u, fun i hi => romByte_loadSnapshot hlen hi u, rfl, rfl, rfl, rfl, rfl⟩

/-- Settles O54: the image is of the length LOAD takes, and LOAD reads each field where SAVE wrote it. -/
theorem loadOfASaveRestoresTheBoard : Obligations.LoadOfASaveRestoresTheBoard := by
  intro s u hs hu
  obtain ⟨v, hload⟩ : ∃ v, exec (.load (snapshot s)) u = .next v := ⟨_, exec_load_of_length hu (length_snapshot s)⟩
  have hv := loadedFrom_of_exec_load hload
  have hl := snapshot_layout s
  refine ⟨snapshot s, _, v, exec_save hs, rfl, hload, fun i hi => (hv.ram i hi).trans (imgByte_ram hi),
    fun i hi => (hv.rom i hi).trans (imgByte_rom hi), hv.config.trans hl.config.imgWord_eq, ?_, ?_,
    hv.image.trans (imgCpu_snapshot s), hv.rest⟩
  · rw [hv.lcd, hl.lcdAddr.imgWord_eq, hl.lcdConf.imgWord_eq, hl.lcdIndex.imgWord_eq]
  · rw [hv.soundOn, hl.soundOn.imgWord_eq, soundOfWord_soundWord]

end Sys2Proof.Machine

/-!
PROOF. The breakpoint registry and the watchpoint array (R341 to R346): adding and removing an entry by their cases, and
the temporary breakpoint, which a second SETTEMP first removes again.
-/
namespace Sys2Proof.Machine

/-! ### Adding an entry (R341) -/

theorem mayAdd_eq_false_iff {c : Config} {xs : List Word} {a : Word} :
    mayAdd c xs a = false ↔ c.bpN ≤ xs.length + 1 ∨ a = 0xFFFF#16 ∨ a ∈ xs := by
  rw [← Bool.not_eq_true, mayAdd_iff]
  simp only [not_and_or, not_lt, not_not]

theorem addEntry_of_mayAdd {c : Config} {xs : List Word} {a : Word} (h : mayAdd c xs a = true) :
    addEntry c xs a = xs ++ [a] := if_pos h

theorem addEntry_of_not_mayAdd {c : Config} {xs : List Word} {a : Word} (h : mayAdd c xs a = false) :
    addEntry c xs a = xs := if_neg (Bool.not_eq_true _ ▸ h)

@[simp] theorem setArray_getArray (arr : BpArray) (s : State) : setArray arr (getArray s.registry arr) s = s := by
  cases arr <;> rfl

theorem exec_bpAdd {s : State} (hf : s.frame = none) (arr : BpArray) (a : Word) :
    exec (.bpAdd arr a) s = .next (answered (.bool (mayAdd s.cfg (getArray s.registry arr) a))
      (setArray arr (addEntry s.cfg (getArray s.registry arr) a) s)) := hostAction_of_none hf

theorem exec_bpAdd_of_mayAdd {s : State} (hf : s.frame = none) {arr : BpArray} {a : Word}
    (h : mayAdd s.cfg (getArray s.registry arr) a = true) :
    exec (.bpAdd arr a) s = .next (answered (.bool true) (setArray arr (getArray s.registry arr ++ [a]) s)) := by
  rw [exec_bpAdd hf, addEntry_of_mayAdd h, h]

theorem exec_bpAdd_of_not_mayAdd {s : State} (hf : s.frame = none) {arr : BpArray} {a : Word}
    (h : mayAdd s.cfg (getArray s.registry arr) a = false) :
    exec (.bpAdd arr a) s = .next (answered (.bool false) s) := by
  rw [exec_bpAdd hf, addEntry_of_not_mayAdd h, h, setArray_getArray]

/-! ### Removing an entry (R342) -/

theorem removeEntry_of_not_mem {xs : List Word} {a : Word} (h : a ∉ xs) : removeEntry xs a = xs :=
  if_neg fun hc => h (List.contains_iff_mem.mp hc)

theorem removeEntry_last (xs : List Word) (a : Word) : removeEntry (xs ++ [a]) a = xs := by simp [removeEntry]

/-- The last entry takes the place of the removed one. -/
theorem removeEntry_inner {pre post : List Word} {a z : Word} (hpre : a ∉ pre) (hz : z ≠ a) :
    removeEntry (pre ++ a :: post ++ [z]) a = pre ++ z :: post := by
  have hmem : (pre ++ a :: post ++ [z]).contains a = true := by simp
  rw [removeEntry, if_pos hmem, List.getLast?_concat, List.dropLast_concat]
  exact (if_neg hz).trans (replaceFirst_append hpre)

theorem nodup_removeEntry {xs : List Word} (h : xs.Nodup) (a : Word) : (removeEntry xs a).Nodup := by
  obtain ⟨-, hr⟩ | ⟨ys, rfl, hr⟩ | ⟨ys, z, rfl, -, -, hr⟩ := removeEntry_cases xs a
  · rwa [hr]
  · rw [hr]
    exact h.of_append_left
  · rw [hr]
    obtain ⟨hys, -, hz⟩ := List.nodup_append'.mp h
    exact nodup_replaceFirst hys (List.disjoint_singleton.mp hz)

theorem exec_bpRemove {s : State} (hf : s.frame = none) (arr : BpArray) (a : Word) :
    exec (.bpRemove arr a) s = .next (answered (.bool ((getArray s.registry arr).contains a))
      (setArray arr (removeEntry (getArray s.registry arr) a) s)) := hostAction_of_none hf

theorem exec_bpRemove_of_mem {s : State} (hf : s.frame = none) {arr : BpArray} {a : Word}
    (h : a ∈ getArray s.registry arr) : exec (.bpRemove arr a) s =
      .next (answered (.bool true) (setArray arr (removeEntry (getArray s.registry arr) a) s)) := by
  rw [exec_bpRemove hf, List.contains_iff_mem.mpr h]

theorem exec_bpRemove_of_not_mem {s : State} (hf : s.frame = none) {arr : BpArray} {a : Word}
    (h : a ∉ getArray s.registry arr) : exec (.bpRemove arr a) s = .next (answered (.bool false) s) := by
  have hc : (getArray s.registry arr).contains a = false :=
    Bool.eq_false_iff.mpr fun hc => h (List.contains_iff_mem.mp hc)
  rw [exec_bpRemove hf, hc, removeEntry_of_not_mem h, setArray_getArray]

/-- Settles O56: ADD by whether the entry may be added, REMOVE by where the entry stands. -/
theorem registryAddAndRemove : Obligations.RegistryAddAndRemove := by
  intro arr a z pre post s hf
  refine ⟨fun hroom hsent habs => ?_, fun hno => ?_, exec_bpRemove_of_not_mem hf, fun hlast _ => ?_,
    fun hinner hpre hz => ?_⟩
  · exact exec_bpAdd_of_mayAdd hf (mayAdd_iff.mpr ⟨Nat.lt_of_not_ge hroom, hsent, habs⟩)
  · exact exec_bpAdd_of_not_mayAdd hf (mayAdd_eq_false_iff.mpr hno)
  · rw [exec_bpRemove_of_mem hf (by simp [hlast]), hlast, removeEntry_last]
  · rw [exec_bpRemove_of_mem hf (by simp [hinner]), hinner, removeEntry_inner hpre hz]

/-! ### The temporary breakpoint (R343) -/

theorem setTemporary_of_mayAdd {c : Config} {r : Registry} {a : Word} (h : mayAdd c (withoutTemp r) a = true) :
    setTemporary c r a = ⟨withoutTemp r ++ [a], some a, r.watches⟩ := if_pos h

theorem setTemporary_of_not_mayAdd {c : Config} {r : Registry} {a : Word} (h : mayAdd c (withoutTemp r) a = false) :
    setTemporary c r a = ⟨withoutTemp r, none, r.watches⟩ := if_neg (Bool.not_eq_true _ ▸ h)

theorem nodup_withoutTemp {r : Registry} (h : r.breaks.Nodup) : (withoutTemp r).Nodup := by
  unfold withoutTemp
  split
  · exact nodup_removeEntry h _
  · exact h

theorem nodup_setTemporary {c : Config} {r : Registry} (h : r.breaks.Nodup) (a : Word) :
    (setTemporary c r a).breaks.Nodup := by
  have hwithout := nodup_withoutTemp h
  cases hm : mayAdd c (withoutTemp r) a with
  | true =>
    rw [setTemporary_of_mayAdd hm]
    obtain ⟨-, -, habs⟩ := mayAdd_iff.mp hm
    exact hwithout.append (List.nodup_singleton a) (List.disjoint_singleton.mpr habs)
  | false =>
    rw [setTemporary_of_not_mayAdd hm]
    exact hwithout

/-- Removing the temporary breakpoint just set, or none, gives back the entries it was added to. -/
theorem withoutTemp_setTemporary (c : Config) (r : Registry) (a : Word) :
    withoutTemp (setTemporary c r a) = withoutTemp r := by
  cases hm : mayAdd c (withoutTemp r) a with
  | true =>
    rw [setTemporary_of_mayAdd hm]
    exact removeEntry_last _ a
  | false =>
    rw [setTemporary_of_not_mayAdd hm]
    rfl

theorem setTemporary_watches (c : Config) (r : Registry) (a : Word) : (setTemporary c r a).watches = r.watches := by
  unfold setTemporary
  split <;> rfl

/-- What SETTEMP reads of the registry is what it leaves, so that a second one changes nothing (S4). -/
theorem setTemporary_idem (c : Config) (r : Registry) (a : Word) :
    setTemporary c (setTemporary c r a) a = setTemporary c r a := by
  cases hm : mayAdd c (withoutTemp r) a with
  | true =>
    rw [setTemporary_of_mayAdd (by rwa [withoutTemp_setTemporary]), withoutTemp_setTemporary, setTemporary_watches,
      setTemporary_of_mayAdd hm]
  | false =>
    rw [setTemporary_of_not_mayAdd (by rwa [withoutTemp_setTemporary]), withoutTemp_setTemporary, setTemporary_watches,
      setTemporary_of_not_mayAdd hm]

theorem exec_bpSetTemp {s : State} (hf : s.frame = none) (a : Word) :
    exec (.bpSetTemp a) s = .next (answered .done { s with registry := setTemporary s.cfg s.registry a }) :=
  hostAction_of_none hf

theorem runInstrs_bpSetTemp {s : State} (hf : s.frame = none) (a : Word) :
    runInstrs [.bpSetTemp a] s = some (answered .done { s with registry := setTemporary s.cfg s.registry a }) :=
  runInstrs_cons (exec_bpSetTemp hf a) []

/-- The second of two SETTEMP of one address leaves the state as the first left it. -/
theorem runInstrs_bpSetTemp_twice {s : State} (hf : s.frame = none) (a : Word) :
    runInstrs [.bpSetTemp a, .bpSetTemp a] s = runInstrs [.bpSetTemp a] s := by
  have hframe : (answered .done { s with registry := setTemporary s.cfg s.registry a }).frame = none := hf
  rw [runInstrs_cons (exec_bpSetTemp hf a), runInstrs_bpSetTemp hf, runInstrs_bpSetTemp hframe]
  exact congrArg (fun r => some (answered .done { s with registry := r })) (setTemporary_idem s.cfg s.registry a)

/-- Settles O57: SETTEMP by whether the entry may be added; done twice, the second changes nothing. -/
theorem temporaryBreakpointAndClear : Obligations.TemporaryBreakpointAndClear := by
  intro a arr s hf
  refine ⟨⟨_, exec_bpSetTemp hf a, fun ⟨hsent, habs, hroom⟩ => ?_, fun hno => ?_⟩, fun hnodup t ht => ?_, ?_⟩
  · exact setTemporary_of_mayAdd (mayAdd_iff.mpr ⟨hroom, hsent, habs⟩)
  · exact setTemporary_of_not_mayAdd (mayAdd_eq_false_iff.mpr (or_rotate.mpr hno))
  · rw [runInstrs_bpSetTemp_twice hf, runInstrs_bpSetTemp hf] at ht
    obtain rfl := Option.some.inj ht
    exact ⟨List.nodup_iff_count_le_one.mp (nodup_setTemporary hnodup a) a, runInstrs_bpSetTemp_twice hf a⟩
  · cases arr <;> exact hostAction_of_none hf

end Sys2Proof.Machine

/-!
PROOF. Exceptions (R370 to R373, R384): the accesses that fault by their address alone, what an access can do by whether it
yields anything, and what a transaction makes of its answer.
-/
namespace Sys2Proof.Machine

/-! ### Denied memory and writes to ROM (R371) -/

theorem exec_rdw_denied {a : Word} (h : classify (evenAddr a) = .denied) (halt : Bool) (s : State) :
    exec (.rdw a halt) s = .next (answerWord (none, raiseBusFault .fDenied ⟨a, .word, .read⟩ s)) := by
  have hread : busReadWord a halt false s = (none, raiseBusFault .fDenied ⟨a, .word, .read⟩ s) := by
    rw [busReadWord, translateAddr, h]
  exact congrArg (Host.Outcome.next ∘ answerWord) hread

theorem exec_rdb_denied {a : Word} (h : classify a = .denied) (halt : Bool) (s : State) :
    exec (.rdb a halt) s = .next (answerByte (none, raiseBusFault .fDenied ⟨a, .byte, .read⟩ s)) := by
  have hread : busReadByte a halt s = (none, raiseBusFault .fDenied ⟨a, .byte, .read⟩ s) := by
    rw [busReadByte, translateAddr, h]
  exact congrArg (Host.Outcome.next ∘ answerByte) hread

/-- The cause of the fault a write raises by its address alone, where there is one. -/
def writeFault : Place → Option FaultCause
  | .denied => some .fDenied
  | .rom _ => some .fRomWrite
  | .ram _ | .io _ => none

theorem exec_wrw_fault {a : Word} {c : FaultCause} (h : writeFault (classify (evenAddr a)) = some c) (v : Word)
    (halt : Bool) (s : State) :
    exec (.wrw a v halt) s = .next (answerWrite (false, raiseBusFault c ⟨a, .word, .write⟩ s)) := by
  have hwrite : busWriteWord a v halt s = (false, raiseBusFault c ⟨a, .word, .write⟩ s) := by
    rw [busWriteWord, translateAddr]
    generalize classify (evenAddr a) = place at h ⊢
    cases place with
    | ram o => cases h
    | rom o => cases h; rfl
    | io o => cases h
    | denied => cases h; rfl
  exact congrArg (Host.Outcome.next ∘ answerWrite) hwrite

theorem exec_wrb_fault {a : Word} {c : FaultCause} (h : writeFault (classify a) = some c) (b : Byte) (halt : Bool)
    (s : State) : exec (.wrb a b halt) s = .next (answerWrite (false, raiseBusFault c ⟨a, .byte, .write⟩ s)) := by
  have hwrite : busWriteByte a b halt s = (false, raiseBusFault c ⟨a, .byte, .write⟩ s) := by
    rw [busWriteByte, translateAddr]
    generalize classify a = place at h ⊢
    cases place with
    | ram o => cases h
    | rom o => cases h; rfl
    | io o => cases h
    | denied => cases h; rfl
  exact congrArg (Host.Outcome.next ∘ answerWrite) hwrite

/-- Settles O12: the reads of Denied memory, and the writes that fault by their address. -/
theorem deniedAccessesAndRomWritesRaiseBusFault : Obligations.DeniedAccessesAndRomWritesRaiseBusFault := by
  intro a v o b halt s
  have wrw {c} (h : writeFault (classify (evenAddr a)) = some c) := exec_wrw_fault h v halt s
  have wrb {c} (h : writeFault (classify a) = some c) := exec_wrb_fault h b halt s
  exact ⟨fun h => ⟨exec_rdw_denied h halt s, exec_fetch a halt s, wrw (congrArg writeFault h)⟩,
    fun h => ⟨exec_rdb_denied h halt s, wrb (congrArg writeFault h)⟩,
    fun h => wrw (congrArg writeFault h), fun h => wrb (congrArg writeFault h)⟩

/-! ### An access by whether it yields anything (R373, R384) -/

/-- What an access can do: yield nothing, having raised BusFault and done nothing else, or yield its value, or its
completion, with at most the one request of `ExtComplete`. The Boolean says which. -/
inductive AccessOutcome (s : State) : Bool → State → Prop
  | faulted (c : FaultCause) (acc : Access) : AccessOutcome s false (raiseBusFault c acc s)
  | completed {t : State} (h : t.out.signals = s.out.signals ∨ t.out.signals = extSignals s) : AccessOutcome s true t

namespace AccessOutcome
variable {s : State}

theorem of_portReadWord (acc : Access) (e : Word) :
    AccessOutcome s (portReadWord acc e s).1.isSome (portReadWord acc e s).2 := by
  unfold portReadWord
  cases portMap s.cfg e with
  | none => exact faulted _ _
  | some r => exact completed (portAfterRead_signals r s)

theorem of_portWriteWord (acc : Access) (e v : Word) :
    AccessOutcome s (portWriteWord acc e v s).1 (portWriteWord acc e v s).2 := by
  unfold portWriteWord
  cases portMap s.cfg e with
  | none => exact faulted _ _
  | some r => exact completed (portAfterWrite_signals r v s)

theorem of_portReadByte (acc : Access) (a : Word) :
    AccessOutcome s (portReadByte acc a s).1.isSome (portReadByte acc a s).2 := by
  have hread := of_portReadWord (s := s) acc (evenAddr a)
  unfold portReadByte
  split <;> next hp => rwa [hp] at hread

/-- The read half leaves the port map, so a byte write can fault only in that half, and then nothing is changed yet (R373);
otherwise its two halves together make at most one request. -/
theorem of_portWriteByte (acc : Access) (a : Word) (b : Byte) :
    AccessOutcome s (portWriteByte acc a b s).1 (portWriteByte acc a b s).2 := by
  cases hr : portMap s.cfg (evenAddr a) with
  | none =>
    rw [portWriteByte, portReadWord, hr]
    exact faulted _ _
  | some r =>
    have hcfg : (portAfterRead r s).cfg = s.cfg := (portAfterRead_keeps r s).cfg
    simp only [portWriteByte, portReadWord, hr, portWriteWord, hcfg]
    exact completed (portAfterWrite_portAfterRead_signals r _ s)

theorem of_busReadWord (a : Word) (halt exe : Bool) :
    AccessOutcome s (busReadWord a halt exe s).1.isSome (busReadWord a halt exe s).2 := by
  unfold busReadWord
  split
  · exact completed (.inl rfl)
  · exact completed (.inl rfl)
  · exact of_portReadWord _ _
  · exact faulted _ _

theorem of_busReadByte (a : Word) (halt : Bool) :
    AccessOutcome s (busReadByte a halt s).1.isSome (busReadByte a halt s).2 := by
  unfold busReadByte
  split
  · exact completed (.inl rfl)
  · exact completed (.inl rfl)
  · exact of_portReadByte _ _
  · exact faulted _ _

theorem of_busWriteWord (a v : Word) (halt : Bool) :
    AccessOutcome s (busWriteWord a v halt s).1 (busWriteWord a v halt s).2 := by
  unfold busWriteWord
  split
  · exact completed (.inl rfl)
  · exact faulted _ _
  · exact of_portWriteWord _ _ _
  · exact faulted _ _

theorem of_busWriteByte (a : Word) (b : Byte) (halt : Bool) :
    AccessOutcome s (busWriteByte a b halt s).1 (busWriteByte a b halt s).2 := by
  unfold busWriteByte
  split
  · exact completed (.inl rfl)
  · exact faulted _ _
  · exact of_portWriteByte _ _ _
  · exact faulted _ _

end AccessOutcome

/-! ### A transaction by its answer (R373, R384) -/

/-- An unmasked `ExtComplete` makes one EXT request, a masked one none (R219). -/
theorem extSignals_eq_or (s : State) : extSignals s = s.out.signals ∨
    extSignals s = .interruptVirq s.cfg.extLevel s.cfg.extVector :: s.out.signals :=
  ite_eq_or_eq _ _ _

/-- What R373 and R384 say of a transaction that leads from `s` to `t`, by the answer in `t`. -/
def FaultsCleanly (s t : State) : Prop :=
  if isFaultAnswer t.out.answer then
    { t with out := s.out } = s ∧ t.out.signals = .memoryError :: s.out.signals
  else
    t.out.signals = s.out.signals ∨
    t.out.signals = .interruptVirq s.cfg.extLevel s.cfg.extVector :: s.out.signals

namespace FaultsCleanly
variable {s t : State}

theorem of_fault (hfault : isFaultAnswer t.out.answer = true) (hkept : { t with out := s.out } = s)
    (hcall : t.out.signals = .memoryError :: s.out.signals) : FaultsCleanly s t := by
  rw [FaultsCleanly, if_pos hfault]
  exact ⟨hkept, hcall⟩

theorem of_completed (hdone : isFaultAnswer t.out.answer = false)
    (hcall : t.out.signals = s.out.signals ∨ t.out.signals = extSignals s) : FaultsCleanly s t := by
  rw [FaultsCleanly, if_neg (Bool.eq_false_iff.mp hdone)]
  obtain hnone | hext := hcall
  · exact .inl hnone
  · rw [hext]
    exact extSignals_eq_or s

theorem answerWord {r : Option Word × State} (h : AccessOutcome s r.1.isSome r.2) : FaultsCleanly s (answerWord r) := by
  obtain ⟨_ | w, t⟩ := r
  · obtain ⟨c, acc⟩ := h
    exact of_fault rfl rfl rfl
  · obtain _ | hcall := h
    exact of_completed rfl hcall

theorem answerByte {r : Option Byte × State} (h : AccessOutcome s r.1.isSome r.2) : FaultsCleanly s (answerByte r) := by
  obtain ⟨_ | b, t⟩ := r
  · obtain ⟨c, acc⟩ := h
    exact of_fault rfl rfl rfl
  · obtain _ | hcall := h
    exact of_completed rfl hcall

theorem answerWrite {r : Bool × State} (h : AccessOutcome s r.1 r.2) : FaultsCleanly s (answerWrite r) := by
  obtain ⟨_ | _, t⟩ := r
  · obtain ⟨c, acc⟩ := h
    exact of_fault rfl rfl rfl
  · obtain _ | hcall := h
    exact of_completed rfl hcall

end FaultsCleanly

/-- Each transaction answers the outcome of one access. -/
theorem busTransaction_faultsCleanly (op : BusOp) (halt : Bool) (s : State) :
    FaultsCleanly s (busTransaction op halt s) := by
  cases op with
  | readWord a => exact .answerWord (.of_busReadWord a halt false)
  | readByte a => exact .answerByte (.of_busReadByte a halt)
  | writeWord a v => exact .answerWrite (.of_busWriteWord a v halt)
  | writeByte a b => exact .answerWrite (.of_busWriteByte a b halt)
  | fetchWord a => exact .answerWord (.of_busReadWord a halt true)

/-- Settles O14: a fault is BusFault and nothing else, and only `ExtComplete` makes a call in an access that completes. -/
theorem transactionsFaultCleanlyAndCallTheCpuAtMostOnce :
    Obligations.TransactionsFaultCleanlyAndCallTheCpuAtMostOnce :=
  busTransaction_faultsCleanly

end Sys2Proof.Machine

/-!
PROOF. RESET (R410) and the state at power-on (R411): what the CPU's own reset puts beside the block's registers, and
the parts from which the invariant starts.
-/
namespace Sys2Proof.Machine

/-! ### RESET (R410) -/

theorem exec_reset {s : State} (hf : s.frame = none) : exec .reset s = .next (answered .done (boardReset s)) :=
  hostAction_of_none hf

/-- The CPU's own reset is one call and one free value, and the CPU's elements take what that value gives (log 11). -/
theorem cpuOwnReset_eq (s : State) : cpuOwnReset s = { s with
    cpu := { s.cpu with
      pc := Config.cpuResetPc s.out.draws
      halt := Config.cpuResetHalt s.out.draws
      image := Config.cpuResetImage s.out.draws }
    out := { s.out with signals := .cpuReset :: s.out.signals, draws := s.out.draws + 1 } } := rfl

/-- Settles O48: the block's registers are written, and then the CPU resets itself. -/
theorem resetWritesTheBlocksRegistersOnly : Obligations.ResetWritesTheBlocksRegistersOnly := by
  intro s hf
  rw [exec_reset hf, boardReset, cpuOwnReset_eq]
  rfl

/-! ### Power-on (R411) -/

/-- An array of which no byte is known reads as its power-on contents (log 7). -/
@[simp] theorem Memory.byteAt_nil (init : Nat → Byte) (i : Nat) : Memory.byteAt init [] i = init i := rfl

theorem configValid_refcfg : configValid Config.refcfg = true := by decide

theorem Slot.empty_ok : SlotOk Slot.empty where
  size_le := Nat.zero_le _
  mask_eq := rfl
  cursor_le := Nat.zero_le _
  empty_unless_attached := fun _ => rfl

@[simp] theorem getSlot_reset (sl : SlotIx) : getSlot State.reset sl = Slot.empty := by cases sl <;> rfl

@[simp] theorem getArray_reset (arr : BpArray) : getArray State.reset.registry arr = [] := by cases arr <;> rfl

theorem BoardInv.reset : BoardInv State.reset where
  config_valid := configValid_refcfg
  ram_wf := Memory.wf_nil ramSize
  rom_wf := Memory.wf_nil romSize
  slot_ok := fun sl => by rw [getSlot_reset]; exact Slot.empty_ok
  array_ok := fun arr => by rw [getArray_reset]; exact nil_arrayOk configValid_refcfg
  tonePre_le := Nat.zero_le _
  no_frame := rfl

/-- Settles O59: the invariant holds at power-on, the slots are empty and the memories have no known byte. -/
theorem powerOnStateHasTheSpecsValues : Obligations.PowerOnStateHasTheSpecsValues :=
  ⟨BoardInv.reset, rfl, rfl, rfl, rfl, rfl, rfl, getSlot_reset, Memory.byteAt_nil Config.ramPowerOn,
    Memory.byteAt_nil Config.romPowerOn⟩

end Sys2Proof.Machine
